-- ==== Sys2Proof/Word.lean ====
section
/-! DEFINITION. The word types of HUFENG (spec/00_scope.md R7, R8): every value is unsigned, bit 0 the least significant. -/

namespace Sys2Proof

/-- A byte of a stream or of the host bus (R7: values 0..255). -/
abbrev Byte := BitVec 8

/-- A register access (R7: `REG_BITS` = 32). -/
abbrev Word := BitVec 32

/-- An entry of the frequency table (R7: `COUNT_BITS` = 32). -/
abbrev Count := BitVec 32

/-- A node weight (R7: `WEIGHT_BITS` = 41). -/
abbrev Weight := BitVec 41

/-- A symbol (R7: `SYM_BITS` = 9): 0..255 a byte, 256 EOS, 511 NAS (R54). -/
abbrev Sym := BitVec 9

/-- An arena slot index or NIL (R7: `IDX_BITS` = 10). -/
abbrev Slot := BitVec 10

/-- BIT_COUNT and SYM_COUNT (R7: `CTR_BITS` = 64). -/
abbrev Counter := BitVec 64

/-- The length of a code, or an index into one (R58, R63: 9 bits, 0..256). -/
abbrev CodeLen := BitVec 9

end Sys2Proof
end

