-- ==== Sys2Proof/Syntax.lean ====
section
/-! DEFINITION. The commands of HUFENG (spec/30_encoding.md R131, spec/opcode_table.json): one constructor per row. -/

namespace Sys2Proof

/-- A command (R130, R131). No command has an operand (R134). `illegal` stands for the table's ILLEGAL row and, as the row's
own note and R132 say, for every other word that matches no row; it carries the word because its rule writes it (R312). -/
inductive Instr where
  | nop
  | clearFreq
  | buildTree
  | deriveCodes
  | encode
  | decode
  | release
  | abort
  | illegal (w : Word)
deriving DecidableEq, Repr

end Sys2Proof
end

