-- ==== Sys2Proof/WellFormed.lean ====
section
/-! DEFINITION. Which terms of `Instr` stand for a word of the CMD register (spec/30_encoding.md R132, R133). -/

namespace Sys2Proof

/-- R133: a word is illegal when a bit of 31:4 is set or OP is in 0x8..0xF. An `illegal` term is well-formed only over such a
word; the other constructors have no field to check. -/
def Instr.wf : Instr → Bool
  | .nop => true
  | .clearFreq => true
  | .buildTree => true
  | .deriveCodes => true
  | .encode => true
  | .decode => true
  | .release => true
  | .abort => true
  | .illegal w => decide (w.extractLsb' 4 28 ≠ 0) || decide (8 ≤ (w.extractLsb' 0 4).toNat)

end Sys2Proof
end

