-- ==== Sys2Proof/Decode.lean ====
section
/-! DEFINITION. Command words and bytes to commands, and back (spec/30_encoding.md R130 to R133, spec/20_memory.md R106). -/

namespace Sys2Proof

/-- Why bytes are no command word. Every 32-bit word is one (R132). -/
inductive DecodeError where
  /-- The write does not carry exactly four bytes (R130: every command has this one length; R103). -/
  | wrongLength (bytes : Nat)
deriving DecidableEq, Repr

/-- OP, bits 3:0 (R130). -/
def opField (w : Word) : BitVec 4 := w.extractLsb' 0 4

/-- RSVD, bits 31:4 (R130). -/
def rsvdField (w : Word) : BitVec 28 := w.extractLsb' 4 28

/-- R132: total on every 32-bit word. -/
def decodeWord (w : Word) : Instr :=
  if rsvdField w ≠ 0 then .illegal w
  else
    match (opField w).toNat with
    | 0 => .nop
    | 1 => .clearFreq
    | 2 => .buildTree
    | 3 => .deriveCodes
    | 4 => .encode
    | 5 => .decode
    | 6 => .release
    | 7 => .abort
    | _ => .illegal w

/-- R106: byte `k` of a word is its bits 8k+7:8k. -/
def wordOfBytes : List Byte → Option Word
  | [b0, b1, b2, b3] => some (b3 ++ b2 ++ b1 ++ b0)
  | _ => none

/-- R106, the other way. -/
def bytesOfWord (w : Word) : List Byte :=
  [w.extractLsb' 0 8, w.extractLsb' 8 8, w.extractLsb' 16 8, w.extractLsb' 24 8]

/-- The command in the bytes of a CMD write, lowest byte first; total on any bytes. -/
def decode (bytes : List Byte) : Except DecodeError Instr :=
  match wordOfBytes bytes with
  | some w => .ok (decodeWord w)
  | none => .error (.wrongLength bytes.length)

/-- The word of a command (R131, spec/opcode_table.json). -/
def encode : Instr → Word
  | .nop => 0x00000000
  | .clearFreq => 0x00000001
  | .buildTree => 0x00000002
  | .deriveCodes => 0x00000003
  | .encode => 0x00000004
  | .decode => 0x00000005
  | .release => 0x00000006
  | .abort => 0x00000007
  | .illegal w => w

/-- The bytes a CMD write of the command carries (R106). -/
def encodeBytes (i : Instr) : List Byte := bytesOfWord (encode i)

/-- The bytes of an opcode-table word of `nbits` bits, little-endian (R106), filled with zeros up to one command word. -/
def tableBytes (nbits w : Nat) : List Byte :=
  (List.range (max 4 ((nbits + 7) / 8))).map fun k => BitVec.ofNat 8 ((w % 2 ^ nbits) >>> (8 * k))

/-- The command the decoder reads from an opcode-table word. -/
def decodeTableWord (nbits w : Nat) : Option Instr :=
  match decode (tableBytes nbits w) with
  | .ok i => some i
  | .error _ => none

end Sys2Proof
end

