-- ==== Sys2Proof/Config.lean ====
section
/-! DEFINITION. The parameters of the block (spec/00_scope.md R7), the named values of `fsm` and `sub` (spec/10_state.md R64), and the values the spec leaves open. -/

namespace Sys2Proof.Config

/-- Frequency and code entries (R7: `NUM_SYMBOLS`). -/
abbrev numSymbols : Nat := 257

/-- Arena slots (R7: `MAX_NODES`). -/
abbrev maxNodes : Nat := 513

/-- Bit cells of a code entry (R7: `MAX_CODE_LEN`, R58). -/
abbrev maxCodeLen : Nat := 256

/-- The end-of-stream symbol (R7, R54). -/
def eos : Sym := 256

/-- The not-a-symbol marker (R7, R54). -/
def nas : Sym := 511

/-- An absent child, and ROOT_IDX when there is no tree (R7, R60). -/
def nil : Slot := 1023

/-- The ID register's constant (R7, R32). -/
def idValue : Word := 0x48554631

/-- 2^64 − 1: a counter that holds it is never incremented (R253, R283, R338). -/
def counterMax : Counter := BitVec.allOnes 64

/-- The engine states of R64. -/
def fsmIdle : BitVec 3 := 0
def fsmBuild : BitVec 3 := 1
def fsmDerive : BitVec 3 := 2
def fsmEncode : BitVec 3 := 3
def fsmDecode : BitVec 3 := 4

/-- The sub-states of ENCODE and of DECODE (R64). -/
def encWaitSym : BitVec 4 := 0
def encShift : BitVec 4 := 1
def encShiftEos : BitVec 4 := 2
def decWaitBit : BitVec 4 := 0
def decEmit : BitVec 4 := 1

/-- FREE VALUE (spec/93_implementation_defined.md U1, R66): what the `k`-th unspecified busy-window read returns. No body: a
statement about it holds for every value (log entry 4). -/
opaque freeWord : Nat → Word

/-- OPEN platform parameters (R7, U13 to U15). No rule of the block reads them, and no definition of this model does. -/
opaque hufengBase : Nat
opaque hufengIrqLine : Nat
opaque hufengCycles : Nat

end Sys2Proof.Config
end

