-- ==== Sys2Proof/Machine/State.lean ====
section
/-! DEFINITION. The state of HUFENG and of its surroundings as plain data (spec/10_state.md R30 to R77), and the state after reset (R76). -/

namespace Sys2Proof.Machine

/-- An arena slot (R53). -/
structure Node where
  sym : Sym
  weight : Weight
  zero : Slot
  one : Slot
deriving DecidableEq, Repr

/-- The EMPTY node (R56). -/
def Node.empty : Node := { sym := Config.nas, weight := 0, zero := Config.nil, one := Config.nil }

/-- A code-table entry (R58): bit `k` of `cells` is cell `k` of the bit string. -/
structure CodeEntry where
  len : CodeLen
  cells : BitVec 256
deriving DecidableEq, Repr

/-- An entry with no code (R58, R59). -/
def CodeEntry.empty : CodeEntry := { len := 0, cells := 0 }

/-- An item of SYM_IN (R70): `Byte(b)` or `End`. -/
inductive SymItem where
  | byte (b : Byte)
  | endOfSource
deriving DecidableEq, Repr

/-- An item of BIT_IN (R70): `Bit(x)` or `Eof`. -/
inductive BitItem where
  | bit (x : Bool)
  | eof
deriving DecidableEq, Repr

/-- What the host does next (spec/20_memory.md R100, spec/30_encoding.md R137, R138). A width is a number of bytes; a write's
width is the number of its bytes, the lowest first (R106). -/
inductive HostOp where
  | read (off : BitVec 8) (width : Nat)
  | write (off : BitVec 8) (bytes : List Byte)
  /-- The pseudo-instruction `WAIT` (R138): read STATUS again until BUSY reads 0. -/
  | wait
deriving DecidableEq, Repr

/-- What a source partner does between transfers (R74, spec/70_reset_and_hazards.md R387): it has one more item to offer, after
those it already offers, or it discards all it still offers. -/
inductive SourceAct (α : Type) where
  | offer (item : α)
  | flush
deriving DecidableEq, Repr

/-- The agent that takes the next step (spec/00_scope.md R5, R6, U19). -/
inductive Turn where
  /-- The host performs its next access. -/
  | host
  /-- The engine takes its enabled step, if it has one. -/
  | engine
  | byteSource (act : SourceAct SymItem)
  | bitSource (act : SourceAct BitItem)
  /-- The bit sink sets `bit_out_ready`. -/
  | bitSink (ready : Bool)
  /-- The byte sink sets `sym_out_ready`. -/
  | byteSink (ready : Bool)
  /-- The reset input changes to this level (spec/70_reset_and_hazards.md R370). -/
  | rst (level : Bool)
deriving DecidableEq, Repr

/-- The whole state. The fields up to `decOut` are the block's own (R30); those from `rst` on are its surroundings; `draws` is the
model's own (log entry 4). -/
structure State where
  /-- STATUS.DONE (R36) -/
  done : Bool
  /-- STATUS.TREE_VALID (R37) -/
  treeValid : Bool
  /-- STATUS.CODES_VALID (R38) -/
  codesValid : Bool
  /-- STATUS.OVERRUN (R39) -/
  overrun : Bool
  /-- STATUS.ERR (R40) -/
  err : BitVec 4
  /-- CTRL.IRQ_EN (R42) -/
  irqEn : Bool
  /-- ERR_INFO (R43) -/
  errInfo : Word
  /-- FREQ_SEL.SYM (R44) -/
  freqSel : BitVec 9
  /-- NODE_SEL (R47) -/
  nodeSel : BitVec 10
  /-- CODE_SEL (R48) -/
  codeSel : BitVec 9
  /-- CODE_WORD_SEL (R48) -/
  codeWordSel : BitVec 3
  /-- The frequency table (R50) -/
  freq : Vector Count 257
  /-- The node arena (R53) -/
  node : Vector Node 513
  /-- LEAF_CNT (R60) -/
  leafCnt : BitVec 9
  /-- ROOT_IDX (R60) -/
  rootIdx : Slot
  /-- The code table (R58) -/
  code : Vector CodeEntry 257
  /-- BIT_COUNT (R49) -/
  bitCount : Counter
  /-- SYM_COUNT (R49) -/
  symCount : Counter
  /-- The engine's sequencing state (R64) -/
  fsm : BitVec 3
  /-- The engine's sub-state (R64) -/
  sub : BitVec 4
  /-- The priority queue (R61), a set: a list with no repeats, in order of arrival -/
  pq : List Slot
  /-- The traversal stack of DERIVE_CODES (R62), its top first -/
  stack : List (Slot × List Bool)
  /-- ENC_SYM (R63) -/
  encSym : Sym
  /-- ENC_K (R63) -/
  encK : CodeLen
  /-- DEC_CUR (R65) -/
  decCur : Slot
  /-- DEC_OUT (R65) -/
  decOut : Byte
  /-- The level of the reset input (R70) -/
  rst : Bool
  /-- What the byte source still offers on SYM_IN, in order (R72) -/
  symIn : List SymItem
  /-- What the bit source still offers on BIT_IN, in order (R72) -/
  bitIn : List BitItem
  /-- What the bit sink has received on BIT_OUT, oldest first (R72) -/
  bitOut : List Bool
  /-- What the byte sink has received on SYM_OUT, oldest first (R72) -/
  symOut : List Byte
  /-- `bit_out_ready`: the bit sink accepts (R70) -/
  bitOutReady : Bool
  /-- `sym_out_ready`: the byte sink accepts (R70) -/
  symOutReady : Bool
  /-- The host's accesses still to come, in program order (R114) -/
  hostProg : List HostOp
  /-- The values the host's reads returned, oldest first (R100) -/
  hostReads : List Word
  /-- Which agent takes each of the next steps (R5, U19) -/
  turns : List Turn
  /-- How many free values have been drawn (U1) -/
  draws : Nat
deriving DecidableEq, Repr

/-- HUFENG has no fault: no access faults (spec/20_memory.md R113), an error is a completion and no trap
(spec/60_exceptions.md R333), and a wait on a partner is never a fault (spec/00_scope.md R10 `hold`). So no step raises one. -/
inductive Fault where
deriving DecidableEq, Repr

/-- Why a step has no meaning in the spec. -/
inductive Refusal where
  /-- An instruction with no meaning in this model, by its mnemonic. Raised by no arm of `exec`: safe. -/
  | notModelled (mnemonic : String)
  /-- A host access of a width other than four bytes, or at an offset that is no multiple of 4. The spec defines no step for it
  and says that a model refuses it (spec/20_memory.md R103, U2). Raised by the host's turn: safe. -/
  | undefinedAccess (off : BitVec 8) (width : Nat)
deriving DecidableEq, Repr

/-- The state after reset: the block as R76 lists it. The surroundings have nothing placed in them (log entry 3): no partner
offers or accepts, the host has no access to make, no turn is scheduled. -/
def State.reset : State where
  done := false
  treeValid := false
  codesValid := false
  overrun := false
  err := 0
  irqEn := false
  errInfo := 0
  freqSel := 0
  nodeSel := 0
  codeSel := 0
  codeWordSel := 0
  freq := Vector.replicate 257 0
  node := Vector.replicate 513 Node.empty
  leafCnt := 0
  rootIdx := Config.nil
  code := Vector.replicate 257 CodeEntry.empty
  bitCount := 0
  symCount := 0
  fsm := Config.fsmIdle
  sub := 0
  pq := []
  stack := []
  encSym := 0
  encK := 0
  decCur := Config.nil
  decOut := 0
  rst := false
  symIn := []
  bitIn := []
  bitOut := []
  symOut := []
  bitOutReady := false
  symOutReady := false
  hostProg := []
  hostReads := []
  turns := []
  draws := 0

end Sys2Proof.Machine
end

