-- ==== Sys2Proof/Machine/Ops.lean ====
section
/-! DEFINITION. The named operations over the tables, the completion of a command (this block's exception entry, spec/60_exceptions.md R333), the accept, the reset step and the port transfers. -/

namespace Sys2Proof.Machine

/-! ## The three tables -/

/-- `freq[s]` (R50). Past the table it is 0, as R45 reads it. -/
def freqGet (t : Vector Count 257) (s : Nat) : Count := (t[s]?).getD 0

/-- `freq[s] <- v`; past the table nothing is written (R182). -/
def freqSet (t : Vector Count 257) (s : Nat) (v : Count) : Vector Count 257 := t.setIfInBounds s v

/-- `node[i]` (R53). Past the arena it is the EMPTY node, as R47 reads it. -/
def arenaGet (t : Vector Node 513) (i : Nat) : Node := (t[i]?).getD Node.empty

/-- `node[i] <- n`; past the arena nothing is written (log entry 10: no run gets there). -/
def arenaSet (t : Vector Node 513) (i : Nat) (n : Node) : Vector Node 513 := t.setIfInBounds i n

/-- `code[s]` (R58). Past the table it is the empty entry, as R48 reads it. -/
def codeGet (t : Vector CodeEntry 257) (s : Nat) : CodeEntry := (t[s]?).getD CodeEntry.empty

/-- `code[s] <- e`; past the table nothing is written (log entry 10: no run gets there). -/
def codeSet (t : Vector CodeEntry 257) (s : Nat) (e : CodeEntry) : Vector CodeEntry 257 := t.setIfInBounds s e

def State.freqAt (s : State) (sym : Sym) : Count := freqGet s.freq sym.toNat
def State.nodeAt (s : State) (i : Slot) : Node := arenaGet s.node i.toNat
def State.codeAt (s : State) (sym : Sym) : CodeEntry := codeGet s.code sym.toNat

/-- The leaf test of every rule (R55). -/
def Node.isLeaf (n : Node) : Bool := decide (n.sym ≠ Config.nas)

/-- The child that a bit reaches: bit 0 the zero child, bit 1 the one child (R286). -/
def Node.child (n : Node) (x : Bool) : Slot := if x then n.one else n.zero

/-- The value of a bit string, its first bit the least significant (R106, R48). -/
def pathValue : List Bool → Nat
  | [] => 0
  | b :: rest => b.toNat + 2 * pathValue rest

/-- The entry that holds the bit string `p` (R58): cell `k` is `p_k`, the cells past its end are 0. -/
def CodeEntry.ofPath (p : List Bool) : CodeEntry :=
  { len := BitVec.ofNat 9 p.length, cells := BitVec.ofNat 256 (pathValue p) }

/-- `bits_k` of an entry (R9, R58). -/
def CodeEntry.bit (e : CodeEntry) (k : Nat) : Bool := e.cells.getLsbD k

/-! ## Completion and errors -/

/-- The errors of R330. -/
inductive ErrCode where
  | emptyMap
  | noEos
  | noTree
  | noCodes
  | noCode
  | desync
  | truncated
  | illegalCmd
  | countOverflow
  | aborted
deriving DecidableEq, Repr

/-- The code STATUS.ERR holds (R330). -/
def ErrCode.code : ErrCode → BitVec 4
  | .emptyMap => 1
  | .noEos => 2
  | .noTree => 3
  | .noCodes => 4
  | .noCode => 5
  | .desync => 6
  | .truncated => 7
  | .illegalCmd => 8
  | .countOverflow => 9
  | .aborted => 10

/-- `complete(e, info)` (R165). BUSY reads 0 and an offer on BIT_OUT or SYM_OUT is withdrawn because both are functions of `fsm`
and `sub` (R35, R73). -/
def complete (e : BitVec 4) (info : Word) (s : State) : State :=
  { s with err := e, errInfo := info, done := true, fsm := Config.fsmIdle, sub := 0, pq := [], stack := [] }

/-- `finish()` (R165). -/
def finish (s : State) : State := complete 0 0 s

/-- `raise E(info)` (R340): an error is a completion; it saves nothing else and jumps nowhere (R333). -/
def raise (e : ErrCode) (info : Word) (s : State) : State := complete e.code info s

/-! ## Accept and busy writes -/

/-- What every accept does first (R160). -/
def beginAccept (s : State) : State := { s with done := false, err := 0, errInfo := 0 }

/-- A write refused because the engine is busy (R163, R339). -/
def dropWrite (s : State) : State := { s with overrun := true }

/-- A CMD write (R160, R163): accepted when the engine is idle, dropped otherwise. An ABORT that is honoured does not pass here. -/
def command (accept : State → State) (s : State) : State :=
  if s.fsm = Config.fsmIdle then accept (beginAccept s) else dropWrite s

/-- Both validity flags cleared (R37, R38, R183). -/
def invalidate (s : State) : State := { s with treeValid := false, codesValid := false }

/-- Every code entry emptied (R59). -/
def emptyCodes (s : State) : State := { s with code := Vector.replicate 257 CodeEntry.empty }

/-- The arena, the code table, LEAF_CNT, ROOT_IDX and the flags emptied (R201, R311). -/
def discardTree (s : State) : State :=
  { s with
    node := Vector.replicate 513 Node.empty, code := Vector.replicate 257 CodeEntry.empty,
    leafCnt := 0, rootIdx := Config.nil, treeValid := false, codesValid := false }

/-- The engine moves to a state and sub-state (R64, R161). -/
def goto (f : BitVec 3) (b : BitVec 4) (s : State) : State := { s with fsm := f, sub := b }

/-- Both counters cleared (R252, R282). -/
def clearCounters (s : State) : State := { s with bitCount := 0, symCount := 0 }

/-! ## Reset -/

/-- The reset step (R370): the block as R76 says, the surroundings untouched (R77). -/
def resetStep (s : State) : State :=
  { State.reset with
    rst := s.rst, symIn := s.symIn, bitIn := s.bitIn, bitOut := s.bitOut, symOut := s.symOut, bitOutReady := s.bitOutReady,
    symOutReady := s.symOutReady, hostProg := s.hostProg, hostReads := s.hostReads, turns := s.turns, draws := s.draws }

/-! ## Ports -/

/-- The wires of SYM_IN (R71): with `sym_in_end` the data are ignored. -/
def SymItem.ofWires (symInEnd : Bool) (symInData : Byte) : SymItem := if symInEnd then .endOfSource else .byte symInData

/-- The wires of BIT_IN (R71): with `bit_in_eof` the data are ignored. -/
def BitItem.ofWires (bitInEof bitInData : Bool) : BitItem := if bitInEof then .eof else .bit bitInData

/-- `sym_in_ready` (R73). -/
def State.symInReady (s : State) : Bool := decide (s.fsm = Config.fsmEncode ∧ s.sub = Config.encWaitSym)

/-- `bit_out_valid` (R73). -/
def State.bitOutValid (s : State) : Bool :=
  decide (s.fsm = Config.fsmEncode ∧ (s.sub = Config.encShift ∨ s.sub = Config.encShiftEos))

/-- The symbol whose code ENCODE sends: ENC_SYM in ENC_SHIFT (R256), EOS in ENC_SHIFT_EOS (R258). -/
def State.sendSym (s : State) : Sym := if s.sub = Config.encShiftEos then Config.eos else s.encSym

/-- `bit_out_data`: bit ENC_K of the code being sent (R256, R258). -/
def State.bitOutData (s : State) : Bool := (s.codeAt s.sendSym).bit s.encK.toNat

/-- `bit_in_ready` (R73). -/
def State.bitInReady (s : State) : Bool := decide (s.fsm = Config.fsmDecode ∧ s.sub = Config.decWaitBit)

/-- `sym_out_valid` (R73). -/
def State.symOutValid (s : State) : Bool := decide (s.fsm = Config.fsmDecode ∧ s.sub = Config.decEmit)

/-- `sym_out_data` (R290). -/
def State.symOutData (s : State) : Byte := s.decOut

/-- A bit moves to the bit sink and is counted in the same step (R72, R115, R253). -/
def giveBit (x : Bool) (s : State) : State := { s with bitOut := s.bitOut ++ [x], bitCount := s.bitCount + 1#64 }

/-- A byte moves to the byte sink and is counted in the same step (R72, R115, R283). -/
def giveSym (b : Byte) (s : State) : State := { s with symOut := s.symOut ++ [b], symCount := s.symCount + 1#64 }

end Sys2Proof.Machine
end

