-- ==== Sys2Proof/Machine/CodeDerivation.lean ====
section
/-! DEFINITION. DERIVE_CODES (spec/43_code_derivation.md R230 to R236). -/

namespace Sys2Proof.Machine

/-- The accept step of DERIVE_CODES (R231). -/
def acceptDeriveCodes (s : State) : State :=
  if s.treeValid then goto Config.fsmDerive 0 { emptyCodes s with codesValid := false }
  else raise .noTree (Sys2Proof.encode .deriveCodes) s

/-- DERIVE_CODES (R230): the accept; the work is the engine's execution step `deriveStep` (R231). -/
def execDeriveCodes (s : State) : Host.Outcome State Fault Refusal := .next (command acceptDeriveCodes s)

/-- What the derivator works on inside the execution step: the code table and the stack, its top first (R62). -/
structure DeriveWork where
  code : Vector CodeEntry 257
  stack : List (Slot × List Bool)
deriving DecidableEq, Repr

/-- One pass of the loop of R233: a leaf gives its symbol the path as its code; an internal node puts its zero child on top of its
one child. -/
def deriveVisit (node : Vector Node 513) (w : DeriveWork) : DeriveWork :=
  match w.stack with
  | [] => w
  | (i, p) :: rest =>
    let n := arenaGet node i.toNat
    if n.isLeaf then { code := codeSet w.code n.sym.toNat (CodeEntry.ofPath p), stack := rest }
    else { code := w.code, stack := (n.zero, p ++ [false]) :: (n.one, p ++ [true]) :: rest }

/-- The loop of R233 in at most `k` passes; none if the stack is not empty by then. -/
def deriveLoop (node : Vector Node 513) : Nat → DeriveWork → Option DeriveWork
  | 0, w => if w.stack = [] then some w else none
  | k + 1, w => if w.stack = [] then some w else deriveLoop node k (deriveVisit node w)

/-- The completion of a derivation (R236). -/
def completeDerive (code : Vector CodeEntry 257) (s : State) : State := finish { s with code := code, codesValid := true }

/-- The execution step of DERIVE_CODES (R231): a leaf root gets the code "0" (R234), any other tree is walked from the root with
the empty path (R233). A tree has at most 513 slots and the walk visits each once (R213), so 513 passes end it; over an arena
that is no tree, which no run makes, the walk may never end, and the engine then holds (log entry 9). -/
def deriveStep (s : State) : State :=
  if (s.nodeAt s.rootIdx).isLeaf then
    completeDerive (codeSet s.code (s.nodeAt s.rootIdx).sym.toNat (CodeEntry.ofPath [false])) s
  else
    match deriveLoop s.node Config.maxNodes { code := s.code, stack := [(s.rootIdx, [])] } with
    | some w => completeDerive w.code { s with stack := w.stack }
    | none => s

end Sys2Proof.Machine
end

