-- ==== Sys2Proof/Machine/Control.lean ====
section
/-! DEFINITION. NOP, RELEASE, ABORT and the illegal words (spec/46_control.md R310 to R314). -/

namespace Sys2Proof.Machine

/-- NOP (R310). -/
def execNop (s : State) : Host.Outcome State Fault Refusal := .next (command finish s)

/-- RELEASE (R311). -/
def execRelease (s : State) : Host.Outcome State Fault Refusal := .next (command (fun t => finish (discardTree t)) s)

/-- ERR_INFO of an honoured ABORT: `zext_32(fsm) << 4 | zext_32(sub)` (R313). -/
def abortInfo (s : State) : Word := (s.fsm.setWidth 32 <<< 4) ||| s.sub.setWidth 32

/-- ABORT: a plain completion while idle, dropped while BUILD or DERIVE runs (R314); while ENCODE or DECODE runs it completes the
running command and does not pass through the accept (R313). -/
def execAbort (s : State) : Host.Outcome State Fault Refusal :=
  .next (if s.fsm = Config.fsmEncode ∨ s.fsm = Config.fsmDecode then raise .aborted (abortInfo s) s else command finish s)

/-- An illegal word (R312). -/
def execIllegal (w : Word) (s : State) : Host.Outcome State Fault Refusal := .next (command (raise .illegalCmd w) s)

end Sys2Proof.Machine
end

