-- ==== Sys2Proof/Machine/Decoder.lean ====
section
/-! DEFINITION. DECODE (spec/45_decoder.md R280 to R291). -/

namespace Sys2Proof.Machine

/-- The accept step of DECODE (R281, R282). -/
def acceptDecode (s : State) : State :=
  if s.treeValid then goto Config.fsmDecode Config.decWaitBit { clearCounters s with decCur := s.rootIdx }
  else raise .noTree (Sys2Proof.encode .decode) s

/-- DECODE (R280): the accept; the stream is moved by the engine's steps `decodeStep`. -/
def execDecode (s : State) : Host.Outcome State Fault Refusal := .next (command acceptDecode s)

/-- ERR_INFO of a desync: `zext_32(DEC_CUR) | x << 16` (R284, R291). -/
def desyncInfo (cur : Slot) (x : Bool) : Word := cur.setWidth 32 ||| ((BitVec.ofBool x).setWidth 32 <<< 16)

/-- The slot a bit moves to (R286), none when there is none (R291). At a leaf, which only the root can be, bit 0 reaches the leaf
itself and bit 1 nothing (R287). -/
def nextSlot (node : Vector Node 513) (cur : Slot) (x : Bool) : Option Slot :=
  let n := arenaGet node cur.toNat
  if n.isLeaf then (if x then none else some cur)
  else if n.child x = Config.nil then none
  else some (n.child x)

/-- The move has reached `nxt` (R284): EOS completes (R289), another leaf waits to be sent (R288), an internal node is the new
pointer. -/
def arrive (nxt : Slot) (s : State) : State :=
  let n := s.nodeAt nxt
  if n.isLeaf then
    if n.sym = Config.eos then finish { s with decCur := nxt }
    else { s with decCur := nxt, decOut := n.sym.setWidth 8, sub := Config.decEmit }
  else { s with decCur := nxt }

/-- A bit taken from BIT_IN (R284): counter overflow before the move (R336 (d)); the bit is counted before it can desync. -/
def decodeBit (x : Bool) (s : State) : State :=
  if s.bitCount = Config.counterMax then raise .countOverflow 0 s
  else
    let t := { s with bitCount := s.bitCount + 1#64 }
    match nextSlot t.node t.decCur x with
    | none => raise .desync (desyncInfo t.decCur x) t
    | some nxt => arrive nxt t

/-- The DEC_WAIT_BIT step (R284): holds until the bit source offers an item. `Eof` is a truncated stream (R285). -/
def decWaitBitStep (s : State) : State :=
  match s.bitIn with
  | [] => s
  | .eof :: rest => raise .truncated (s.decCur.setWidth 32) { s with bitIn := rest }
  | .bit x :: rest => decodeBit x { s with bitIn := rest }

/-- The DEC_EMIT step (R290): holds until the byte sink accepts (R164, log entry 7). -/
def decEmitStep (s : State) : State :=
  if s.symOutReady = false then s
  else if s.symCount = Config.counterMax then raise .countOverflow 1 s
  else giveSym s.decOut { s with decCur := s.rootIdx, sub := Config.decWaitBit }

/-- The engine's step while DECODE runs (R164): the step of its sub-state; a sub-state R64 does not list has none (U6). -/
def decodeStep (s : State) : State :=
  if s.sub = Config.decWaitBit then decWaitBitStep s
  else if s.sub = Config.decEmit then decEmitStep s
  else s

end Sys2Proof.Machine
end

