-- ==== Sys2Proof/Machine/Encoder.lean ====
section
/-! DEFINITION. ENCODE (spec/44_encoder.md R250 to R262). -/

namespace Sys2Proof.Machine

/-- The accept step of ENCODE (R251, R252). -/
def acceptEncode (s : State) : State :=
  if s.codesValid then goto Config.fsmEncode Config.encWaitSym (clearCounters s)
  else raise .noCodes (Sys2Proof.encode .encode) s

/-- ENCODE (R250): the accept; the stream is moved by the engine's steps `encodeStep`. -/
def execEncode (s : State) : Host.Outcome State Fault Refusal := .next (command acceptEncode s)

/-- A byte taken from SYM_IN (R254, R255): no code before counter overflow (R336 (c)). -/
def encodeByte (b : Byte) (s : State) : State :=
  if (s.codeAt (b.setWidth 9)).len = 0 then raise .noCode (b.setWidth 32) s
  else if s.symCount = Config.counterMax then raise .countOverflow 1 s
  else { s with symCount := s.symCount + 1#64, encSym := b.setWidth 9, encK := 0, sub := Config.encShift }

/-- `End` taken from SYM_IN (R254, R257). -/
def encodeEnd (s : State) : State := { s with encSym := Config.eos, encK := 0, sub := Config.encShiftEos }

/-- The ENC_WAIT_SYM step (R254): holds until the byte source offers an item; the item is consumed whatever follows. -/
def encWaitSymStep (s : State) : State :=
  match s.symIn with
  | [] => s
  | .byte b :: rest => encodeByte b { s with symIn := rest }
  | .endOfSource :: rest => encodeEnd { s with symIn := rest }

/-- A bit of the code of `sym` moves to the bit sink, is counted, and ENC_K moves on (R256, R258). -/
def shiftBit (sym : Sym) (s : State) : State :=
  giveBit ((s.codeAt sym).bit s.encK.toNat) { s with encK := s.encK + 1#9 }

/-- The ENC_SHIFT step (R256): holds until the bit sink accepts (R164, log entry 7). -/
def encShiftStep (s : State) : State :=
  if s.bitOutReady = false then s
  else if s.bitCount = Config.counterMax then raise .countOverflow 0 s
  else
    let t := shiftBit s.encSym s
    if t.encK = (s.codeAt s.encSym).len then { t with sub := Config.encWaitSym } else t

/-- The ENC_SHIFT_EOS step (R258): holds until the bit sink accepts (R164, log entry 7). -/
def encShiftEosStep (s : State) : State :=
  if s.bitOutReady = false then s
  else if s.bitCount = Config.counterMax then raise .countOverflow 0 s
  else
    let t := shiftBit Config.eos s
    if t.encK = (s.codeAt Config.eos).len then finish t else t

/-- The engine's step while ENCODE runs (R164): the step of its sub-state; a sub-state R64 does not list has none (U6). -/
def encodeStep (s : State) : State :=
  if s.sub = Config.encWaitSym then encWaitSymStep s
  else if s.sub = Config.encShift then encShiftStep s
  else if s.sub = Config.encShiftEos then encShiftEosStep s
  else s

end Sys2Proof.Machine
end

