-- ==== Sys2Proof/Machine/Flags.lean ====
section
/-! DEFINITION. The STATUS word, its write, and the interrupt output (spec/10_state.md R34 to R42, R75). -/

namespace Sys2Proof.Machine

/-- STATUS.BUSY (R35). -/
def State.busy (s : State) : Bool := decide (s.fsm ≠ Config.fsmIdle)

/-- STATUS as a read returns it (R34): bits 31:24, 19, 15:12 and 7:5 are reserved and read 0. -/
def State.statusWord (s : State) : Word :=
  0#8 ++ s.sub ++ 0#1 ++ s.fsm ++ 0#4 ++ s.err ++ 0#3 ++ BitVec.ofBool s.overrun ++ BitVec.ofBool s.codesValid ++
    BitVec.ofBool s.treeValid ++ BitVec.ofBool s.done ++ BitVec.ofBool s.busy

/-- A host write of STATUS (R34): bit 1 clears DONE, bit 4 clears OVERRUN, every other bit is ignored. -/
def writeStatus (v : Word) (s : State) : State :=
  { s with done := s.done && !v.getLsbD 1, overrun := s.overrun && !v.getLsbD 4 }

/-- CTRL as a read returns it (R42). -/
def State.ctrlWord (s : State) : Word := (BitVec.ofBool s.irqEn).setWidth 32

/-- A host write of CTRL (R42). -/
def writeCtrl (v : Word) (s : State) : State := { s with irqEn := v.getLsbD 0 }

/-- The interrupt output (R75, R343). -/
def State.irq (s : State) : Bool := s.irqEn && s.done

end Sys2Proof.Machine
end

