-- ==== Sys2Proof/Machine/Operands.lean ====
section
/-! DEFINITION. The register window (spec/10_state.md R31 to R49, spec/20_memory.md R100 to R105): the registers' offsets, what a read of each returns, and the selector writes. -/

namespace Sys2Proof.Machine

/-- The registers of R31. -/
inductive Reg where
  | id
  | cmd
  | status
  | ctrl
  | errInfo
  | freqSel
  | freqData
  | leafCount
  | nodeCount
  | root
  | nodeSel
  | nodeSym
  | nodeChild
  | nodeWeightLo
  | nodeWeightHi
  | codeSel
  | codeLen
  | codeWordSel
  | codeWord
  | bitCountLo
  | bitCountHi
  | symCountLo
  | symCountHi
deriving DecidableEq, Repr

/-- The byte offsets of R31. -/
def Reg.offset : Reg → BitVec 8
  | .id => 0x00
  | .cmd => 0x04
  | .status => 0x08
  | .ctrl => 0x0C
  | .errInfo => 0x10
  | .freqSel => 0x14
  | .freqData => 0x18
  | .leafCount => 0x1C
  | .nodeCount => 0x20
  | .root => 0x24
  | .nodeSel => 0x28
  | .nodeSym => 0x2C
  | .nodeChild => 0x30
  | .nodeWeightLo => 0x34
  | .nodeWeightHi => 0x38
  | .codeSel => 0x3C
  | .codeLen => 0x40
  | .codeWordSel => 0x44
  | .codeWord => 0x48
  | .bitCountLo => 0x4C
  | .bitCountHi => 0x50
  | .symCountLo => 0x54
  | .symCountHi => 0x58

/-- The registers in the order of R31. -/
def Reg.all : List Reg :=
  [.id, .cmd, .status, .ctrl, .errInfo, .freqSel, .freqData, .leafCount, .nodeCount, .root, .nodeSel, .nodeSym, .nodeChild,
   .nodeWeightLo, .nodeWeightHi, .codeSel, .codeLen, .codeWordSel, .codeWord, .bitCountLo, .bitCountHi, .symCountLo, .symCountHi]

/-- The register at an offset; none at a reserved one (R104). -/
def Reg.at? (off : BitVec 8) : Option Reg := Reg.all.find? fun r => decide (r.offset = off)

/-- R103: an access the spec defines, four bytes at a multiple of 4. -/
def accessOk (off : BitVec 8) (width : Nat) : Bool := decide (width = 4 ∧ off.toNat % 4 = 0)

/-- The slot the node window shows (R47). -/
def State.shownNode (s : State) : Node := s.nodeAt s.nodeSel

/-- The entry the code window shows (R48). -/
def State.shownCode (s : State) : CodeEntry := s.codeAt s.codeSel

/-- CODE_WORD (R48): bit `j` is cell `32*CODE_WORD_SEL + j` of the entry when that is below its length, else 0. -/
def codeSlice (e : CodeEntry) (sel : BitVec 3) : Word :=
  BitVec.ofNat 32 (pathValue ((List.range 32).map fun j =>
    decide (32 * sel.toNat + j < e.len.toNat) && e.bit (32 * sel.toNat + j)))

/-- What a read of a register returns when the spec fixes it (R32 to R49). -/
def readReg (s : State) : Reg → Word
  | .id => Config.idValue
  | .cmd => 0
  | .status => s.statusWord
  | .ctrl => s.ctrlWord
  | .errInfo => s.errInfo
  | .freqSel => s.freqSel.setWidth 32
  | .freqData => s.freqAt s.freqSel
  | .leafCount => if s.treeValid then s.leafCnt.setWidth 32 else 0
  | .nodeCount => if s.treeValid then 2 * s.leafCnt.setWidth 32 - 1 else 0
  | .root => if s.treeValid then s.rootIdx.setWidth 32 else Config.nil.setWidth 32
  | .nodeSel => s.nodeSel.setWidth 32
  | .nodeSym => s.shownNode.sym.setWidth 32
  | .nodeChild => (s.shownNode.one.setWidth 32 <<< 16) ||| s.shownNode.zero.setWidth 32
  | .nodeWeightLo => s.shownNode.weight.extractLsb' 0 32
  | .nodeWeightHi => (s.shownNode.weight.extractLsb' 32 9).setWidth 32
  | .codeSel => s.codeSel.setWidth 32
  | .codeLen => s.shownCode.len.setWidth 32
  | .codeWordSel => s.codeWordSel.setWidth 32
  | .codeWord => codeSlice s.shownCode s.codeWordSel
  | .bitCountLo => s.bitCount.extractLsb' 0 32
  | .bitCountHi => s.bitCount.extractLsb' 32 32
  | .symCountLo => s.symCount.extractLsb' 0 32
  | .symCountHi => s.symCount.extractLsb' 32 32

/-- The views of the tree bookkeeping (R46). -/
def Reg.isTreeView : Reg → Bool
  | .leafCount | .nodeCount | .root => true
  | _ => false

/-- The node window (R47). -/
def Reg.isNodeWindow : Reg → Bool
  | .nodeSym | .nodeChild | .nodeWeightLo | .nodeWeightHi => true
  | _ => false

/-- The code window (R48). -/
def Reg.isCodeWindow : Reg → Bool
  | .codeLen | .codeWord => true
  | _ => false

/-- The reads whose value is unspecified (R66, U1): the tree views, the node window and the code window while BUILD runs; the code
window while DERIVE runs. Every other read is exact; R46 and R386, which send to R66, are read by it (log entry 5). -/
def State.unspecified (s : State) (r : Reg) : Bool :=
  (decide (s.fsm = Config.fsmBuild) && (r.isTreeView || r.isNodeWindow || r.isCodeWindow)) ||
    (decide (s.fsm = Config.fsmDerive) && r.isCodeWindow)

/-- The value of `MemRead(off, 4)` and the state after it (R100, R104, R109): only a fresh draw of an unspecified value is
counted. -/
def memRead (off : BitVec 8) (s : State) : Word × State :=
  match Reg.at? off with
  | none => (0, s)
  | some r => if s.unspecified r then (Config.freeWord s.draws, { s with draws := s.draws + 1 }) else (readReg s r, s)

/-- A host write of FREQ_SEL (R44). -/
def writeFreqSel (v : Word) (s : State) : State := { s with freqSel := v.extractLsb' 0 9 }

/-- A host write of NODE_SEL (R47). -/
def writeNodeSel (v : Word) (s : State) : State := { s with nodeSel := v.extractLsb' 0 10 }

/-- A host write of CODE_SEL (R48). -/
def writeCodeSel (v : Word) (s : State) : State := { s with codeSel := v.extractLsb' 0 9 }

/-- A host write of CODE_WORD_SEL (R48). -/
def writeCodeWordSel (v : Word) (s : State) : State := { s with codeWordSel := v.extractLsb' 0 3 }

end Sys2Proof.Machine
end

