-- ==== Sys2Proof/Machine/Frequency.lean ====
section
/-! DEFINITION. Loading the frequency table: CLEAR_FREQ and the FREQ_DATA write (spec/41_frequency_table.md R180 to R183). -/

namespace Sys2Proof.Machine

/-- The accept step of CLEAR_FREQ (R181). -/
def acceptClearFreq (s : State) : State := finish (invalidate { s with freq := Vector.replicate 257 0 })

/-- CLEAR_FREQ (R181). -/
def execClearFreq (s : State) : Host.Outcome State Fault Refusal := .next (command acceptClearFreq s)

/-- The host write of FREQ_DATA (R182): refused while busy, ignored with no entry selected, and invalidating only when the entry
changes (R183). -/
def writeFreqData (v : Word) (s : State) : State :=
  if s.fsm ≠ Config.fsmIdle then dropWrite s
  else if 256 < s.freqSel.toNat then s
  else if s.freqAt s.freqSel = v then s
  else invalidate { s with freq := freqSet s.freq s.freqSel.toNat v }

end Sys2Proof.Machine
end

