-- ==== Sys2Proof/Machine/TreeBuilder.lean ====
section
/-! DEFINITION. BUILD_TREE (spec/42_tree_builder.md R200 to R212). -/

namespace Sys2Proof.Machine

/-- The accept step of BUILD_TREE (R201). It has no prerequisite. -/
def acceptBuildTree (s : State) : State := goto Config.fsmBuild 0 (discardTree s)

/-- BUILD_TREE (R200): the accept; the work is the engine's execution step `buildStep` (R204). -/
def execBuildTree (s : State) : Host.Outcome State Fault Refusal := .next (command acceptBuildTree s)

/-- What the builder works on inside the execution step: the arena, the queue and the next slot to fill. -/
structure BuildWork where
  node : Vector Node 513
  pq : List Slot
  next : Nat
deriving DecidableEq, Repr

/-- `s` is present in the map (R51). -/
def present (freq : Vector Count 257) (sym : Nat) : Bool := decide (freqGet freq sym ≠ 0)

/-- The symbols present, in ascending order (R52). -/
def presentSyms (freq : Vector Count 257) : List Nat := (List.range Config.numSymbols).filter (present freq)

/-- The leaf of a symbol (R205). -/
def leafNode (freq : Vector Count 257) (sym : Nat) : Node :=
  { sym := BitVec.ofNat 9 sym, weight := (freqGet freq sym).setWidth 41, zero := Config.nil, one := Config.nil }

/-- A node goes into the next slot, and that slot into the queue (R205, R208). -/
def BuildWork.push (w : BuildWork) (n : Node) : BuildWork :=
  { node := arenaSet w.node w.next n, pq := w.pq ++ [BitVec.ofNat 10 w.next], next := w.next + 1 }

/-- One pass of the loop of R205. -/
def leafStep (freq : Vector Count 257) (w : BuildWork) (sym : Nat) : BuildWork :=
  if present freq sym then w.push (leafNode freq sym) else w

/-- Leaf insertion (R205), over the arena as the accept left it. -/
def insertLeaves (freq : Vector Count 257) (node : Vector Node 513) : BuildWork :=
  (List.range Config.numSymbols).foldl (leafStep freq) { node := node, pq := [], next := 0 }

/-- `key(i) < key(j)` (R207): by weight, and among equal weights by slot index (R206). -/
def keyLt (node : Vector Node 513) (i j : Slot) : Bool :=
  decide ((arenaGet node i.toNat).weight < (arenaGet node j.toNat).weight ∨
    ((arenaGet node i.toNat).weight = (arenaGet node j.toNat).weight ∧ i < j))

/-- The slot of least key among `m` and a list. -/
def minSlot (node : Vector Node 513) (m : Slot) : List Slot → Slot
  | [] => m
  | i :: rest => minSlot node (if keyLt node i m then i else m) rest

/-- `popmin()` (R207): the slot of least key, and the queue without it; none when the queue is empty. -/
def popMin (node : Vector Node 513) : List Slot → Option (Slot × List Slot)
  | [] => none
  | i :: rest =>
    let m := minSlot node i rest
    some (m, (i :: rest).filter (fun j => decide (j ≠ m)))

/-- The internal node over the first-popped `a` and the second-popped `b` (R208); the sum is exact (R212). -/
def internalNode (node : Vector Node 513) (a b : Slot) : Node :=
  { sym := Config.nas, weight := (arenaGet node a.toNat).weight + (arenaGet node b.toNat).weight, zero := a, one := b }

/-- One pass of the merge loop (R208). With fewer than two slots in the queue there is none. -/
def mergeStep (w : BuildWork) : BuildWork :=
  match popMin w.node w.pq with
  | none => w
  | some (a, q) =>
    match popMin w.node q with
    | none => w
    | some (b, q') => BuildWork.push { w with pq := q' } (internalNode w.node a b)

/-- The merge loop (R208): while the queue holds more than one slot. Each pass takes one slot out of the queue (R209), so as many
passes as the queue is long are enough. -/
def mergeLoop : Nat → BuildWork → BuildWork
  | 0, w => w
  | k + 1, w => if 1 < w.pq.length then mergeLoop k (mergeStep w) else w

/-- The completion of a successful build (R210): LEAF_CNT is the number of leaves, ROOT_IDX the one slot left in the queue. -/
def completeBuild (leaves : Nat) (w : BuildWork) (s : State) : State :=
  finish
    { s with
      node := w.node, pq := w.pq, rootIdx := w.pq.headD Config.nil, leafCnt := BitVec.ofNat 9 leaves, treeValid := true }

/-- The execution step of BUILD_TREE (R204): the checks of R203 in their order, then R205, R208 and R210. -/
def buildStep (s : State) : State :=
  if (presentSyms s.freq).length = 0 then raise .emptyMap 0 s
  else if s.freqAt Config.eos = 0 then raise .noEos (BitVec.ofNat 32 (presentSyms s.freq).length) s
  else
    let w := insertLeaves s.freq s.node
    completeBuild w.next (mergeLoop w.pq.length w) s

end Sys2Proof.Machine
end

