-- ==== Sys2Proof/Machine/Dispatch.lean ====
section
/-! DEFINITION. The CMD write of each command (spec/40_command_protocol.md R160, R163): one arm per constructor. -/

namespace Sys2Proof.Machine

def exec (i : Instr) (s : State) : Host.Outcome State Fault Refusal :=
  match i with
  | .nop => Sys2Proof.Machine.execNop s
  | .clearFreq => Sys2Proof.Machine.execClearFreq s
  | .buildTree => Sys2Proof.Machine.execBuildTree s
  | .deriveCodes => Sys2Proof.Machine.execDeriveCodes s
  | .encode => Sys2Proof.Machine.execEncode s
  | .decode => Sys2Proof.Machine.execDecode s
  | .release => Sys2Proof.Machine.execRelease s
  | .abort => Sys2Proof.Machine.execAbort s
  | .illegal w => Sys2Proof.Machine.execIllegal w s

end Sys2Proof.Machine
end

