-- ==== Sys2Proof/Machine/Agents.lean ====
section
/-! DEFINITION. The steps of the agents (spec/00_scope.md R5, R6): the engine, the host's accesses, the port partners, the reset input. -/

namespace Sys2Proof.Machine

/-- The engine's step (R164): none while idle, the execution step while BUILD or DERIVE runs, the step of the sub-state while
ENCODE or DECODE runs. A step that is not enabled changes nothing (R10 `hold`, R352). A value of `fsm`, or of `sub` for the current
`fsm`, that R64 does not list has none (U6): BUILD and DERIVE too have their step only with `sub` 0, the one value R64 lists for
them, where R164 and R231 name `fsm` alone (log entry 11). -/
def engineStep (s : State) : State :=
  if s.fsm = Config.fsmBuild ∧ s.sub = 0 then buildStep s
  else if s.fsm = Config.fsmDerive ∧ s.sub = 0 then deriveStep s
  else if s.fsm = Config.fsmEncode then encodeStep s
  else if s.fsm = Config.fsmDecode then decodeStep s
  else s

/-- The command bytes that the host's next access writes to CMD (R33, R118: there is no other fetch); none when it is another
access. -/
def fetchCommand (s : State) : Option (List Byte) :=
  match s.hostProg with
  | .write off bytes :: _ => if off = Reg.cmd.offset ∧ accessOk off bytes.length then some bytes else none
  | _ => none

/-- A host write of a register other than CMD (R163: the same while busy but for FREQ_DATA; R105: read-only registers ignore it).
-/
def writeReg (r : Reg) (v : Word) (s : State) : State :=
  match r with
  | .status => writeStatus v s
  | .ctrl => writeCtrl v s
  | .freqSel => writeFreqSel v s
  | .freqData => writeFreqData v s
  | .nodeSel => writeNodeSel v s
  | .codeSel => writeCodeSel v s
  | .codeWordSel => writeCodeWordSel v s
  | _ => s

/-- `MemWrite(off, 4, v)` at an offset other than CMD's (R100, R104). -/
def memWrite (off : BitVec 8) (v : Word) (s : State) : State :=
  match Reg.at? off with
  | none => s
  | some r => writeReg r v s

/-- The host receives the value of a read (R100). -/
def recordRead (p : Word × State) : State := { p.2 with hostReads := p.2.hostReads ++ [p.1] }

/-- A host read (R100); another width or alignment has no step (R103). -/
def hostRead (off : BitVec 8) (width : Nat) (s : State) : Host.Outcome State Fault Refusal :=
  if accessOk off width then .next (recordRead (memRead off s)) else .refused (.undefinedAccess off width)

/-- A host write (R100): of CMD, the command that its bytes decode to (R33, R132); another width or alignment has no step (R103).
-/
def hostWrite (off : BitVec 8) (bytes : List Byte) (s : State) : Host.Outcome State Fault Refusal :=
  if accessOk off bytes.length then
    if off = Reg.cmd.offset then
      match decode bytes with
      | .ok i => exec i s
      | .error _ => .refused (.undefinedAccess off bytes.length)
    else
      match wordOfBytes bytes with
      | some v => .next (memWrite off v s)
      | none => .refused (.undefinedAccess off bytes.length)
  else .refused (.undefinedAccess off bytes.length)

/-- One pass of `WAIT` (R138): a read of STATUS; the host goes on when bit 0 reads 0. -/
def hostWait (s : State) : State :=
  let t := recordRead (memRead Reg.status.offset s)
  if (memRead Reg.status.offset s).1.getLsbD 0 then { t with hostProg := .wait :: t.hostProg } else t

/-- The host's next access (R100, R114: in program order); a host with none does nothing. -/
def hostTurn (s : State) : Host.Outcome State Fault Refusal :=
  match s.hostProg with
  | [] => .next s
  | .read off width :: rest => hostRead off width { s with hostProg := rest }
  | .write off bytes :: rest => hostWrite off bytes { s with hostProg := rest }
  | .wait :: rest => .next (hostWait { s with hostProg := rest })

/-- A source's items after it acts (R72: in order; R387: a flush discards them). -/
def SourceAct.apply {α : Type} (act : SourceAct α) (items : List α) : List α :=
  match act with
  | .offer item => items ++ [item]
  | .flush => []

/-- The reset input changes (R370): asserted, the block takes its reset step; released, nothing else happens. -/
def rstTurn (level : Bool) (s : State) : State := if level then { resetStep s with rst := true } else { s with rst := false }

/-- The step of one agent. While `rst` is held no rule of the block takes a step (R370): the engine does nothing and the host's
access waits (log entry 8). -/
def agentStep (t : Turn) (s : State) : Host.Outcome State Fault Refusal :=
  match t with
  | .host => if s.rst then .next s else hostTurn s
  | .engine => .next (if s.rst then s else engineStep s)
  | .byteSource act => .next { s with symIn := act.apply s.symIn }
  | .bitSource act => .next { s with bitIn := act.apply s.bitIn }
  | .bitSink ready => .next { s with bitOutReady := ready }
  | .byteSink ready => .next { s with symOutReady := ready }
  | .rst level => .next (rstTurn level s)

/-- The next step: that of the agent whose turn it is (R5, R114). With no turn scheduled nothing changes (R352). -/
def nextStep (s : State) : Host.Outcome State Fault Refusal :=
  match s.turns with
  | [] => .next s
  | t :: rest => agentStep t { s with turns := rest }

/-- Bytes placed as the host's next access, a write of CMD, with the host's turn next and reset not held: what the very next step
takes to run them. -/
def placeCommand (bytes : List Byte) (s : State) : State :=
  { s with rst := false, turns := .host :: s.turns, hostProg := .write Reg.cmd.offset bytes :: s.hostProg }

end Sys2Proof.Machine
end

