-- ==== Sys2Proof/Machine/Step.lean ====
section
/-! DEFINITION. The step of the machine, and a command placed where the next step runs it. -/

namespace Sys2Proof.Machine

/-- One step of the agent whose turn it is (spec/00_scope.md R5). -/
def step (s : State) : Host.Outcome State Fault Refusal := nextStep s

/-- `s` with a word of the opcode table written to CMD by the very next step (R33: commands reach the block in no other way). -/
def State.withFetchWord (s : State) (nbits w : Nat) : State := placeCommand (tableBytes nbits w) s

end Sys2Proof.Machine
end

