-- ==== Sys2Proof/Safety.lean ====
section
/-! DEFINITION. The invariants of the machine, and runs of it, in the terms the statements use. -/

namespace Sys2Proof.Machine

/-! ## Legal engine states and flags -/

/-- The pairs of `fsm` and `sub` that R64 lists. -/
def State.legalEngine (s : State) : Bool :=
  if s.fsm = Config.fsmIdle ∨ s.fsm = Config.fsmBuild ∨ s.fsm = Config.fsmDerive then decide (s.sub = 0)
  else if s.fsm = Config.fsmEncode then
    decide (s.sub = Config.encWaitSym ∨ s.sub = Config.encShift ∨ s.sub = Config.encShiftEos)
  else if s.fsm = Config.fsmDecode then decide (s.sub = Config.decWaitBit ∨ s.sub = Config.decEmit)
  else false

/-- What holds of the control state in every reachable state: R64; the working state is empty outside its step (R61, R62);
CODES_VALID implies TREE_VALID (R38); a running command has what its accept asked for (R168); ERR holds 0 to 10 (R40). -/
structure ControlInv (s : State) : Prop where
  legal : s.legalEngine = true
  pqEmpty : s.pq = []
  stackEmpty : s.stack = []
  codesNeedTree : s.codesValid = true → s.treeValid = true
  buildHasNoTree : s.fsm = Config.fsmBuild → s.treeValid = false
  deriveHasTree : s.fsm = Config.fsmDerive → s.treeValid = true ∧ s.codesValid = false
  encodeHasCodes : s.fsm = Config.fsmEncode → s.codesValid = true
  decodeHasTree : s.fsm = Config.fsmDecode → s.treeValid = true
  errListed : s.err.toNat ≤ 10

/-! ## The tree -/

/-- Every slot holds a symbol, EOS or NAS (R54), and a leaf has no children (R55). -/
def SlotsLegal (node : Vector Node 513) : Prop :=
  ∀ i, i < 513 →
    ((arenaGet node i).sym.toNat ≤ 256 ∨ (arenaGet node i).sym = Config.nas) ∧
      ((arenaGet node i).isLeaf = true → (arenaGet node i).zero = Config.nil ∧ (arenaGet node i).one = Config.nil)

/-- The children of the internal slots n..2n−2, in slot order. -/
def childList (node : Vector Node 513) (n : Nat) : List Nat :=
  (List.range' n (n - 1)).flatMap fun k => [(arenaGet node k).zero.toNat, (arenaGet node k).one.toNat]

/-- The tree invariant (R57) of an arena with `n` leaves. `leafSyms` and `leaf` are its clause (a) and, with `eosPresent`, its
clause (e); `internal` is (b), over exact sums (R212); `unused` is (c); `root` and `childrenOnce` are (d): every slot but the
root is the child of exactly one internal slot. -/
structure TreeInv (freq : Vector Count 257) (node : Vector Node 513) (n : Nat) (root : Slot) : Prop where
  nonempty : 1 ≤ n
  leafSyms : (List.range n).map (fun i => (arenaGet node i).sym.toNat) = presentSyms freq
  leaf : ∀ i, i < n → arenaGet node i = leafNode freq (arenaGet node i).sym.toNat
  eosPresent : present freq 256 = true
  internal : ∀ k, n ≤ k → k < 2 * n - 1 →
    (arenaGet node k).sym = Config.nas ∧ (arenaGet node k).zero.toNat < k ∧ (arenaGet node k).one.toNat < k ∧
      (arenaGet node k).weight.toNat =
        (arenaGet node (arenaGet node k).zero.toNat).weight.toNat + (arenaGet node (arenaGet node k).one.toNat).weight.toNat
  unused : ∀ k, 2 * n - 1 ≤ k → k < 513 → arenaGet node k = Node.empty
  root : root.toNat = 2 * n - 2
  childrenOnce : (childList node n).Perm (List.range (2 * n - 2))

/-- The arena, queue and next slot that R205 and R208 make of a frequency table, from an EMPTY arena. -/
def buildOf (freq : Vector Count 257) : BuildWork :=
  let w := insertLeaves freq (Vector.replicate 513 Node.empty)
  mergeLoop w.pq.length w

/-- The slot reached from `i` along a bit string (R232: bit 0 the zero child, bit 1 the one child); none past a leaf. -/
def walk (node : Vector Node 513) : Slot → List Bool → Option Slot
  | i, [] => some i
  | i, x :: p => if (arenaGet node i.toNat).isLeaf then none else walk node ((arenaGet node i.toNat).child x) p

/-! ## The code table -/

/-- `p` is the path of the leaf of `sym` (R232), or the code "0" of a lone leaf (R234). -/
def IsCodeOf (node : Vector Node 513) (root : Slot) (p : List Bool) (sym : Nat) : Prop :=
  if (arenaGet node root.toNat).isLeaf = true then p = [false] ∧ (arenaGet node root.toNat).sym.toNat = sym
  else ∃ i, walk node root p = some i ∧ (arenaGet node i.toNat).isLeaf = true ∧ (arenaGet node i.toNat).sym.toNat = sym

/-- The code table of a tree (R59, R235): a present symbol has its path, 1 to 256 bits long (R238), every other none. -/
def CodesInv (freq : Vector Count 257) (node : Vector Node 513) (root : Slot) (code : Vector CodeEntry 257) : Prop :=
  ∀ sym, sym < 257 →
    (present freq sym = false → codeGet code sym = CodeEntry.empty) ∧
      (present freq sym = true →
        ∃ p, IsCodeOf node root p sym ∧ 1 ≤ p.length ∧ p.length ≤ 256 ∧ codeGet code sym = CodeEntry.ofPath p)

/-- An entry is a bit string of at most 256 bits whose cells past its end are 0 (R58). -/
def CodesLegal (code : Vector CodeEntry 257) : Prop :=
  ∀ sym, sym < 257 → ∃ p : List Bool, p.length ≤ 256 ∧ codeGet code sym = CodeEntry.ofPath p

/-! ## The whole invariant -/

/-- A running ENCODE holds a symbol with a code and a bit of it left to send (R254, R256, R258). -/
def EncoderInv (s : State) : Prop :=
  s.fsm = Config.fsmEncode →
    (s.sub = Config.encShift → s.encSym.toNat < 256 ∧ s.encK.toNat < (s.codeAt s.encSym).len.toNat) ∧
      (s.sub = Config.encShiftEos → s.encSym = Config.eos ∧ s.encK.toNat < (s.codeAt Config.eos).len.toNat)

/-- A running DECODE points at the root or at an internal slot of the tree (R287), and while it emits at the leaf of the byte it
sends (R288). -/
def DecoderInv (s : State) : Prop :=
  s.fsm = Config.fsmDecode →
    (s.sub = Config.decWaitBit →
      s.decCur = s.rootIdx ∨ (s.leafCnt.toNat ≤ s.decCur.toNat ∧ s.decCur.toNat < 2 * s.leafCnt.toNat - 1)) ∧
      (s.sub = Config.decEmit →
        s.decCur.toNat < s.leafCnt.toNat ∧ (s.nodeAt s.decCur).sym.toNat = s.decOut.toNat)

/-- What holds in every reachable state: the control state, the slots (R54, R55), the entries (R58), the tree while TREE_VALID
(R57), which is the tree of the current frequency table (R183, R213), the codes while CODES_VALID (R59), and the running command's own state. -/
structure MachineInv (s : State) : Prop where
  control : ControlInv s
  slots : SlotsLegal s.node
  entries : CodesLegal s.code
  tree : s.treeValid = true → TreeInv s.freq s.node s.leafCnt.toNat s.rootIdx
  built : s.treeValid = true →
    s.node = (buildOf s.freq).node ∧ s.leafCnt.toNat = (presentSyms s.freq).length ∧
      s.rootIdx = (buildOf s.freq).pq.headD Config.nil
  codes : s.codesValid = true → CodesInv s.freq s.node s.rootIdx s.code
  emptyWhileBuilding : s.fsm = Config.fsmBuild →
    s.node = Vector.replicate 513 Node.empty ∧ s.code = Vector.replicate 257 CodeEntry.empty ∧ s.leafCnt = 0 ∧
      s.rootIdx = Config.nil
  noCodesWhileDeriving : s.fsm = Config.fsmDerive → s.code = Vector.replicate 257 CodeEntry.empty
  encoder : EncoderInv s
  decoder : DecoderInv s

/-! ## Streams and runs -/

/-- The bits of a code entry, first bit first (R9). -/
def CodeEntry.bits (e : CodeEntry) : List Bool := (List.range e.len.toNat).map fun k => e.bit k

/-- `payload(S)` (R135): the codes of the bytes in order, then the EOS code. -/
def payload (code : Vector CodeEntry 257) (bytes : List Byte) : List Bool :=
  (bytes.flatMap fun b => (codeGet code b.toNat).bits) ++ (codeGet code 256).bits

/-- Bytes on SYM_IN followed by `End` (R390). -/
def byteStream (bytes : List Byte) : List SymItem := bytes.map SymItem.byte ++ [.endOfSource]

/-- The bits that ENCODE has to send for the items on SYM_IN, up to `End` and with the EOS code for it (R135, R257). -/
def owedFor (code : Vector CodeEntry 257) : List SymItem → List Bool
  | [] => []
  | .byte b :: rest => (codeGet code b.toNat).bits ++ owedFor code rest
  | .endOfSource :: _ => (codeGet code 256).bits

/-- The bits that a running ENCODE has still to send: the rest of the code it is sending, and, but for the EOS code, those for the
items on SYM_IN. None when ENCODE does not run. -/
def State.owedBits (s : State) : List Bool :=
  if s.fsm ≠ Config.fsmEncode then []
  else if s.sub = Config.encShift then ((codeGet s.code s.encSym.toNat).bits.drop s.encK.toNat) ++ owedFor s.code s.symIn
  else if s.sub = Config.encShiftEos then (codeGet s.code 256).bits.drop s.encK.toNat
  else owedFor s.code s.symIn

/-- The scheduler gives the engine the next `k` turns (R5: one of the orders of the agents' steps). -/
def engineTurns (k : Nat) : List Turn := List.replicate k .engine

/-- `k` steps of the machine from `s` lead to `t`. -/
def Reaches (k : Nat) (s t : State) : Prop := Sys2Proof.core.run k s = .next t

end Sys2Proof.Machine
end

