-- ==== Sys2Proof/Certificates/Slice0/Obligations.lean ====
section
/-! DEFINITION. The statements for the provers: what the numbered rules of spec/ say the commands and the machine do. -/

open Sys2Proof Sys2Proof.Machine

/-! ## Encoding and the step -/

/-- R130 to R132, R106: the four bytes of each command's word decode to the command, and the words 0x8 and 0x12 to ILLEGAL. -/
def Obligations.SampleWordsDecode : Prop :=
  Sys2Proof.decode [0x00, 0x00, 0x00, 0x00] = .ok .nop ∧
  Sys2Proof.decode [0x01, 0x00, 0x00, 0x00] = .ok .clearFreq ∧
  Sys2Proof.decode [0x02, 0x00, 0x00, 0x00] = .ok .buildTree ∧
  Sys2Proof.decode [0x03, 0x00, 0x00, 0x00] = .ok .deriveCodes ∧
  Sys2Proof.decode [0x04, 0x00, 0x00, 0x00] = .ok .encode ∧
  Sys2Proof.decode [0x05, 0x00, 0x00, 0x00] = .ok .decode ∧
  Sys2Proof.decode [0x06, 0x00, 0x00, 0x00] = .ok .release ∧
  Sys2Proof.decode [0x07, 0x00, 0x00, 0x00] = .ok .abort ∧
  Sys2Proof.decode [0x08, 0x00, 0x00, 0x00] = .ok (.illegal 0x00000008) ∧
  Sys2Proof.decode [0x12, 0x00, 0x00, 0x00] = .ok (.illegal 0x00000012)

/-- R131, R132: decoding the encoded bytes of any well-formed command gives it back, the word of an illegal one included. -/
def Obligations.DecodeOfEncodeIsTheCommand : Prop :=
  ∀ i : Instr, i.wf = true → Sys2Proof.decode (encodeBytes i) = .ok i

/-- R132: decode is total on every 32-bit word and reads no word two ways: what it answers is well-formed and encodes to that
word. R133: it answers ILLEGAL exactly for a word with a bit of 31:4 set or OP in 0x8..0xF. R130: nothing but four bytes is a
command. -/
def Obligations.EveryWordIsOneCommand : Prop :=
  (∀ w : Word, (decodeWord w).wf = true ∧ encode (decodeWord w) = w) ∧
  (∀ w : Word, decodeWord w = .illegal w ↔ (w.extractLsb' 4 28 ≠ 0 ∨ 8 ≤ (w.extractLsb' 0 4).toNat)) ∧
  (∀ bytes : List Byte, (∃ i, Sys2Proof.decode bytes = .ok i) ↔ bytes.length = 4)

/-- R115, R160, R33: when the host's next access is a write of CMD and its bytes decode to a command, the host's turn is exec of that
command, with the access and the turn taken off their lists. -/
def Obligations.StepRunsTheDecodedCommand : Prop :=
  ∀ (s : State) (ts : List Turn) (p : List HostOp) (bytes : List Byte) (i : Instr),
    s.rst = false → s.turns = .host :: ts → s.hostProg = .write 0x04 bytes :: p → Sys2Proof.decode bytes = .ok i →
      step s = exec i { s with turns := ts, hostProg := p }

/-- R164, R352: the engine's turn is the engine's step, and an idle engine has no step. That nothing changes with no turn scheduled is
the model's choice (log entry 1: the schedule is a list). -/
def Obligations.EngineTurnIsTheEngineStep : Prop :=
  (∀ (s : State) (ts : List Turn), s.rst = false → s.turns = .engine :: ts →
    step s = .next (engineStep { s with turns := ts })) ∧
  (∀ s : State, s.turns = [] → step s = .next s) ∧
  (∀ s : State, s.fsm = Config.fsmIdle → engineStep s = s)

/-! ## Reset -/

/-- R76: every piece of the block's state after reset, and what registers then read; ID reads its constant at all times. -/
def Obligations.ResetValues : Prop :=
  State.reset.statusWord = 0x00000000 ∧ State.reset.irqEn = false ∧ State.reset.errInfo = 0 ∧
  State.reset.done = false ∧ State.reset.treeValid = false ∧ State.reset.codesValid = false ∧ State.reset.overrun = false ∧
  State.reset.err = 0 ∧
  State.reset.freqSel = 0 ∧ State.reset.nodeSel = 0 ∧ State.reset.codeSel = 0 ∧ State.reset.codeWordSel = 0 ∧
  (∀ sym, sym < 257 → freqGet State.reset.freq sym = 0) ∧
  (∀ i, i < 513 → arenaGet State.reset.node i = { sym := 0x1FF, weight := 0, zero := 0x3FF, one := 0x3FF }) ∧
  State.reset.leafCnt = 0 ∧ State.reset.rootIdx = 0x3FF ∧
  (∀ sym, sym < 257 → codeGet State.reset.code sym = { len := 0, cells := 0 }) ∧
  State.reset.bitCount = 0 ∧ State.reset.symCount = 0 ∧ State.reset.fsm = 0 ∧ State.reset.sub = 0 ∧
  State.reset.pq = [] ∧ State.reset.stack = [] ∧ State.reset.encSym = 0 ∧ State.reset.encK = 0 ∧
  State.reset.decCur = 0x3FF ∧ State.reset.decOut = 0 ∧
  State.reset.symInReady = false ∧ State.reset.bitInReady = false ∧ State.reset.bitOutValid = false ∧
  State.reset.symOutValid = false ∧ State.reset.irq = false ∧
  (∀ s : State, readReg s .id = 0x48554631) ∧ readReg State.reset .root = 0x3FF ∧ readReg State.reset .nodeSym = 0x1FF ∧
  readReg State.reset .nodeChild = 0x03FF03FF

/-- R370, R371, R77: the reset step, from any state, puts every piece of the block's state at its reset value and touches nothing of
its surroundings; it completes no command (DONE, ERR, ERR_INFO read 0). While the input is held no rule of the block takes a step.
That the host's access then waits at the head of its list, and that a turn that holds the input high again takes the reset step
again, are the model's reading of R370 (log entry 8). -/
def Obligations.ResetOverridesEverything : Prop :=
  (∀ (s : State) (ts : List Turn), s.turns = .rst true :: ts →
    step s = .next { State.reset with
      rst := true, turns := ts, symIn := s.symIn, bitIn := s.bitIn, bitOut := s.bitOut, symOut := s.symOut,
      bitOutReady := s.bitOutReady, symOutReady := s.symOutReady, hostProg := s.hostProg, hostReads := s.hostReads,
      draws := s.draws }) ∧
  (∀ (s : State) (ts : List Turn), s.rst = true → (s.turns = .host :: ts ∨ s.turns = .engine :: ts) →
    step s = .next { s with turns := ts }) ∧
  (∀ (s : State) (ts : List Turn), s.turns = .rst false :: ts → step s = .next { s with turns := ts, rst := false })

/-! ## Completion and the command protocol -/

/-- R165, R340: `complete(e, info)` writes ERR, ERR_INFO and DONE, returns the engine to IDLE, empties the working state, and so
withdraws every offer; everything else stays as written. The codes are those of R330. -/
def Obligations.CompletionWritesTheReport : Prop :=
  (∀ (e : BitVec 4) (info : Word) (s : State),
    complete e info s =
      { s with err := e, errInfo := info, done := true, fsm := Config.fsmIdle, sub := 0, pq := [], stack := [] } ∧
    (complete e info s).busy = false ∧ (complete e info s).bitOutValid = false ∧ (complete e info s).symOutValid = false) ∧
  (∀ s : State, finish s = complete 0 0 s) ∧
  (∀ (e : ErrCode) (info : Word) (s : State), raise e info s = complete e.code info s) ∧
  [ErrCode.emptyMap, .noEos, .noTree, .noCodes, .noCode, .desync, .truncated, .illegalCmd, .countOverflow, .aborted].map
    ErrCode.code = [1, 2, 3, 4, 5, 6, 7, 8, 9, 10]

/-- R163, R39: a CMD write while the engine is busy, other than an ABORT while ENCODE or DECODE runs, sets OVERRUN and changes nothing
else, whatever the word. -/
def Obligations.BusyCommandsAreDropped : Prop :=
  ∀ (i : Instr) (s : State), s.fsm ≠ Config.fsmIdle →
    (i ≠ .abort ∨ (s.fsm ≠ Config.fsmEncode ∧ s.fsm ≠ Config.fsmDecode)) →
      exec i s = .next { s with overrun := true }

/-! ## The commands -/

/-- R310: NOP completes with no error; nothing else changes. -/
def Obligations.NopCompletes : Prop :=
  encode .nop = 0x00000000 ∧
  (∀ s : State, s.fsm = Config.fsmIdle →
    exec .nop s = .next { s with
      done := true, err := 0, errInfo := 0, fsm := Config.fsmIdle, sub := 0, pq := [], stack := [] }) ∧
  (∀ s : State, s.fsm ≠ Config.fsmIdle → exec .nop s = .next { s with overrun := true })

/-- R181: CLEAR_FREQ empties the frequency table and both validity flags; the arena, the code table, LEAF_CNT and ROOT_IDX stay, and
the tree views read 0, 0, 0x3FF. -/
def Obligations.ClearFreqEmptiesTheTable : Prop :=
  encode .clearFreq = 0x00000001 ∧
  (∀ s : State, s.fsm = Config.fsmIdle →
    ∃ t, exec .clearFreq s = .next t ∧
      t = { s with
        freq := Vector.replicate 257 0, treeValid := false, codesValid := false,
        done := true, err := 0, errInfo := 0, fsm := Config.fsmIdle, sub := 0, pq := [], stack := [] } ∧
      (∀ sym, freqGet t.freq sym = 0) ∧
      readReg t .leafCount = 0 ∧ readReg t .nodeCount = 0 ∧ readReg t .root = 0x3FF) ∧
  (∀ s : State, s.fsm ≠ Config.fsmIdle → exec .clearFreq s = .next { s with overrun := true })

/-- R201: the accept of BUILD_TREE. It has no prerequisite. -/
def Obligations.BuildTreeAccepts : Prop :=
  ∀ s : State, s.fsm = Config.fsmIdle →
    exec .buildTree s = .next { s with
      node := Vector.replicate 513 Node.empty, code := Vector.replicate 257 CodeEntry.empty, leafCnt := 0,
      rootIdx := Config.nil, treeValid := false, codesValid := false,
      done := false, err := 0, errInfo := 0, fsm := Config.fsmBuild, sub := 0 }

/-- R203, R336 (b): the execution step refuses an empty map before a map without EOS; after either the arena is all EMPTY and the tree
views read 0, 0, 0x3FF. -/
def Obligations.BuildTreeRefusesUnusableTables : Prop :=
  ∀ s t : State, s.fsm = Config.fsmIdle → exec .buildTree s = .next t →
    ((List.range 257).countP (fun sym => decide (freqGet s.freq sym ≠ 0)) = 0 →
      engineStep t = { t with
        err := 1, errInfo := 0, done := true, fsm := Config.fsmIdle, sub := 0, pq := [], stack := [] }) ∧
    ((List.range 257).countP (fun sym => decide (freqGet s.freq sym ≠ 0)) ≠ 0 → freqGet s.freq 256 = 0 →
      engineStep t = { t with
        err := 2, errInfo := BitVec.ofNat 32 ((List.range 257).countP (fun sym => decide (freqGet s.freq sym ≠ 0))),
        done := true, fsm := Config.fsmIdle, sub := 0, pq := [], stack := [] }) ∧
    (freqGet s.freq 256 = 0 →
      (∀ i, i < 513 → arenaGet (engineStep t).node i = Node.empty) ∧ (engineStep t).treeValid = false ∧
        readReg (engineStep t) .leafCount = 0 ∧ readReg (engineStep t) .nodeCount = 0 ∧
        readReg (engineStep t) .root = 0x3FF)

/-- R200, R203, R205, R210, R57: BUILD_TREE on a table with EOS runs, in its accept and one engine step, to a completion with no error
and a valid tree: a tree of R57 for that table, which is the one `buildOf` makes of it (the merge order of R206 to R208 is said of
`buildOf` by MergePassJoinsTheTwoLeast), read back as R210 says. Nothing but the arena, the bookkeeping, the emptied code table, the
flags and the report changes. -/
def Obligations.BuildTreeBuildsTheTree : Prop :=
  ∀ s : State, s.fsm = Config.fsmIdle → freqGet s.freq 256 ≠ 0 →
    ∃ t u n, exec .buildTree s = .next t ∧ engineStep t = u ∧
      u = { s with
        node := u.node, leafCnt := u.leafCnt, rootIdx := u.rootIdx, code := Vector.replicate 257 CodeEntry.empty,
        treeValid := true, codesValid := false, done := true, err := 0, errInfo := 0, fsm := Config.fsmIdle, sub := 0,
        pq := [], stack := [] } ∧
      n = (List.range 257).countP (fun sym => decide (freqGet s.freq sym ≠ 0)) ∧
      u.leafCnt.toNat = n ∧ TreeInv s.freq u.node n u.rootIdx ∧
      u.node = (buildOf s.freq).node ∧ (buildOf s.freq).pq = [u.rootIdx] ∧
      (readReg u .leafCount).toNat = n ∧ (readReg u .nodeCount).toNat = 2 * n - 1 ∧ (readReg u .root).toNat = 2 * n - 2

/-- R207: from a queue with a slot in it `popmin` answers the one slot of least key (weight first, then slot index) and the queue
without it. -/
def Obligations.PopMinTakesTheLeastKey : Prop :=
  (∀ (node : Vector Node 513) (q : List Slot), q ≠ [] → ∃ m q', popMin node q = some (m, q')) ∧
  (∀ (node : Vector Node 513) (q q' : List Slot) (m : Slot), popMin node q = some (m, q') →
    m ∈ q ∧
    (∀ j, j ∈ q' ↔ j ∈ q ∧ j ≠ m) ∧
    (∀ j, j ∈ q → j ≠ m →
      (arenaGet node m.toNat).weight.toNat < (arenaGet node j.toNat).weight.toNat ∨
        ((arenaGet node m.toNat).weight.toNat = (arenaGet node j.toNat).weight.toNat ∧ m.toNat < j.toNat)))

/-- R205, R209: leaf insertion fills slots 0..n−1 and the queue with them; the merge loop ends with the one slot 2n−2 in the queue, the
next free slot being 2n−1. -/
def Obligations.MergeLoopLeavesOneRoot : Prop :=
  ∀ (freq : Vector Count 257) (n : Nat), n = (presentSyms freq).length → 1 ≤ n →
    (insertLeaves freq (Vector.replicate 513 Node.empty)).pq = (List.range n).map (BitVec.ofNat 10) ∧
    (insertLeaves freq (Vector.replicate 513 Node.empty)).next = n ∧
    (buildOf freq).pq = [BitVec.ofNat 10 (2 * n - 2)] ∧ (buildOf freq).next = 2 * n - 1

/-- R213, R212: in a tree of R57 the root's weight is the exact sum of the table's counts. -/
def Obligations.RootWeightIsTheSumOfCounts : Prop :=
  ∀ (freq : Vector Count 257) (node : Vector Node 513) (n : Nat) (root : Slot), TreeInv freq node n root →
    (arenaGet node root.toNat).weight.toNat = ((List.range 257).map fun sym => (freqGet freq sym).toNat).sum

/-- R57 (d), R213: in a tree of R57 every slot 0..2n−2 is reached from the root by exactly one path. -/
def Obligations.EverySlotHasOnePath : Prop :=
  ∀ (freq : Vector Count 257) (node : Vector Node 513) (n : Nat) (root : Slot), TreeInv freq node n root →
    ∀ j : Slot, j.toNat < 2 * n - 1 →
      ∃ p : List Bool, walk node root p = some j ∧ ∀ q : List Bool, walk node root q = some j → q = p

/-- R231, R251, R252, R281, R282: what the accepts of DERIVE_CODES, ENCODE and DECODE do when their prerequisites hold. -/
def Obligations.StreamCommandsAccept : Prop :=
  (∀ s : State, s.fsm = Config.fsmIdle → s.treeValid = true →
    exec .deriveCodes s = .next { s with
      code := Vector.replicate 257 CodeEntry.empty, codesValid := false, done := false, err := 0, errInfo := 0,
      fsm := Config.fsmDerive, sub := 0 }) ∧
  (∀ s : State, s.fsm = Config.fsmIdle → s.codesValid = true →
    exec .encode s = .next { s with
      bitCount := 0, symCount := 0, done := false, err := 0, errInfo := 0, fsm := Config.fsmEncode,
      sub := Config.encWaitSym }) ∧
  (∀ s : State, s.fsm = Config.fsmIdle → s.treeValid = true →
    exec .decode s = .next { s with
      bitCount := 0, symCount := 0, decCur := s.rootIdx, done := false, err := 0, errInfo := 0, fsm := Config.fsmDecode,
      sub := Config.decWaitBit })

/-- R231, R251, R281, R162: a command whose prerequisite fails completes in its accept step with ERR_NO_TREE or ERR_NO_CODES and the
command word; nothing else changes. -/
def Obligations.MissingPrerequisitesAreReported : Prop :=
  (∀ s : State, s.fsm = Config.fsmIdle → s.treeValid = false →
    exec .deriveCodes s = .next { s with
      done := true, err := 3, errInfo := 0x00000003, fsm := Config.fsmIdle, sub := 0, pq := [], stack := [] }) ∧
  (∀ s : State, s.fsm = Config.fsmIdle → s.codesValid = false →
    exec .encode s = .next { s with
      done := true, err := 4, errInfo := 0x00000004, fsm := Config.fsmIdle, sub := 0, pq := [], stack := [] }) ∧
  (∀ s : State, s.fsm = Config.fsmIdle → s.treeValid = false →
    exec .decode s = .next { s with
      done := true, err := 3, errInfo := 0x00000005, fsm := Config.fsmIdle, sub := 0, pq := [], stack := [] })

/-- R230 to R236, R59: DERIVE_CODES on a valid tree runs, in its accept and one engine step, to a completion with no error and valid
codes: every present symbol has its leaf's path (or "0" for a lone leaf), every other symbol none. Nothing but the code table, the
flag and the report changes. -/
def Obligations.DeriveCodesDerivesEveryCode : Prop :=
  ∀ s : State, MachineInv s → s.fsm = Config.fsmIdle → s.treeValid = true →
    ∃ t u, exec .deriveCodes s = .next t ∧ engineStep t = u ∧
      u = { s with
        code := u.code, codesValid := true, done := true, err := 0, errInfo := 0, fsm := Config.fsmIdle, sub := 0,
        pq := [], stack := [] } ∧
      CodesInv s.freq s.node s.rootIdx u.code

/-- R237: while CODES_VALID a symbol present has a code of length 1 or more and any other has none; no code is a prefix of another;
and the Kraft sum, scaled by 2^256, is 2^256, or half of it for a lone leaf. -/
def Obligations.CodesArePrefixFreeAndComplete : Prop :=
  ∀ s : State, MachineInv s → s.codesValid = true →
    (∀ a, a < 257 → (1 ≤ (codeGet s.code a).len.toNat ↔ present s.freq a = true)) ∧
    (∀ a b, a < 257 → b < 257 → a ≠ b → present s.freq a = true → present s.freq b = true →
      ¬ ∃ r, (codeGet s.code b).bits = (codeGet s.code a).bits ++ r) ∧
    (((presentSyms s.freq).map fun sym => 2 ^ (256 - (codeGet s.code sym).len.toNat)).sum =
      if s.leafCnt.toNat = 1 then 2 ^ 255 else 2 ^ 256)

/-- R311: RELEASE discards the tree and the code table; the frequency table and the counters stay. -/
def Obligations.ReleaseDiscardsTheTree : Prop :=
  encode .release = 0x00000006 ∧
  (∀ s : State, s.fsm = Config.fsmIdle →
    ∃ t, exec .release s = .next t ∧
      t = { s with
        node := Vector.replicate 513 Node.empty, code := Vector.replicate 257 CodeEntry.empty, leafCnt := 0,
        rootIdx := Config.nil, treeValid := false, codesValid := false,
        done := true, err := 0, errInfo := 0, fsm := Config.fsmIdle, sub := 0, pq := [], stack := [] } ∧
      (∀ u, exec .deriveCodes t = .next u → u.err = 3) ∧ (∀ u, exec .decode t = .next u → u.err = 3) ∧
      (∀ u, exec .encode t = .next u → u.err = 4)) ∧
  (∀ s : State, s.fsm ≠ Config.fsmIdle → exec .release s = .next { s with overrun := true })

/-- R313: an ABORT while ENCODE or DECODE runs completes the running command with ERR_ABORTED and `fsm << 4 | sub`; the validity
flags, the counters and what was transferred stay. -/
def Obligations.AbortEndsARunningStream : Prop :=
  encode .abort = 0x00000007 ∧
  (∀ s : State, s.fsm = Config.fsmEncode ∨ s.fsm = Config.fsmDecode →
    exec .abort s = .next { s with
      done := true, err := 10, errInfo := (s.fsm.setWidth 32 <<< 4) ||| s.sub.setWidth 32, fsm := Config.fsmIdle, sub := 0,
      pq := [], stack := [] })

/-- R314: an ABORT while idle is a plain completion; while BUILD or DERIVE runs it is dropped with OVERRUN. -/
def Obligations.AbortWhileIdleOrBuilding : Prop :=
  encode .abort = 0x00000007 ∧
  (∀ s : State, s.fsm = Config.fsmIdle →
    exec .abort s = .next { s with
      done := true, err := 0, errInfo := 0, fsm := Config.fsmIdle, sub := 0, pq := [], stack := [] }) ∧
  (∀ s : State, s.fsm = Config.fsmBuild ∨ s.fsm = Config.fsmDerive → exec .abort s = .next { s with overrun := true })

/-- R312: every word with a bit of 31:4 set or OP in 0x8..0xF is illegal; it completes with ERR_ILLEGAL_CMD and the word; while
busy it is dropped like any other. -/
def Obligations.IllegalWordsAreReported : Prop :=
  (∀ w : Word, w.extractLsb' 4 28 ≠ 0 ∨ 8 ≤ (w.extractLsb' 0 4).toNat →
    decodeWord w = .illegal w ∧ encode (.illegal w) = w) ∧
  (∀ (w : Word) (s : State), s.fsm = Config.fsmIdle →
    exec (.illegal w) s = .next { s with
      done := true, err := 8, errInfo := w, fsm := Config.fsmIdle, sub := 0, pq := [], stack := [] }) ∧
  (∀ (w : Word) (s : State), s.fsm ≠ Config.fsmIdle → exec (.illegal w) s = .next { s with overrun := true })

/-! ## The encoder -/

/-- R254, R255, R336 (c): the ENC_WAIT_SYM step. It holds while nothing is offered; a byte without a code, then a full SYM_COUNT, end
the command; any other byte is counted and its code is next; `End` selects the EOS code. The item is consumed in every case. -/
def Obligations.EncoderTakesAnItem : Prop :=
  ∀ s : State, s.fsm = Config.fsmEncode → s.sub = Config.encWaitSym →
    (s.symIn = [] → engineStep s = s) ∧
    (∀ b rest, s.symIn = .byte b :: rest → (codeGet s.code b.toNat).len = 0 →
      engineStep s = { s with
        symIn := rest, err := 5, errInfo := b.setWidth 32, done := true, fsm := Config.fsmIdle, sub := 0, pq := [],
        stack := [] }) ∧
    (∀ b rest, s.symIn = .byte b :: rest → (codeGet s.code b.toNat).len ≠ 0 → s.symCount.toNat = 2 ^ 64 - 1 →
      engineStep s = { s with
        symIn := rest, err := 9, errInfo := 1, done := true, fsm := Config.fsmIdle, sub := 0, pq := [], stack := [] }) ∧
    (∀ b rest, s.symIn = .byte b :: rest → (codeGet s.code b.toNat).len ≠ 0 → s.symCount.toNat ≠ 2 ^ 64 - 1 →
      engineStep s = { s with
        symIn := rest, symCount := s.symCount + 1, encSym := b.setWidth 9, encK := 0, sub := Config.encShift }) ∧
    (∀ rest, s.symIn = .endOfSource :: rest →
      engineStep s = { s with symIn := rest, encSym := 256, encK := 0, sub := Config.encShiftEos })

/-- R256: the ENC_SHIFT step. It holds until the bit sink accepts; a full BIT_COUNT ends the command with no bit sent; else bit ENC_K
of the code is sent and counted, and after the last bit the next item is awaited. That a full counter is reported only when the
sink accepts is the model's reading of R164 (log entry 7). -/
def Obligations.EncoderShiftsABit : Prop :=
  ∀ s : State, s.fsm = Config.fsmEncode → s.sub = Config.encShift →
    (s.bitOutReady = false → engineStep s = s) ∧
    (s.bitOutReady = true → s.bitCount.toNat = 2 ^ 64 - 1 →
      engineStep s = { s with
        err := 9, errInfo := 0, done := true, fsm := Config.fsmIdle, sub := 0, pq := [], stack := [] }) ∧
    (s.bitOutReady = true → s.bitCount.toNat ≠ 2 ^ 64 - 1 →
      engineStep s = { s with
        bitOut := s.bitOut ++ [(codeGet s.code s.encSym.toNat).cells.getLsbD s.encK.toNat],
        bitCount := s.bitCount + 1, encK := s.encK + 1,
        sub := if s.encK + 1 = (codeGet s.code s.encSym.toNat).len then Config.encWaitSym else s.sub })

/-- R258: the ENC_SHIFT_EOS step, as R256 for the EOS code, whose last bit completes the command with no error (log entry 7 as there).
-/
def Obligations.EncoderShiftsTheEosCode : Prop :=
  ∀ s : State, s.fsm = Config.fsmEncode → s.sub = Config.encShiftEos →
    (s.bitOutReady = false → engineStep s = s) ∧
    (s.bitOutReady = true → s.bitCount.toNat = 2 ^ 64 - 1 →
      engineStep s = { s with
        err := 9, errInfo := 0, done := true, fsm := Config.fsmIdle, sub := 0, pq := [], stack := [] }) ∧
    (s.bitOutReady = true → s.bitCount.toNat ≠ 2 ^ 64 - 1 → s.encK + 1 ≠ (codeGet s.code 256).len →
      engineStep s = { s with
        bitOut := s.bitOut ++ [(codeGet s.code 256).cells.getLsbD s.encK.toNat], bitCount := s.bitCount + 1,
        encK := s.encK + 1 }) ∧
    (s.bitOutReady = true → s.bitCount.toNat ≠ 2 ^ 64 - 1 → s.encK + 1 = (codeGet s.code 256).len →
      engineStep s = { s with
        bitOut := s.bitOut ++ [(codeGet s.code 256).cells.getLsbD s.encK.toNat], bitCount := s.bitCount + 1,
        encK := s.encK + 1, err := 0, errInfo := 0, done := true, fsm := Config.fsmIdle, sub := 0, pq := [], stack := [] })

/-! ## The decoder -/

/-- R284 to R291, R336 (d): the DEC_WAIT_BIT step. It holds while nothing is offered; `Eof` is a truncated stream; a full BIT_COUNT ends
the command before the move; else the bit is counted and moves the pointer: from an internal node to its child, from a leaf root by
bit 0 to itself. With no node to move to the command ends with ERR_DESYNC; the EOS leaf completes it; another leaf waits to be
sent; an internal node is the new pointer. -/
def Obligations.DecoderTakesAnItem : Prop :=
  ∀ s : State, s.fsm = Config.fsmDecode → s.sub = Config.decWaitBit →
    (s.bitIn = [] → engineStep s = s) ∧
    (∀ rest, s.bitIn = .eof :: rest →
      engineStep s = { s with
        bitIn := rest, err := 7, errInfo := s.decCur.setWidth 32, done := true, fsm := Config.fsmIdle, sub := 0, pq := [],
        stack := [] }) ∧
    (∀ x rest, s.bitIn = .bit x :: rest → s.bitCount.toNat = 2 ^ 64 - 1 →
      engineStep s = { s with
        bitIn := rest, err := 9, errInfo := 0, done := true, fsm := Config.fsmIdle, sub := 0, pq := [], stack := [] }) ∧
    (∀ x rest, s.bitIn = .bit x :: rest → s.bitCount.toNat ≠ 2 ^ 64 - 1 →
      ((arenaGet s.node s.decCur.toNat).sym ≠ 0x1FF ∧ x = true) ∨
        ((arenaGet s.node s.decCur.toNat).sym = 0x1FF ∧
          (if x then (arenaGet s.node s.decCur.toNat).one else (arenaGet s.node s.decCur.toNat).zero) = 0x3FF) →
      engineStep s = { s with
        bitIn := rest, bitCount := s.bitCount + 1, err := 6,
        errInfo := s.decCur.setWidth 32 ||| ((if x then 1 else 0 : Word) <<< 16), done := true, fsm := Config.fsmIdle,
        sub := 0, pq := [], stack := [] }) ∧
    (∀ x rest nxt, s.bitIn = .bit x :: rest → s.bitCount.toNat ≠ 2 ^ 64 - 1 →
      ((arenaGet s.node s.decCur.toNat).sym ≠ 0x1FF ∧ x = false ∧ nxt = s.decCur) ∨
        ((arenaGet s.node s.decCur.toNat).sym = 0x1FF ∧ nxt ≠ 0x3FF ∧
          nxt = if x then (arenaGet s.node s.decCur.toNat).one else (arenaGet s.node s.decCur.toNat).zero) →
      ((arenaGet s.node nxt.toNat).sym = 256 →
        engineStep s = { s with
          bitIn := rest, bitCount := s.bitCount + 1, decCur := nxt, err := 0, errInfo := 0, done := true,
          fsm := Config.fsmIdle, sub := 0, pq := [], stack := [] }) ∧
      ((arenaGet s.node nxt.toNat).sym ≠ 0x1FF → (arenaGet s.node nxt.toNat).sym ≠ 256 →
        engineStep s = { s with
          bitIn := rest, bitCount := s.bitCount + 1, decCur := nxt,
          decOut := (arenaGet s.node nxt.toNat).sym.setWidth 8, sub := Config.decEmit }) ∧
      ((arenaGet s.node nxt.toNat).sym = 0x1FF →
        engineStep s = { s with bitIn := rest, bitCount := s.bitCount + 1, decCur := nxt }))

/-- R290: the DEC_EMIT step. It holds until the byte sink accepts; a full SYM_COUNT ends the command with no byte sent (log entry 7); else
DEC_OUT is sent and counted and the pointer returns to the root. -/
def Obligations.DecoderEmitsAByte : Prop :=
  ∀ s : State, s.fsm = Config.fsmDecode → s.sub = Config.decEmit →
    (s.symOutReady = false → engineStep s = s) ∧
    (s.symOutReady = true → s.symCount.toNat = 2 ^ 64 - 1 →
      engineStep s = { s with
        err := 9, errInfo := 1, done := true, fsm := Config.fsmIdle, sub := 0, pq := [], stack := [] }) ∧
    (s.symOutReady = true → s.symCount.toNat ≠ 2 ^ 64 - 1 →
      engineStep s = { s with
        symOut := s.symOut ++ [s.decOut], symCount := s.symCount + 1, decCur := s.rootIdx, sub := Config.decWaitBit })

/-! ## Rules of the whole machine -/

/-- R72, R73, R253, R283, R115: an engine step moves an item on a port only in the port's state and with its partner's consent, one
item, from the head of the stream or to its end. In the same step it counts a bit sent (BIT_COUNT), a byte sent (SYM_COUNT), a
`Byte` taken for encoding, which is one with a code and a SYM_COUNT that is not full, and a `Bit` taken with a BIT_COUNT that is not
full; it counts no other item taken, `End` and `Eof` among them. Everything else of the surroundings stays. -/
def Obligations.PortsTransferOneItemInOrder : Prop :=
  ∀ s : State,
    ((engineStep s).symIn = s.symIn ∨
      (s.symInReady = true ∧ ∃ item, s.symIn = item :: (engineStep s).symIn ∧
        (engineStep s).symCount.toNat = s.symCount.toNat +
          match item with
          | .byte b => if (codeGet s.code b.toNat).len ≠ 0 ∧ s.symCount.toNat ≠ 2 ^ 64 - 1 then 1 else 0
          | .endOfSource => 0)) ∧
    ((engineStep s).bitIn = s.bitIn ∨
      (s.bitInReady = true ∧ ∃ item, s.bitIn = item :: (engineStep s).bitIn ∧
        (engineStep s).bitCount.toNat = s.bitCount.toNat +
          match item with
          | .bit _ => if s.bitCount.toNat ≠ 2 ^ 64 - 1 then 1 else 0
          | .eof => 0)) ∧
    ((engineStep s).bitOut = s.bitOut ∨
      (s.bitOutValid = true ∧ s.bitOutReady = true ∧ (engineStep s).bitOut = s.bitOut ++ [s.bitOutData] ∧
        (engineStep s).bitCount.toNat = s.bitCount.toNat + 1)) ∧
    ((engineStep s).symOut = s.symOut ∨
      (s.symOutValid = true ∧ s.symOutReady = true ∧ (engineStep s).symOut = s.symOut ++ [s.symOutData] ∧
        (engineStep s).symCount.toNat = s.symCount.toNat + 1)) ∧
    (engineStep s).bitOutReady = s.bitOutReady ∧ (engineStep s).symOutReady = s.symOutReady ∧
    (engineStep s).hostProg = s.hostProg ∧ (engineStep s).hostReads = s.hostReads ∧ (engineStep s).turns = s.turns ∧
    (engineStep s).rst = s.rst ∧ (engineStep s).draws = s.draws

/-- R338, R253, R283: no engine step wraps a counter: each stays or grows by exactly 1. -/
def Obligations.CountersNeverWrap : Prop :=
  ∀ s : State,
    ((engineStep s).bitCount.toNat = s.bitCount.toNat ∨ (engineStep s).bitCount.toNat = s.bitCount.toNat + 1) ∧
    ((engineStep s).symCount.toNat = s.symCount.toNat ∨ (engineStep s).symCount.toNat = s.symCount.toNat + 1)

/-- R260 and R280: the steps of ENCODE and DECODE leave the frequency table, the arena, the bookkeeping, the code table, the validity
flags, OVERRUN, CTRL and the selectors as they are; ENCODE leaves the decoder's state and ports alone, DECODE the encoder's. -/
def Obligations.StreamStepsLeaveTheTables : Prop :=
  ∀ s : State, s.fsm = Config.fsmEncode ∨ s.fsm = Config.fsmDecode →
    (engineStep s).freq = s.freq ∧ (engineStep s).node = s.node ∧ (engineStep s).leafCnt = s.leafCnt ∧
    (engineStep s).rootIdx = s.rootIdx ∧ (engineStep s).code = s.code ∧ (engineStep s).treeValid = s.treeValid ∧
    (engineStep s).codesValid = s.codesValid ∧ (engineStep s).overrun = s.overrun ∧ (engineStep s).irqEn = s.irqEn ∧
    (engineStep s).freqSel = s.freqSel ∧ (engineStep s).nodeSel = s.nodeSel ∧ (engineStep s).codeSel = s.codeSel ∧
    (engineStep s).codeWordSel = s.codeWordSel ∧
    (s.fsm = Config.fsmEncode → (engineStep s).bitIn = s.bitIn ∧ (engineStep s).symOut = s.symOut ∧
      (engineStep s).decCur = s.decCur ∧ (engineStep s).decOut = s.decOut) ∧
    (s.fsm = Config.fsmDecode → (engineStep s).symIn = s.symIn ∧ (engineStep s).bitOut = s.bitOut ∧
      (engineStep s).encSym = s.encSym ∧ (engineStep s).encK = s.encK)

/-- R50, R53, R58: who writes the tables. A step that changes the frequency table is a reset or a host access with the engine idle; one
that changes the arena is a reset, the accept of BUILD_TREE or RELEASE, or the engine's step while BUILD runs; one that changes the
code table is one of those, the accept of DERIVE_CODES, or the engine's step while DERIVE runs. -/
def Obligations.OnlyTheNamedEventsWriteTables : Prop :=
  ∀ s t : State, step s = .next t →
    (t.freq ≠ s.freq →
      (∃ ts, s.turns = .rst true :: ts) ∨ (s.rst = false ∧ s.fsm = Config.fsmIdle ∧ ∃ ts, s.turns = .host :: ts)) ∧
    (t.node ≠ s.node →
      (∃ ts, s.turns = .rst true :: ts) ∨
      (s.rst = false ∧ s.fsm = Config.fsmBuild ∧ ∃ ts, s.turns = .engine :: ts) ∨
      (s.rst = false ∧ s.fsm = Config.fsmIdle ∧ ∃ ts bytes p i, s.turns = .host :: ts ∧ s.hostProg = .write 0x04 bytes :: p ∧
        Sys2Proof.decode bytes = .ok i ∧ (i = .buildTree ∨ i = .release))) ∧
    (t.code ≠ s.code →
      (∃ ts, s.turns = .rst true :: ts) ∨
      (s.rst = false ∧ s.fsm = Config.fsmDerive ∧ ∃ ts, s.turns = .engine :: ts) ∨
      (s.rst = false ∧ s.fsm = Config.fsmIdle ∧ ∃ ts bytes p i, s.turns = .host :: ts ∧ s.hostProg = .write 0x04 bytes :: p ∧
        Sys2Proof.decode bytes = .ok i ∧ (i = .buildTree ∨ i = .release ∨ i = .deriveCodes)))

/-- R36 to R39: TREE_VALID rises only in the engine's step while BUILD runs, CODES_VALID only in the engine's step while DERIVE runs, each
with a completion with no error. OVERRUN rises only while the engine is busy, in a host write of CMD that is no honoured ABORT or in
a host write of FREQ_DATA. DONE rises only in a completion: in a step of the busy engine or in a host write of CMD, and the engine is
idle after it. -/
def Obligations.FlagsRiseOnlyAtTheirEvents : Prop :=
  ∀ s t : State, step s = .next t →
    (s.treeValid = false → t.treeValid = true →
      s.rst = false ∧ s.fsm = Config.fsmBuild ∧ (∃ ts, s.turns = .engine :: ts) ∧ t.fsm = Config.fsmIdle ∧ t.done = true ∧
        t.err = 0) ∧
    (s.codesValid = false → t.codesValid = true →
      s.rst = false ∧ s.fsm = Config.fsmDerive ∧ (∃ ts, s.turns = .engine :: ts) ∧ t.fsm = Config.fsmIdle ∧ t.done = true ∧
        t.err = 0) ∧
    (s.overrun = false → t.overrun = true →
      s.rst = false ∧ s.fsm ≠ Config.fsmIdle ∧ ∃ ts bytes p, s.turns = .host :: ts ∧
        ((s.hostProg = .write 0x04 bytes :: p ∧ ∃ i, Sys2Proof.decode bytes = .ok i ∧
            (i ≠ .abort ∨ (s.fsm ≠ Config.fsmEncode ∧ s.fsm ≠ Config.fsmDecode))) ∨
          (s.hostProg = .write 0x18 bytes :: p ∧ bytes.length = 4))) ∧
    (s.done = false → t.done = true →
      s.rst = false ∧ t.fsm = Config.fsmIdle ∧ t.sub = 0 ∧
        ((s.fsm ≠ Config.fsmIdle ∧ ∃ ts, s.turns = .engine :: ts) ∨
          ∃ ts bytes p i, s.turns = .host :: ts ∧ s.hostProg = .write 0x04 bytes :: p ∧ Sys2Proof.decode bytes = .ok i))

/-! ## The register window -/

/-- R34, R35, R41: STATUS reads BUSY in bit 0 (1 exactly when `fsm` is not IDLE), DONE, TREE_VALID, CODES_VALID, OVERRUN in bits 1 to 4,
ERR in 11:8, FSM in 18:16, SUB in 23:20, and 0 in every reserved bit; it is 0 after reset. A write, busy or not, clears DONE by
bit 1 and OVERRUN by bit 4, and does nothing else. -/
def Obligations.StatusReadsAndClearsItsFields : Prop :=
  (∀ s : State,
    (readReg s .status).getLsbD 0 = decide (s.fsm ≠ Config.fsmIdle) ∧
    (readReg s .status).getLsbD 1 = s.done ∧
    (readReg s .status).getLsbD 2 = s.treeValid ∧ (readReg s .status).getLsbD 3 = s.codesValid ∧
    (readReg s .status).getLsbD 4 = s.overrun ∧ (readReg s .status).extractLsb' 5 3 = 0 ∧
    (readReg s .status).extractLsb' 8 4 = s.err ∧ (readReg s .status).extractLsb' 12 4 = 0 ∧
    (readReg s .status).extractLsb' 16 3 = s.fsm ∧ (readReg s .status).getLsbD 19 = false ∧
    (readReg s .status).extractLsb' 20 4 = s.sub ∧ (readReg s .status).extractLsb' 24 8 = 0) ∧
  readReg State.reset .status = 0 ∧
  (∀ (s : State) (v : Word), memWrite 0x08 v s = { s with
    done := if v.getLsbD 1 then false else s.done, overrun := if v.getLsbD 4 then false else s.overrun })

/-- R42, R44, R47, R48, R163: the writes of CTRL and the selectors, busy or not, and nothing else changes. CTRL keeps bit 0; the
selectors keep their low 9, 10, 9 and 3 bits; all read back what they keep. -/
def Obligations.ControlWritesTakeEffect : Prop :=
  ∀ (s : State) (v : Word),
    memWrite 0x0C v s = { s with irqEn := v.getLsbD 0 } ∧
    memWrite 0x14 v s = { s with freqSel := v.extractLsb' 0 9 } ∧
    memWrite 0x28 v s = { s with nodeSel := v.extractLsb' 0 10 } ∧
    memWrite 0x3C v s = { s with codeSel := v.extractLsb' 0 9 } ∧
    memWrite 0x44 v s = { s with codeWordSel := v.extractLsb' 0 3 } ∧
    readReg (memWrite 0x0C v s) .ctrl = v &&& 0x00000001 ∧
    readReg (memWrite 0x14 v s) .freqSel = v &&& 0x000001FF ∧
    readReg (memWrite 0x28 v s) .nodeSel = v &&& 0x000003FF ∧
    readReg (memWrite 0x3C v s) .codeSel = v &&& 0x000001FF ∧
    readReg (memWrite 0x44 v s) .codeWordSel = v &&& 0x00000007

/-- R182, R183, R45: the FREQ_DATA write. While busy it only sets OVERRUN; with no entry selected, or with the value already held, it
changes nothing; else it writes the selected entry, and no other, and clears both validity flags; the entry then reads back. -/
def Obligations.FreqDataWriteSetsTheEntry : Prop :=
  ∀ (s : State) (v : Word),
    (s.fsm ≠ Config.fsmIdle → memWrite 0x18 v s = { s with overrun := true }) ∧
    (s.fsm = Config.fsmIdle → 256 < s.freqSel.toNat → memWrite 0x18 v s = s) ∧
    (s.fsm = Config.fsmIdle → s.freqSel.toNat ≤ 256 → freqGet s.freq s.freqSel.toNat = v → memWrite 0x18 v s = s) ∧
    (s.fsm = Config.fsmIdle → s.freqSel.toNat ≤ 256 → freqGet s.freq s.freqSel.toNat ≠ v →
      memWrite 0x18 v s = { s with freq := (memWrite 0x18 v s).freq, treeValid := false, codesValid := false } ∧
      ∀ sym, sym < 257 →
        freqGet (memWrite 0x18 v s).freq sym = if sym = s.freqSel.toNat then v else freqGet s.freq sym) ∧
    (s.fsm = Config.fsmIdle → s.freqSel.toNat ≤ 256 → readReg (memWrite 0x18 v s) .freqData = v) ∧
    readReg s .freqData = if s.freqSel.toNat ≤ 256 then freqGet s.freq s.freqSel.toNat else 0

/-- R33, R43, R46, R47, R48, R49, R106: the write-only and read-only registers. CMD reads 0; ERR_INFO; the tree views under TREE_VALID;
the node window over the selected slot, or the EMPTY node; CODE_LEN and, bit by bit, CODE_WORD over the selected entry, or an empty
one; the counters in two halves. -/
def Obligations.ViewsReadTheTables : Prop :=
  ∀ s : State,
    readReg s .cmd = 0 ∧ readReg s .errInfo = s.errInfo ∧
    (s.treeValid = true → readReg s .leafCount = s.leafCnt.setWidth 32 ∧
      readReg s .nodeCount = 2 * s.leafCnt.setWidth 32 - 1 ∧ readReg s .root = s.rootIdx.setWidth 32) ∧
    (s.treeValid = false → readReg s .leafCount = 0 ∧ readReg s .nodeCount = 0 ∧ readReg s .root = 0x3FF) ∧
    (∀ n : Node, n = (if s.nodeSel.toNat ≤ 512 then arenaGet s.node s.nodeSel.toNat
        else { sym := 0x1FF, weight := 0, zero := 0x3FF, one := 0x3FF }) →
      readReg s .nodeSym = n.sym.setWidth 32 ∧ (readReg s .nodeChild).extractLsb' 0 10 = n.zero ∧
      (readReg s .nodeChild).extractLsb' 16 10 = n.one ∧ (readReg s .nodeChild).extractLsb' 10 6 = 0 ∧
      (readReg s .nodeChild).extractLsb' 26 6 = 0 ∧
      (readReg s .nodeWeightLo).toNat + 2 ^ 32 * (readReg s .nodeWeightHi).toNat = n.weight.toNat) ∧
    (∀ e : CodeEntry, e = (if s.codeSel.toNat ≤ 256 then codeGet s.code s.codeSel.toNat else { len := 0, cells := 0 }) →
      readReg s .codeLen = e.len.setWidth 32 ∧
      ∀ j, j < 32 → (readReg s .codeWord).getLsbD j =
        (decide (32 * s.codeWordSel.toNat + j < e.len.toNat) && e.cells.getLsbD (32 * s.codeWordSel.toNat + j))) ∧
    (readReg s .bitCountLo).toNat + 2 ^ 32 * (readReg s .bitCountHi).toNat = s.bitCount.toNat ∧
    (readReg s .symCountLo).toNat + 2 ^ 32 * (readReg s .symCountHi).toNat = s.symCount.toNat

/-- R104, R105, R110: a write to a reserved offset or to a read-only register changes nothing, and a reserved offset reads 0. -/
def Obligations.ReservedAndReadOnlyIgnoreWrites : Prop :=
  ∀ (s : State) (v : Word) (off : BitVec 8),
    (0x5C ≤ off.toNat → memWrite off v s = s ∧ memRead off s = (0, s)) ∧
    (∀ r : Reg, r.offset = off →
      r = .id ∨ r = .errInfo ∨ r = .leafCount ∨ r = .nodeCount ∨ r = .root ∨ r = .nodeSym ∨ r = .nodeChild ∨
        r = .nodeWeightLo ∨ r = .nodeWeightHi ∨ r = .codeLen ∨ r = .codeWord ∨ r = .bitCountLo ∨ r = .bitCountHi ∨
        r = .symCountLo ∨ r = .symCountHi → memWrite off v s = s)

/-- R100, R103, R106, R109: the host's accesses. A read at an aligned offset and four bytes wide returns the register's value to the host
and changes nothing else, but that an unspecified read counts its draw, which is the model's choice (log entry 4). A write there, at
an offset other than CMD's, is the register write `memWrite` of the word of its bytes, the lowest first. Any other width or alignment
is refused. -/
def Obligations.HostAccessesReadOrAreRefused : Prop :=
  (∀ (s : State) (ts : List Turn) (p : List HostOp) (off : BitVec 8) (b0 b1 b2 b3 : Byte), s.rst = false →
    s.turns = .host :: ts → s.hostProg = .write off [b0, b1, b2, b3] :: p → off.toNat % 4 = 0 → off ≠ 0x04 →
      step s = .next (memWrite off (b3 ++ b2 ++ b1 ++ b0) { s with turns := ts, hostProg := p })) ∧
  (∀ (s : State) (ts : List Turn) (p : List HostOp) (off : BitVec 8), s.rst = false → s.turns = .host :: ts →
    s.hostProg = .read off 4 :: p → off.toNat % 4 = 0 →
      ∃ v d, step s = .next { s with turns := ts, hostProg := p, hostReads := s.hostReads ++ [v], draws := d } ∧
        (∀ r : Reg, r.offset = off → s.unspecified r = false → v = readReg s r ∧ d = s.draws) ∧
        ((∀ r : Reg, r.offset ≠ off) → v = 0 ∧ d = s.draws)) ∧
  (∀ (s : State) (ts : List Turn) (p : List HostOp) (off : BitVec 8) (width : Nat), s.rst = false → s.turns = .host :: ts →
    s.hostProg = .read off width :: p → (width ≠ 4 ∨ off.toNat % 4 ≠ 0) →
      step s = .refused (.undefinedAccess off width)) ∧
  (∀ (s : State) (ts : List Turn) (p : List HostOp) (off : BitVec 8) (bytes : List Byte), s.rst = false →
    s.turns = .host :: ts → s.hostProg = .write off bytes :: p → (bytes.length ≠ 4 ∨ off.toNat % 4 ≠ 0) →
      step s = .refused (.undefinedAccess off bytes.length))

/-- R138, R35: a pass of WAIT reads STATUS for the host and goes on exactly when the engine is idle; nothing else changes. R114, R6:
a host with no access to make changes nothing. That a pass is one turn is the model's reading (log entry 15). -/
def Obligations.HostWaitsUntilIdle : Prop :=
  (∀ (s : State) (ts : List Turn) (p : List HostOp), s.rst = false → s.turns = .host :: ts → s.hostProg = .wait :: p →
    step s = .next { s with
      turns := ts, hostProg := if s.fsm = Config.fsmIdle then p else .wait :: p, hostReads := s.hostReads ++ [readReg s .status] }) ∧
  (∀ (s : State) (ts : List Turn), s.rst = false → s.turns = .host :: ts → s.hostProg = [] →
    step s = .next { s with turns := ts })

/-- R6, R70 to R74, R387: a partner's turn moves its own end of its port and nothing else: a source offers one more item after those
it offers or, as R387 lets the host make it, discards what it offers; a sink sets whether it accepts. That these are the partners'
turns is the model's choice (log entries 6 and 16). -/
def Obligations.PartnersMoveTheirOwnEnds : Prop :=
  (∀ (s : State) (ts : List Turn) (item : SymItem), s.turns = .byteSource (.offer item) :: ts →
    step s = .next { s with turns := ts, symIn := s.symIn ++ [item] }) ∧
  (∀ (s : State) (ts : List Turn) (item : BitItem), s.turns = .bitSource (.offer item) :: ts →
    step s = .next { s with turns := ts, bitIn := s.bitIn ++ [item] }) ∧
  (∀ (s : State) (ts : List Turn), s.turns = .byteSource .flush :: ts → step s = .next { s with turns := ts, symIn := [] }) ∧
  (∀ (s : State) (ts : List Turn), s.turns = .bitSource .flush :: ts → step s = .next { s with turns := ts, bitIn := [] }) ∧
  (∀ (s : State) (ts : List Turn) (ready : Bool), s.turns = .bitSink ready :: ts →
    step s = .next { s with turns := ts, bitOutReady := ready }) ∧
  (∀ (s : State) (ts : List Turn) (ready : Bool), s.turns = .byteSink ready :: ts →
    step s = .next { s with turns := ts, symOutReady := ready })

/-- R66, U1: while BUILD runs a read of a tree view, the node window or the code window returns an unspecified value; while DERIVE
runs a read of the code window does; no state of the block changes. Every other register reads exactly at every step, the tree views
while DERIVE runs among them (log entry 5 on R46). That the value is `Config.freeWord` of the count of draws, and that the count goes
up by 1, is the model's choice (log entry 4). -/
def Obligations.BusyWindowReadsAreUnspecified : Prop :=
  (∀ (s : State) (r : Reg), s.fsm = Config.fsmBuild →
    r ∈ [Reg.leafCount, .nodeCount, .root, .nodeSym, .nodeChild, .nodeWeightLo, .nodeWeightHi, .codeLen, .codeWord] →
      memRead r.offset s = (Config.freeWord s.draws, { s with draws := s.draws + 1 })) ∧
  (∀ (s : State) (r : Reg), s.fsm = Config.fsmDerive → r ∈ [Reg.codeLen, .codeWord] →
    memRead r.offset s = (Config.freeWord s.draws, { s with draws := s.draws + 1 })) ∧
  (∀ (s : State) (r : Reg), s.fsm = Config.fsmBuild →
    r ∉ [Reg.leafCount, .nodeCount, .root, .nodeSym, .nodeChild, .nodeWeightLo, .nodeWeightHi, .codeLen, .codeWord] →
      memRead r.offset s = (readReg s r, s)) ∧
  (∀ (s : State) (r : Reg), s.fsm = Config.fsmDerive → r ∉ [Reg.codeLen, .codeWord] →
    memRead r.offset s = (readReg s r, s)) ∧
  (∀ (s : State) (r : Reg), s.fsm ≠ Config.fsmBuild → s.fsm ≠ Config.fsmDerive → memRead r.offset s = (readReg s r, s))

/-- R75, R343, R345: `irq` is IRQ_EN and DONE at every state; every accept and reset lower it, a STATUS write with bit 1 set lowers it, a write of
CTRL that sets IRQ_EN raises it at once when DONE is pending, and a completion raises it when IRQ_EN is set. -/
def Obligations.IrqFollowsDone : Prop :=
  ∀ s : State, s.irq = (s.irqEn && s.done) ∧ (beginAccept s).irq = false ∧ (resetStep s).irq = false ∧
    (∀ v : Word, v.getLsbD 1 = true → (memWrite 0x08 v s).irq = false) ∧
    (∀ v : Word, (memWrite 0x0C v s).irq = (v.getLsbD 0 && s.done)) ∧
    (∀ (e : BitVec 4) (info : Word), (complete e info s).irq = s.irqEn)

/-! ## Invariants -/

/-- R76, R64: the state after reset meets the control invariant and the whole invariant. -/
def Obligations.ResetMeetsTheInvariants : Prop := ControlInv State.reset ∧ MachineInv State.reset

/-- R64, R61, R62, R38, R40, R168: every step keeps the control invariant: `fsm` and `sub` stay a listed pair, the working state stays
empty, CODES_VALID implies TREE_VALID, a running command has its prerequisite, ERR stays 0 to 10. -/
def Obligations.StepsKeepTheControlInvariant : Prop :=
  ∀ s t : State, ControlInv s → step s = .next t → ControlInv t

/-- R54, R55, U5: every step keeps the slots legal: a symbol, EOS or NAS in each, and no children under a leaf. -/
def Obligations.StepsKeepTheSlotsLegal : Prop :=
  ∀ s t : State, SlotsLegal s.node → step s = .next t → SlotsLegal t.node

/-- R57, R58, R59, R183 with the rest of the whole invariant: every step keeps it, from every state that meets it. -/
def Obligations.StepsKeepTheMachineInvariant : Prop :=
  ∀ s t : State, MachineInv s → step s = .next t → MachineInv t

/-- R213 (the same table always gives the same tree, and the tree its codes), R183: two states that meet the invariant, hold a valid
tree and hold the same frequency table hold the same arena, slot for slot, the same LEAF_CNT and the same ROOT_IDX; with their
codes valid they hold the same code table, entry for entry. -/
def Obligations.SameTableSameTreeAndCodes : Prop :=
  ∀ s t : State, MachineInv s → MachineInv t → s.treeValid = true → t.treeValid = true → s.freq = t.freq →
    s.node = t.node ∧ s.leafCnt = t.leafCnt ∧ s.rootIdx = t.rootIdx ∧
      (s.codesValid = true → t.codesValid = true → s.code = t.code)

/-! ## Streams -/

/-- R254 to R259, R135: whatever the order of the agents' steps, the engine's steps of ENCODE send the bits of the items offered and
nothing else: as long as no error ends the command, the bits received followed by the bits still to send for the items on SYM_IN
(up to `End`) stay the same list. -/
def Obligations.EncoderSendsWhatItOwes : Prop :=
  ∀ s : State, MachineInv s → s.fsm = Config.fsmEncode →
    ((engineStep s).fsm = Config.fsmEncode ∨ (engineStep s).err = 0) →
      (engineStep s).bitOut ++ (engineStep s).owedBits = s.bitOut ++ s.owedBits

/-- R259, R135, R260: ENCODE, written to CMD with the codes valid, and given turns, sends exactly the payload of the bytes offered up to
`End` to a sink that accepts, counts its bits and the bytes, and completes with no error; the items after `End` stay with the
source; nothing else but ENC_SYM and ENC_K changes. -/
def Obligations.EncodeSendsThePayload : Prop :=
  ∀ (s : State) (bytes : List Byte) (rest : List SymItem) (ts : List Turn),
    MachineInv s → s.fsm = Config.fsmIdle → s.rst = false → s.codesValid = true → s.bitOutReady = true →
    s.symIn = byteStream bytes ++ rest → (∀ b, b ∈ bytes → present s.freq b.toNat = true) →
    (payload s.code bytes).length < 2 ^ 64 →
      ∃ s1 t, exec .encode s = .next s1 ∧
        Reaches (bytes.length + 1 + (payload s.code bytes).length)
          { s1 with turns := engineTurns (bytes.length + 1 + (payload s.code bytes).length) ++ ts } t ∧
        t = { s with
          turns := ts, symIn := rest, bitOut := s.bitOut ++ payload s.code bytes,
          bitCount := BitVec.ofNat 64 (payload s.code bytes).length, symCount := BitVec.ofNat 64 bytes.length,
          encSym := t.encSym, encK := t.encK, done := true, err := 0, errInfo := 0 }

/-- R292: the round trip. With the same frequency table behind the codes of one state and the tree of another, DECODE of the payload that
ENCODE sends for the bytes, whatever follows it, emits exactly those bytes to a sink that accepts, takes exactly the payload's bits,
and completes with no error; nothing else but DEC_CUR and DEC_OUT changes. -/
def Obligations.DecodeRecoversThePayload : Prop :=
  ∀ (e s : State) (bytes : List Byte) (rest : List BitItem) (ts : List Turn),
    MachineInv e → e.codesValid = true → MachineInv s → e.freq = s.freq →
    s.fsm = Config.fsmIdle → s.rst = false → s.treeValid = true → s.symOutReady = true →
    (∀ b, b ∈ bytes → present s.freq b.toNat = true) →
    s.bitIn = (payload e.code bytes).map BitItem.bit ++ rest → (payload e.code bytes).length < 2 ^ 64 →
      ∃ s1 t, exec .decode s = .next s1 ∧
        Reaches (bytes.length + (payload e.code bytes).length)
          { s1 with turns := engineTurns (bytes.length + (payload e.code bytes).length) ++ ts } t ∧
        t = { s with
          turns := ts, bitIn := rest, symOut := s.symOut ++ bytes,
          bitCount := BitVec.ofNat 64 (payload e.code bytes).length, symCount := BitVec.ofNat 64 bytes.length,
          decCur := t.decCur, decOut := t.decOut, done := true, err := 0, errInfo := 0 }

/-! ## The merge rule -/

/-- R206, R207, R208, R211: a pass over a queue of two slots or more, which is a set (R61), puts in the next slot the node whose zero
child is the slot of least key, whose one child is the slot of least key among the rest, and whose weight is their sum; the new slot
joins the queue in the place of the two; no other slot changes. `buildOf` is leaf insertion and then such passes, one after the
other, until the queue holds one slot. -/
def Obligations.MergePassJoinsTheTwoLeast : Prop :=
  (∀ w : BuildWork, w.pq.Nodup → 2 ≤ w.pq.length → w.next < 513 →
    ∃ a b, a ∈ w.pq ∧ b ∈ w.pq ∧ a ≠ b ∧
      (∀ j, j ∈ w.pq → j ≠ a →
        (arenaGet w.node a.toNat).weight.toNat < (arenaGet w.node j.toNat).weight.toNat ∨
          ((arenaGet w.node a.toNat).weight.toNat = (arenaGet w.node j.toNat).weight.toNat ∧ a.toNat < j.toNat)) ∧
      (∀ j, j ∈ w.pq → j ≠ a → j ≠ b →
        (arenaGet w.node b.toNat).weight.toNat < (arenaGet w.node j.toNat).weight.toNat ∨
          ((arenaGet w.node b.toNat).weight.toNat = (arenaGet w.node j.toNat).weight.toNat ∧ b.toNat < j.toNat)) ∧
      arenaGet (mergeStep w).node w.next =
        { sym := 0x1FF, weight := (arenaGet w.node a.toNat).weight + (arenaGet w.node b.toNat).weight, zero := a, one := b } ∧
      (∀ i, i ≠ w.next → arenaGet (mergeStep w).node i = arenaGet w.node i) ∧
      (∀ j, j ∈ (mergeStep w).pq ↔ (j ∈ w.pq ∧ j ≠ a ∧ j ≠ b) ∨ j = BitVec.ofNat 10 w.next) ∧
      (mergeStep w).pq.length + 1 = w.pq.length ∧ (mergeStep w).next = w.next + 1) ∧
  (∀ freq : Vector Count 257,
    buildOf freq = mergeLoop (presentSyms freq).length (insertLeaves freq (Vector.replicate 513 Node.empty))) ∧
  (∀ (k : Nat) (w : BuildWork), 2 ≤ w.pq.length → mergeLoop (k + 1) w = mergeLoop k (mergeStep w)) ∧
  (∀ (k : Nat) (w : BuildWork), w.pq.length ≤ 1 → mergeLoop k w = w)
end

