-- ==== Sys2Proof/Laws/Decode.lean ====
section
/-! SUPPORT. Words and their bytes, and what decides whether bytes are a command word. -/

namespace Sys2Proof

/-- The four bytes of a word make the word again (R106). -/
theorem wordOfBytes_bytesOfWord (w : Word) : wordOfBytes (bytesOfWord w) = some w := by
  simp only [wordOfBytes, bytesOfWord, Option.some.injEq]
  apply BitVec.eq_of_getLsbD_eq
  intro i hi
  simp only [BitVec.getLsbD_append, BitVec.getLsbD_extractLsb']
  split_ifs with h1 h2 h3
  · simp [h1]
  · have : i - 8 < 8 := by omega
    simp [this, show 8 + (i - 8) = i by omega]
  · have : i - 8 - 8 < 8 := by omega
    simp [this, show 16 + (i - 8 - 8) = i by omega]
  · have : i - 8 - 8 - 8 < 8 := by omega
    simp [this, show 24 + (i - 8 - 8 - 8) = i by omega]

theorem decode_bytesOfWord (w : Word) : decode (bytesOfWord w) = .ok (decodeWord w) := by
  simp [decode, wordOfBytes_bytesOfWord]

/-- Exactly four bytes make a word (R103, R130). -/
theorem wordOfBytes_length {bytes : List Byte} {w : Word} (h : wordOfBytes bytes = some w) : bytes.length = 4 := by
  match bytes, h with
  | [_, _, _, _], _ => rfl

theorem decode_length {bytes : List Byte} {i : Instr} (h : decode bytes = .ok i) : bytes.length = 4 := by
  unfold decode at h
  split at h
  · rename_i w hw; exact wordOfBytes_length hw
  · simp at h

end Sys2Proof
end

