-- ==== Sys2Proof/Laws/State.lean ====
section
/-! SUPPORT. What each state update does to each field: one lemma per field per update, so that no proof unfolds a record update. -/

namespace Sys2Proof.Machine

/-! ### complete -/

@[simp] theorem complete_done (e : BitVec 4) (info : Word) (s : State) : (complete e info s).done = true := rfl
@[simp] theorem complete_treeValid (e : BitVec 4) (info : Word) (s : State) : (complete e info s).treeValid = s.treeValid := rfl
@[simp] theorem complete_codesValid (e : BitVec 4) (info : Word) (s : State) : (complete e info s).codesValid = s.codesValid := rfl
@[simp] theorem complete_overrun (e : BitVec 4) (info : Word) (s : State) : (complete e info s).overrun = s.overrun := rfl
@[simp] theorem complete_err (e : BitVec 4) (info : Word) (s : State) : (complete e info s).err = e := rfl
@[simp] theorem complete_irqEn (e : BitVec 4) (info : Word) (s : State) : (complete e info s).irqEn = s.irqEn := rfl
@[simp] theorem complete_errInfo (e : BitVec 4) (info : Word) (s : State) : (complete e info s).errInfo = info := rfl
@[simp] theorem complete_freqSel (e : BitVec 4) (info : Word) (s : State) : (complete e info s).freqSel = s.freqSel := rfl
@[simp] theorem complete_nodeSel (e : BitVec 4) (info : Word) (s : State) : (complete e info s).nodeSel = s.nodeSel := rfl
@[simp] theorem complete_codeSel (e : BitVec 4) (info : Word) (s : State) : (complete e info s).codeSel = s.codeSel := rfl
@[simp] theorem complete_codeWordSel (e : BitVec 4) (info : Word) (s : State) : (complete e info s).codeWordSel = s.codeWordSel := rfl
@[simp] theorem complete_freq (e : BitVec 4) (info : Word) (s : State) : (complete e info s).freq = s.freq := rfl
@[simp] theorem complete_node (e : BitVec 4) (info : Word) (s : State) : (complete e info s).node = s.node := rfl
@[simp] theorem complete_leafCnt (e : BitVec 4) (info : Word) (s : State) : (complete e info s).leafCnt = s.leafCnt := rfl
@[simp] theorem complete_rootIdx (e : BitVec 4) (info : Word) (s : State) : (complete e info s).rootIdx = s.rootIdx := rfl
@[simp] theorem complete_code (e : BitVec 4) (info : Word) (s : State) : (complete e info s).code = s.code := rfl
@[simp] theorem complete_bitCount (e : BitVec 4) (info : Word) (s : State) : (complete e info s).bitCount = s.bitCount := rfl
@[simp] theorem complete_symCount (e : BitVec 4) (info : Word) (s : State) : (complete e info s).symCount = s.symCount := rfl
@[simp] theorem complete_fsm (e : BitVec 4) (info : Word) (s : State) : (complete e info s).fsm = Config.fsmIdle := rfl
@[simp] theorem complete_sub (e : BitVec 4) (info : Word) (s : State) : (complete e info s).sub = 0 := rfl
@[simp] theorem complete_pq (e : BitVec 4) (info : Word) (s : State) : (complete e info s).pq = [] := rfl
@[simp] theorem complete_stack (e : BitVec 4) (info : Word) (s : State) : (complete e info s).stack = [] := rfl
@[simp] theorem complete_encSym (e : BitVec 4) (info : Word) (s : State) : (complete e info s).encSym = s.encSym := rfl
@[simp] theorem complete_encK (e : BitVec 4) (info : Word) (s : State) : (complete e info s).encK = s.encK := rfl
@[simp] theorem complete_decCur (e : BitVec 4) (info : Word) (s : State) : (complete e info s).decCur = s.decCur := rfl
@[simp] theorem complete_decOut (e : BitVec 4) (info : Word) (s : State) : (complete e info s).decOut = s.decOut := rfl
@[simp] theorem complete_rst (e : BitVec 4) (info : Word) (s : State) : (complete e info s).rst = s.rst := rfl
@[simp] theorem complete_symIn (e : BitVec 4) (info : Word) (s : State) : (complete e info s).symIn = s.symIn := rfl
@[simp] theorem complete_bitIn (e : BitVec 4) (info : Word) (s : State) : (complete e info s).bitIn = s.bitIn := rfl
@[simp] theorem complete_bitOut (e : BitVec 4) (info : Word) (s : State) : (complete e info s).bitOut = s.bitOut := rfl
@[simp] theorem complete_symOut (e : BitVec 4) (info : Word) (s : State) : (complete e info s).symOut = s.symOut := rfl
@[simp] theorem complete_bitOutReady (e : BitVec 4) (info : Word) (s : State) : (complete e info s).bitOutReady = s.bitOutReady := rfl
@[simp] theorem complete_symOutReady (e : BitVec 4) (info : Word) (s : State) : (complete e info s).symOutReady = s.symOutReady := rfl
@[simp] theorem complete_hostProg (e : BitVec 4) (info : Word) (s : State) : (complete e info s).hostProg = s.hostProg := rfl
@[simp] theorem complete_hostReads (e : BitVec 4) (info : Word) (s : State) : (complete e info s).hostReads = s.hostReads := rfl
@[simp] theorem complete_turns (e : BitVec 4) (info : Word) (s : State) : (complete e info s).turns = s.turns := rfl
@[simp] theorem complete_draws (e : BitVec 4) (info : Word) (s : State) : (complete e info s).draws = s.draws := rfl

/-! ### beginAccept -/

@[simp] theorem beginAccept_done (s : State) : (beginAccept s).done = false := rfl
@[simp] theorem beginAccept_treeValid (s : State) : (beginAccept s).treeValid = s.treeValid := rfl
@[simp] theorem beginAccept_codesValid (s : State) : (beginAccept s).codesValid = s.codesValid := rfl
@[simp] theorem beginAccept_overrun (s : State) : (beginAccept s).overrun = s.overrun := rfl
@[simp] theorem beginAccept_err (s : State) : (beginAccept s).err = 0 := rfl
@[simp] theorem beginAccept_irqEn (s : State) : (beginAccept s).irqEn = s.irqEn := rfl
@[simp] theorem beginAccept_errInfo (s : State) : (beginAccept s).errInfo = 0 := rfl
@[simp] theorem beginAccept_freqSel (s : State) : (beginAccept s).freqSel = s.freqSel := rfl
@[simp] theorem beginAccept_nodeSel (s : State) : (beginAccept s).nodeSel = s.nodeSel := rfl
@[simp] theorem beginAccept_codeSel (s : State) : (beginAccept s).codeSel = s.codeSel := rfl
@[simp] theorem beginAccept_codeWordSel (s : State) : (beginAccept s).codeWordSel = s.codeWordSel := rfl
@[simp] theorem beginAccept_freq (s : State) : (beginAccept s).freq = s.freq := rfl
@[simp] theorem beginAccept_node (s : State) : (beginAccept s).node = s.node := rfl
@[simp] theorem beginAccept_leafCnt (s : State) : (beginAccept s).leafCnt = s.leafCnt := rfl
@[simp] theorem beginAccept_rootIdx (s : State) : (beginAccept s).rootIdx = s.rootIdx := rfl
@[simp] theorem beginAccept_code (s : State) : (beginAccept s).code = s.code := rfl
@[simp] theorem beginAccept_bitCount (s : State) : (beginAccept s).bitCount = s.bitCount := rfl
@[simp] theorem beginAccept_symCount (s : State) : (beginAccept s).symCount = s.symCount := rfl
@[simp] theorem beginAccept_fsm (s : State) : (beginAccept s).fsm = s.fsm := rfl
@[simp] theorem beginAccept_sub (s : State) : (beginAccept s).sub = s.sub := rfl
@[simp] theorem beginAccept_pq (s : State) : (beginAccept s).pq = s.pq := rfl
@[simp] theorem beginAccept_stack (s : State) : (beginAccept s).stack = s.stack := rfl
@[simp] theorem beginAccept_encSym (s : State) : (beginAccept s).encSym = s.encSym := rfl
@[simp] theorem beginAccept_encK (s : State) : (beginAccept s).encK = s.encK := rfl
@[simp] theorem beginAccept_decCur (s : State) : (beginAccept s).decCur = s.decCur := rfl
@[simp] theorem beginAccept_decOut (s : State) : (beginAccept s).decOut = s.decOut := rfl
@[simp] theorem beginAccept_rst (s : State) : (beginAccept s).rst = s.rst := rfl
@[simp] theorem beginAccept_symIn (s : State) : (beginAccept s).symIn = s.symIn := rfl
@[simp] theorem beginAccept_bitIn (s : State) : (beginAccept s).bitIn = s.bitIn := rfl
@[simp] theorem beginAccept_bitOut (s : State) : (beginAccept s).bitOut = s.bitOut := rfl
@[simp] theorem beginAccept_symOut (s : State) : (beginAccept s).symOut = s.symOut := rfl
@[simp] theorem beginAccept_bitOutReady (s : State) : (beginAccept s).bitOutReady = s.bitOutReady := rfl
@[simp] theorem beginAccept_symOutReady (s : State) : (beginAccept s).symOutReady = s.symOutReady := rfl
@[simp] theorem beginAccept_hostProg (s : State) : (beginAccept s).hostProg = s.hostProg := rfl
@[simp] theorem beginAccept_hostReads (s : State) : (beginAccept s).hostReads = s.hostReads := rfl
@[simp] theorem beginAccept_turns (s : State) : (beginAccept s).turns = s.turns := rfl
@[simp] theorem beginAccept_draws (s : State) : (beginAccept s).draws = s.draws := rfl

/-! ### dropWrite -/

@[simp] theorem dropWrite_done (s : State) : (dropWrite s).done = s.done := rfl
@[simp] theorem dropWrite_treeValid (s : State) : (dropWrite s).treeValid = s.treeValid := rfl
@[simp] theorem dropWrite_codesValid (s : State) : (dropWrite s).codesValid = s.codesValid := rfl
@[simp] theorem dropWrite_overrun (s : State) : (dropWrite s).overrun = true := rfl
@[simp] theorem dropWrite_err (s : State) : (dropWrite s).err = s.err := rfl
@[simp] theorem dropWrite_irqEn (s : State) : (dropWrite s).irqEn = s.irqEn := rfl
@[simp] theorem dropWrite_errInfo (s : State) : (dropWrite s).errInfo = s.errInfo := rfl
@[simp] theorem dropWrite_freqSel (s : State) : (dropWrite s).freqSel = s.freqSel := rfl
@[simp] theorem dropWrite_nodeSel (s : State) : (dropWrite s).nodeSel = s.nodeSel := rfl
@[simp] theorem dropWrite_codeSel (s : State) : (dropWrite s).codeSel = s.codeSel := rfl
@[simp] theorem dropWrite_codeWordSel (s : State) : (dropWrite s).codeWordSel = s.codeWordSel := rfl
@[simp] theorem dropWrite_freq (s : State) : (dropWrite s).freq = s.freq := rfl
@[simp] theorem dropWrite_node (s : State) : (dropWrite s).node = s.node := rfl
@[simp] theorem dropWrite_leafCnt (s : State) : (dropWrite s).leafCnt = s.leafCnt := rfl
@[simp] theorem dropWrite_rootIdx (s : State) : (dropWrite s).rootIdx = s.rootIdx := rfl
@[simp] theorem dropWrite_code (s : State) : (dropWrite s).code = s.code := rfl
@[simp] theorem dropWrite_bitCount (s : State) : (dropWrite s).bitCount = s.bitCount := rfl
@[simp] theorem dropWrite_symCount (s : State) : (dropWrite s).symCount = s.symCount := rfl
@[simp] theorem dropWrite_fsm (s : State) : (dropWrite s).fsm = s.fsm := rfl
@[simp] theorem dropWrite_sub (s : State) : (dropWrite s).sub = s.sub := rfl
@[simp] theorem dropWrite_pq (s : State) : (dropWrite s).pq = s.pq := rfl
@[simp] theorem dropWrite_stack (s : State) : (dropWrite s).stack = s.stack := rfl
@[simp] theorem dropWrite_encSym (s : State) : (dropWrite s).encSym = s.encSym := rfl
@[simp] theorem dropWrite_encK (s : State) : (dropWrite s).encK = s.encK := rfl
@[simp] theorem dropWrite_decCur (s : State) : (dropWrite s).decCur = s.decCur := rfl
@[simp] theorem dropWrite_decOut (s : State) : (dropWrite s).decOut = s.decOut := rfl
@[simp] theorem dropWrite_rst (s : State) : (dropWrite s).rst = s.rst := rfl
@[simp] theorem dropWrite_symIn (s : State) : (dropWrite s).symIn = s.symIn := rfl
@[simp] theorem dropWrite_bitIn (s : State) : (dropWrite s).bitIn = s.bitIn := rfl
@[simp] theorem dropWrite_bitOut (s : State) : (dropWrite s).bitOut = s.bitOut := rfl
@[simp] theorem dropWrite_symOut (s : State) : (dropWrite s).symOut = s.symOut := rfl
@[simp] theorem dropWrite_bitOutReady (s : State) : (dropWrite s).bitOutReady = s.bitOutReady := rfl
@[simp] theorem dropWrite_symOutReady (s : State) : (dropWrite s).symOutReady = s.symOutReady := rfl
@[simp] theorem dropWrite_hostProg (s : State) : (dropWrite s).hostProg = s.hostProg := rfl
@[simp] theorem dropWrite_hostReads (s : State) : (dropWrite s).hostReads = s.hostReads := rfl
@[simp] theorem dropWrite_turns (s : State) : (dropWrite s).turns = s.turns := rfl
@[simp] theorem dropWrite_draws (s : State) : (dropWrite s).draws = s.draws := rfl

/-! ### invalidate -/

@[simp] theorem invalidate_done (s : State) : (invalidate s).done = s.done := rfl
@[simp] theorem invalidate_treeValid (s : State) : (invalidate s).treeValid = false := rfl
@[simp] theorem invalidate_codesValid (s : State) : (invalidate s).codesValid = false := rfl
@[simp] theorem invalidate_overrun (s : State) : (invalidate s).overrun = s.overrun := rfl
@[simp] theorem invalidate_err (s : State) : (invalidate s).err = s.err := rfl
@[simp] theorem invalidate_irqEn (s : State) : (invalidate s).irqEn = s.irqEn := rfl
@[simp] theorem invalidate_errInfo (s : State) : (invalidate s).errInfo = s.errInfo := rfl
@[simp] theorem invalidate_freqSel (s : State) : (invalidate s).freqSel = s.freqSel := rfl
@[simp] theorem invalidate_nodeSel (s : State) : (invalidate s).nodeSel = s.nodeSel := rfl
@[simp] theorem invalidate_codeSel (s : State) : (invalidate s).codeSel = s.codeSel := rfl
@[simp] theorem invalidate_codeWordSel (s : State) : (invalidate s).codeWordSel = s.codeWordSel := rfl
@[simp] theorem invalidate_freq (s : State) : (invalidate s).freq = s.freq := rfl
@[simp] theorem invalidate_node (s : State) : (invalidate s).node = s.node := rfl
@[simp] theorem invalidate_leafCnt (s : State) : (invalidate s).leafCnt = s.leafCnt := rfl
@[simp] theorem invalidate_rootIdx (s : State) : (invalidate s).rootIdx = s.rootIdx := rfl
@[simp] theorem invalidate_code (s : State) : (invalidate s).code = s.code := rfl
@[simp] theorem invalidate_bitCount (s : State) : (invalidate s).bitCount = s.bitCount := rfl
@[simp] theorem invalidate_symCount (s : State) : (invalidate s).symCount = s.symCount := rfl
@[simp] theorem invalidate_fsm (s : State) : (invalidate s).fsm = s.fsm := rfl
@[simp] theorem invalidate_sub (s : State) : (invalidate s).sub = s.sub := rfl
@[simp] theorem invalidate_pq (s : State) : (invalidate s).pq = s.pq := rfl
@[simp] theorem invalidate_stack (s : State) : (invalidate s).stack = s.stack := rfl
@[simp] theorem invalidate_encSym (s : State) : (invalidate s).encSym = s.encSym := rfl
@[simp] theorem invalidate_encK (s : State) : (invalidate s).encK = s.encK := rfl
@[simp] theorem invalidate_decCur (s : State) : (invalidate s).decCur = s.decCur := rfl
@[simp] theorem invalidate_decOut (s : State) : (invalidate s).decOut = s.decOut := rfl
@[simp] theorem invalidate_rst (s : State) : (invalidate s).rst = s.rst := rfl
@[simp] theorem invalidate_symIn (s : State) : (invalidate s).symIn = s.symIn := rfl
@[simp] theorem invalidate_bitIn (s : State) : (invalidate s).bitIn = s.bitIn := rfl
@[simp] theorem invalidate_bitOut (s : State) : (invalidate s).bitOut = s.bitOut := rfl
@[simp] theorem invalidate_symOut (s : State) : (invalidate s).symOut = s.symOut := rfl
@[simp] theorem invalidate_bitOutReady (s : State) : (invalidate s).bitOutReady = s.bitOutReady := rfl
@[simp] theorem invalidate_symOutReady (s : State) : (invalidate s).symOutReady = s.symOutReady := rfl
@[simp] theorem invalidate_hostProg (s : State) : (invalidate s).hostProg = s.hostProg := rfl
@[simp] theorem invalidate_hostReads (s : State) : (invalidate s).hostReads = s.hostReads := rfl
@[simp] theorem invalidate_turns (s : State) : (invalidate s).turns = s.turns := rfl
@[simp] theorem invalidate_draws (s : State) : (invalidate s).draws = s.draws := rfl

/-! ### emptyCodes -/

@[simp] theorem emptyCodes_done (s : State) : (emptyCodes s).done = s.done := rfl
@[simp] theorem emptyCodes_treeValid (s : State) : (emptyCodes s).treeValid = s.treeValid := rfl
@[simp] theorem emptyCodes_codesValid (s : State) : (emptyCodes s).codesValid = s.codesValid := rfl
@[simp] theorem emptyCodes_overrun (s : State) : (emptyCodes s).overrun = s.overrun := rfl
@[simp] theorem emptyCodes_err (s : State) : (emptyCodes s).err = s.err := rfl
@[simp] theorem emptyCodes_irqEn (s : State) : (emptyCodes s).irqEn = s.irqEn := rfl
@[simp] theorem emptyCodes_errInfo (s : State) : (emptyCodes s).errInfo = s.errInfo := rfl
@[simp] theorem emptyCodes_freqSel (s : State) : (emptyCodes s).freqSel = s.freqSel := rfl
@[simp] theorem emptyCodes_nodeSel (s : State) : (emptyCodes s).nodeSel = s.nodeSel := rfl
@[simp] theorem emptyCodes_codeSel (s : State) : (emptyCodes s).codeSel = s.codeSel := rfl
@[simp] theorem emptyCodes_codeWordSel (s : State) : (emptyCodes s).codeWordSel = s.codeWordSel := rfl
@[simp] theorem emptyCodes_freq (s : State) : (emptyCodes s).freq = s.freq := rfl
@[simp] theorem emptyCodes_node (s : State) : (emptyCodes s).node = s.node := rfl
@[simp] theorem emptyCodes_leafCnt (s : State) : (emptyCodes s).leafCnt = s.leafCnt := rfl
@[simp] theorem emptyCodes_rootIdx (s : State) : (emptyCodes s).rootIdx = s.rootIdx := rfl
@[simp] theorem emptyCodes_code (s : State) : (emptyCodes s).code = Vector.replicate 257 CodeEntry.empty := rfl
@[simp] theorem emptyCodes_bitCount (s : State) : (emptyCodes s).bitCount = s.bitCount := rfl
@[simp] theorem emptyCodes_symCount (s : State) : (emptyCodes s).symCount = s.symCount := rfl
@[simp] theorem emptyCodes_fsm (s : State) : (emptyCodes s).fsm = s.fsm := rfl
@[simp] theorem emptyCodes_sub (s : State) : (emptyCodes s).sub = s.sub := rfl
@[simp] theorem emptyCodes_pq (s : State) : (emptyCodes s).pq = s.pq := rfl
@[simp] theorem emptyCodes_stack (s : State) : (emptyCodes s).stack = s.stack := rfl
@[simp] theorem emptyCodes_encSym (s : State) : (emptyCodes s).encSym = s.encSym := rfl
@[simp] theorem emptyCodes_encK (s : State) : (emptyCodes s).encK = s.encK := rfl
@[simp] theorem emptyCodes_decCur (s : State) : (emptyCodes s).decCur = s.decCur := rfl
@[simp] theorem emptyCodes_decOut (s : State) : (emptyCodes s).decOut = s.decOut := rfl
@[simp] theorem emptyCodes_rst (s : State) : (emptyCodes s).rst = s.rst := rfl
@[simp] theorem emptyCodes_symIn (s : State) : (emptyCodes s).symIn = s.symIn := rfl
@[simp] theorem emptyCodes_bitIn (s : State) : (emptyCodes s).bitIn = s.bitIn := rfl
@[simp] theorem emptyCodes_bitOut (s : State) : (emptyCodes s).bitOut = s.bitOut := rfl
@[simp] theorem emptyCodes_symOut (s : State) : (emptyCodes s).symOut = s.symOut := rfl
@[simp] theorem emptyCodes_bitOutReady (s : State) : (emptyCodes s).bitOutReady = s.bitOutReady := rfl
@[simp] theorem emptyCodes_symOutReady (s : State) : (emptyCodes s).symOutReady = s.symOutReady := rfl
@[simp] theorem emptyCodes_hostProg (s : State) : (emptyCodes s).hostProg = s.hostProg := rfl
@[simp] theorem emptyCodes_hostReads (s : State) : (emptyCodes s).hostReads = s.hostReads := rfl
@[simp] theorem emptyCodes_turns (s : State) : (emptyCodes s).turns = s.turns := rfl
@[simp] theorem emptyCodes_draws (s : State) : (emptyCodes s).draws = s.draws := rfl

/-! ### discardTree -/

@[simp] theorem discardTree_done (s : State) : (discardTree s).done = s.done := rfl
@[simp] theorem discardTree_treeValid (s : State) : (discardTree s).treeValid = false := rfl
@[simp] theorem discardTree_codesValid (s : State) : (discardTree s).codesValid = false := rfl
@[simp] theorem discardTree_overrun (s : State) : (discardTree s).overrun = s.overrun := rfl
@[simp] theorem discardTree_err (s : State) : (discardTree s).err = s.err := rfl
@[simp] theorem discardTree_irqEn (s : State) : (discardTree s).irqEn = s.irqEn := rfl
@[simp] theorem discardTree_errInfo (s : State) : (discardTree s).errInfo = s.errInfo := rfl
@[simp] theorem discardTree_freqSel (s : State) : (discardTree s).freqSel = s.freqSel := rfl
@[simp] theorem discardTree_nodeSel (s : State) : (discardTree s).nodeSel = s.nodeSel := rfl
@[simp] theorem discardTree_codeSel (s : State) : (discardTree s).codeSel = s.codeSel := rfl
@[simp] theorem discardTree_codeWordSel (s : State) : (discardTree s).codeWordSel = s.codeWordSel := rfl
@[simp] theorem discardTree_freq (s : State) : (discardTree s).freq = s.freq := rfl
@[simp] theorem discardTree_node (s : State) : (discardTree s).node = Vector.replicate 513 Node.empty := rfl
@[simp] theorem discardTree_leafCnt (s : State) : (discardTree s).leafCnt = 0 := rfl
@[simp] theorem discardTree_rootIdx (s : State) : (discardTree s).rootIdx = Config.nil := rfl
@[simp] theorem discardTree_code (s : State) : (discardTree s).code = Vector.replicate 257 CodeEntry.empty := rfl
@[simp] theorem discardTree_bitCount (s : State) : (discardTree s).bitCount = s.bitCount := rfl
@[simp] theorem discardTree_symCount (s : State) : (discardTree s).symCount = s.symCount := rfl
@[simp] theorem discardTree_fsm (s : State) : (discardTree s).fsm = s.fsm := rfl
@[simp] theorem discardTree_sub (s : State) : (discardTree s).sub = s.sub := rfl
@[simp] theorem discardTree_pq (s : State) : (discardTree s).pq = s.pq := rfl
@[simp] theorem discardTree_stack (s : State) : (discardTree s).stack = s.stack := rfl
@[simp] theorem discardTree_encSym (s : State) : (discardTree s).encSym = s.encSym := rfl
@[simp] theorem discardTree_encK (s : State) : (discardTree s).encK = s.encK := rfl
@[simp] theorem discardTree_decCur (s : State) : (discardTree s).decCur = s.decCur := rfl
@[simp] theorem discardTree_decOut (s : State) : (discardTree s).decOut = s.decOut := rfl
@[simp] theorem discardTree_rst (s : State) : (discardTree s).rst = s.rst := rfl
@[simp] theorem discardTree_symIn (s : State) : (discardTree s).symIn = s.symIn := rfl
@[simp] theorem discardTree_bitIn (s : State) : (discardTree s).bitIn = s.bitIn := rfl
@[simp] theorem discardTree_bitOut (s : State) : (discardTree s).bitOut = s.bitOut := rfl
@[simp] theorem discardTree_symOut (s : State) : (discardTree s).symOut = s.symOut := rfl
@[simp] theorem discardTree_bitOutReady (s : State) : (discardTree s).bitOutReady = s.bitOutReady := rfl
@[simp] theorem discardTree_symOutReady (s : State) : (discardTree s).symOutReady = s.symOutReady := rfl
@[simp] theorem discardTree_hostProg (s : State) : (discardTree s).hostProg = s.hostProg := rfl
@[simp] theorem discardTree_hostReads (s : State) : (discardTree s).hostReads = s.hostReads := rfl
@[simp] theorem discardTree_turns (s : State) : (discardTree s).turns = s.turns := rfl
@[simp] theorem discardTree_draws (s : State) : (discardTree s).draws = s.draws := rfl

/-! ### goto -/

@[simp] theorem goto_done (f : BitVec 3) (b : BitVec 4) (s : State) : (goto f b s).done = s.done := rfl
@[simp] theorem goto_treeValid (f : BitVec 3) (b : BitVec 4) (s : State) : (goto f b s).treeValid = s.treeValid := rfl
@[simp] theorem goto_codesValid (f : BitVec 3) (b : BitVec 4) (s : State) : (goto f b s).codesValid = s.codesValid := rfl
@[simp] theorem goto_overrun (f : BitVec 3) (b : BitVec 4) (s : State) : (goto f b s).overrun = s.overrun := rfl
@[simp] theorem goto_err (f : BitVec 3) (b : BitVec 4) (s : State) : (goto f b s).err = s.err := rfl
@[simp] theorem goto_irqEn (f : BitVec 3) (b : BitVec 4) (s : State) : (goto f b s).irqEn = s.irqEn := rfl
@[simp] theorem goto_errInfo (f : BitVec 3) (b : BitVec 4) (s : State) : (goto f b s).errInfo = s.errInfo := rfl
@[simp] theorem goto_freqSel (f : BitVec 3) (b : BitVec 4) (s : State) : (goto f b s).freqSel = s.freqSel := rfl
@[simp] theorem goto_nodeSel (f : BitVec 3) (b : BitVec 4) (s : State) : (goto f b s).nodeSel = s.nodeSel := rfl
@[simp] theorem goto_codeSel (f : BitVec 3) (b : BitVec 4) (s : State) : (goto f b s).codeSel = s.codeSel := rfl
@[simp] theorem goto_codeWordSel (f : BitVec 3) (b : BitVec 4) (s : State) : (goto f b s).codeWordSel = s.codeWordSel := rfl
@[simp] theorem goto_freq (f : BitVec 3) (b : BitVec 4) (s : State) : (goto f b s).freq = s.freq := rfl
@[simp] theorem goto_node (f : BitVec 3) (b : BitVec 4) (s : State) : (goto f b s).node = s.node := rfl
@[simp] theorem goto_leafCnt (f : BitVec 3) (b : BitVec 4) (s : State) : (goto f b s).leafCnt = s.leafCnt := rfl
@[simp] theorem goto_rootIdx (f : BitVec 3) (b : BitVec 4) (s : State) : (goto f b s).rootIdx = s.rootIdx := rfl
@[simp] theorem goto_code (f : BitVec 3) (b : BitVec 4) (s : State) : (goto f b s).code = s.code := rfl
@[simp] theorem goto_bitCount (f : BitVec 3) (b : BitVec 4) (s : State) : (goto f b s).bitCount = s.bitCount := rfl
@[simp] theorem goto_symCount (f : BitVec 3) (b : BitVec 4) (s : State) : (goto f b s).symCount = s.symCount := rfl
@[simp] theorem goto_fsm (f : BitVec 3) (b : BitVec 4) (s : State) : (goto f b s).fsm = f := rfl
@[simp] theorem goto_sub (f : BitVec 3) (b : BitVec 4) (s : State) : (goto f b s).sub = b := rfl
@[simp] theorem goto_pq (f : BitVec 3) (b : BitVec 4) (s : State) : (goto f b s).pq = s.pq := rfl
@[simp] theorem goto_stack (f : BitVec 3) (b : BitVec 4) (s : State) : (goto f b s).stack = s.stack := rfl
@[simp] theorem goto_encSym (f : BitVec 3) (b : BitVec 4) (s : State) : (goto f b s).encSym = s.encSym := rfl
@[simp] theorem goto_encK (f : BitVec 3) (b : BitVec 4) (s : State) : (goto f b s).encK = s.encK := rfl
@[simp] theorem goto_decCur (f : BitVec 3) (b : BitVec 4) (s : State) : (goto f b s).decCur = s.decCur := rfl
@[simp] theorem goto_decOut (f : BitVec 3) (b : BitVec 4) (s : State) : (goto f b s).decOut = s.decOut := rfl
@[simp] theorem goto_rst (f : BitVec 3) (b : BitVec 4) (s : State) : (goto f b s).rst = s.rst := rfl
@[simp] theorem goto_symIn (f : BitVec 3) (b : BitVec 4) (s : State) : (goto f b s).symIn = s.symIn := rfl
@[simp] theorem goto_bitIn (f : BitVec 3) (b : BitVec 4) (s : State) : (goto f b s).bitIn = s.bitIn := rfl
@[simp] theorem goto_bitOut (f : BitVec 3) (b : BitVec 4) (s : State) : (goto f b s).bitOut = s.bitOut := rfl
@[simp] theorem goto_symOut (f : BitVec 3) (b : BitVec 4) (s : State) : (goto f b s).symOut = s.symOut := rfl
@[simp] theorem goto_bitOutReady (f : BitVec 3) (b : BitVec 4) (s : State) : (goto f b s).bitOutReady = s.bitOutReady := rfl
@[simp] theorem goto_symOutReady (f : BitVec 3) (b : BitVec 4) (s : State) : (goto f b s).symOutReady = s.symOutReady := rfl
@[simp] theorem goto_hostProg (f : BitVec 3) (b : BitVec 4) (s : State) : (goto f b s).hostProg = s.hostProg := rfl
@[simp] theorem goto_hostReads (f : BitVec 3) (b : BitVec 4) (s : State) : (goto f b s).hostReads = s.hostReads := rfl
@[simp] theorem goto_turns (f : BitVec 3) (b : BitVec 4) (s : State) : (goto f b s).turns = s.turns := rfl
@[simp] theorem goto_draws (f : BitVec 3) (b : BitVec 4) (s : State) : (goto f b s).draws = s.draws := rfl

/-! ### clearCounters -/

@[simp] theorem clearCounters_done (s : State) : (clearCounters s).done = s.done := rfl
@[simp] theorem clearCounters_treeValid (s : State) : (clearCounters s).treeValid = s.treeValid := rfl
@[simp] theorem clearCounters_codesValid (s : State) : (clearCounters s).codesValid = s.codesValid := rfl
@[simp] theorem clearCounters_overrun (s : State) : (clearCounters s).overrun = s.overrun := rfl
@[simp] theorem clearCounters_err (s : State) : (clearCounters s).err = s.err := rfl
@[simp] theorem clearCounters_irqEn (s : State) : (clearCounters s).irqEn = s.irqEn := rfl
@[simp] theorem clearCounters_errInfo (s : State) : (clearCounters s).errInfo = s.errInfo := rfl
@[simp] theorem clearCounters_freqSel (s : State) : (clearCounters s).freqSel = s.freqSel := rfl
@[simp] theorem clearCounters_nodeSel (s : State) : (clearCounters s).nodeSel = s.nodeSel := rfl
@[simp] theorem clearCounters_codeSel (s : State) : (clearCounters s).codeSel = s.codeSel := rfl
@[simp] theorem clearCounters_codeWordSel (s : State) : (clearCounters s).codeWordSel = s.codeWordSel := rfl
@[simp] theorem clearCounters_freq (s : State) : (clearCounters s).freq = s.freq := rfl
@[simp] theorem clearCounters_node (s : State) : (clearCounters s).node = s.node := rfl
@[simp] theorem clearCounters_leafCnt (s : State) : (clearCounters s).leafCnt = s.leafCnt := rfl
@[simp] theorem clearCounters_rootIdx (s : State) : (clearCounters s).rootIdx = s.rootIdx := rfl
@[simp] theorem clearCounters_code (s : State) : (clearCounters s).code = s.code := rfl
@[simp] theorem clearCounters_bitCount (s : State) : (clearCounters s).bitCount = 0 := rfl
@[simp] theorem clearCounters_symCount (s : State) : (clearCounters s).symCount = 0 := rfl
@[simp] theorem clearCounters_fsm (s : State) : (clearCounters s).fsm = s.fsm := rfl
@[simp] theorem clearCounters_sub (s : State) : (clearCounters s).sub = s.sub := rfl
@[simp] theorem clearCounters_pq (s : State) : (clearCounters s).pq = s.pq := rfl
@[simp] theorem clearCounters_stack (s : State) : (clearCounters s).stack = s.stack := rfl
@[simp] theorem clearCounters_encSym (s : State) : (clearCounters s).encSym = s.encSym := rfl
@[simp] theorem clearCounters_encK (s : State) : (clearCounters s).encK = s.encK := rfl
@[simp] theorem clearCounters_decCur (s : State) : (clearCounters s).decCur = s.decCur := rfl
@[simp] theorem clearCounters_decOut (s : State) : (clearCounters s).decOut = s.decOut := rfl
@[simp] theorem clearCounters_rst (s : State) : (clearCounters s).rst = s.rst := rfl
@[simp] theorem clearCounters_symIn (s : State) : (clearCounters s).symIn = s.symIn := rfl
@[simp] theorem clearCounters_bitIn (s : State) : (clearCounters s).bitIn = s.bitIn := rfl
@[simp] theorem clearCounters_bitOut (s : State) : (clearCounters s).bitOut = s.bitOut := rfl
@[simp] theorem clearCounters_symOut (s : State) : (clearCounters s).symOut = s.symOut := rfl
@[simp] theorem clearCounters_bitOutReady (s : State) : (clearCounters s).bitOutReady = s.bitOutReady := rfl
@[simp] theorem clearCounters_symOutReady (s : State) : (clearCounters s).symOutReady = s.symOutReady := rfl
@[simp] theorem clearCounters_hostProg (s : State) : (clearCounters s).hostProg = s.hostProg := rfl
@[simp] theorem clearCounters_hostReads (s : State) : (clearCounters s).hostReads = s.hostReads := rfl
@[simp] theorem clearCounters_turns (s : State) : (clearCounters s).turns = s.turns := rfl
@[simp] theorem clearCounters_draws (s : State) : (clearCounters s).draws = s.draws := rfl

/-! ### giveBit -/

@[simp] theorem giveBit_done (x : Bool) (s : State) : (giveBit x s).done = s.done := rfl
@[simp] theorem giveBit_treeValid (x : Bool) (s : State) : (giveBit x s).treeValid = s.treeValid := rfl
@[simp] theorem giveBit_codesValid (x : Bool) (s : State) : (giveBit x s).codesValid = s.codesValid := rfl
@[simp] theorem giveBit_overrun (x : Bool) (s : State) : (giveBit x s).overrun = s.overrun := rfl
@[simp] theorem giveBit_err (x : Bool) (s : State) : (giveBit x s).err = s.err := rfl
@[simp] theorem giveBit_irqEn (x : Bool) (s : State) : (giveBit x s).irqEn = s.irqEn := rfl
@[simp] theorem giveBit_errInfo (x : Bool) (s : State) : (giveBit x s).errInfo = s.errInfo := rfl
@[simp] theorem giveBit_freqSel (x : Bool) (s : State) : (giveBit x s).freqSel = s.freqSel := rfl
@[simp] theorem giveBit_nodeSel (x : Bool) (s : State) : (giveBit x s).nodeSel = s.nodeSel := rfl
@[simp] theorem giveBit_codeSel (x : Bool) (s : State) : (giveBit x s).codeSel = s.codeSel := rfl
@[simp] theorem giveBit_codeWordSel (x : Bool) (s : State) : (giveBit x s).codeWordSel = s.codeWordSel := rfl
@[simp] theorem giveBit_freq (x : Bool) (s : State) : (giveBit x s).freq = s.freq := rfl
@[simp] theorem giveBit_node (x : Bool) (s : State) : (giveBit x s).node = s.node := rfl
@[simp] theorem giveBit_leafCnt (x : Bool) (s : State) : (giveBit x s).leafCnt = s.leafCnt := rfl
@[simp] theorem giveBit_rootIdx (x : Bool) (s : State) : (giveBit x s).rootIdx = s.rootIdx := rfl
@[simp] theorem giveBit_code (x : Bool) (s : State) : (giveBit x s).code = s.code := rfl
@[simp] theorem giveBit_bitCount (x : Bool) (s : State) : (giveBit x s).bitCount = s.bitCount + 1#64 := rfl
@[simp] theorem giveBit_symCount (x : Bool) (s : State) : (giveBit x s).symCount = s.symCount := rfl
@[simp] theorem giveBit_fsm (x : Bool) (s : State) : (giveBit x s).fsm = s.fsm := rfl
@[simp] theorem giveBit_sub (x : Bool) (s : State) : (giveBit x s).sub = s.sub := rfl
@[simp] theorem giveBit_pq (x : Bool) (s : State) : (giveBit x s).pq = s.pq := rfl
@[simp] theorem giveBit_stack (x : Bool) (s : State) : (giveBit x s).stack = s.stack := rfl
@[simp] theorem giveBit_encSym (x : Bool) (s : State) : (giveBit x s).encSym = s.encSym := rfl
@[simp] theorem giveBit_encK (x : Bool) (s : State) : (giveBit x s).encK = s.encK := rfl
@[simp] theorem giveBit_decCur (x : Bool) (s : State) : (giveBit x s).decCur = s.decCur := rfl
@[simp] theorem giveBit_decOut (x : Bool) (s : State) : (giveBit x s).decOut = s.decOut := rfl
@[simp] theorem giveBit_rst (x : Bool) (s : State) : (giveBit x s).rst = s.rst := rfl
@[simp] theorem giveBit_symIn (x : Bool) (s : State) : (giveBit x s).symIn = s.symIn := rfl
@[simp] theorem giveBit_bitIn (x : Bool) (s : State) : (giveBit x s).bitIn = s.bitIn := rfl
@[simp] theorem giveBit_bitOut (x : Bool) (s : State) : (giveBit x s).bitOut = s.bitOut ++ [x] := rfl
@[simp] theorem giveBit_symOut (x : Bool) (s : State) : (giveBit x s).symOut = s.symOut := rfl
@[simp] theorem giveBit_bitOutReady (x : Bool) (s : State) : (giveBit x s).bitOutReady = s.bitOutReady := rfl
@[simp] theorem giveBit_symOutReady (x : Bool) (s : State) : (giveBit x s).symOutReady = s.symOutReady := rfl
@[simp] theorem giveBit_hostProg (x : Bool) (s : State) : (giveBit x s).hostProg = s.hostProg := rfl
@[simp] theorem giveBit_hostReads (x : Bool) (s : State) : (giveBit x s).hostReads = s.hostReads := rfl
@[simp] theorem giveBit_turns (x : Bool) (s : State) : (giveBit x s).turns = s.turns := rfl
@[simp] theorem giveBit_draws (x : Bool) (s : State) : (giveBit x s).draws = s.draws := rfl

/-! ### giveSym -/

@[simp] theorem giveSym_done (b : Byte) (s : State) : (giveSym b s).done = s.done := rfl
@[simp] theorem giveSym_treeValid (b : Byte) (s : State) : (giveSym b s).treeValid = s.treeValid := rfl
@[simp] theorem giveSym_codesValid (b : Byte) (s : State) : (giveSym b s).codesValid = s.codesValid := rfl
@[simp] theorem giveSym_overrun (b : Byte) (s : State) : (giveSym b s).overrun = s.overrun := rfl
@[simp] theorem giveSym_err (b : Byte) (s : State) : (giveSym b s).err = s.err := rfl
@[simp] theorem giveSym_irqEn (b : Byte) (s : State) : (giveSym b s).irqEn = s.irqEn := rfl
@[simp] theorem giveSym_errInfo (b : Byte) (s : State) : (giveSym b s).errInfo = s.errInfo := rfl
@[simp] theorem giveSym_freqSel (b : Byte) (s : State) : (giveSym b s).freqSel = s.freqSel := rfl
@[simp] theorem giveSym_nodeSel (b : Byte) (s : State) : (giveSym b s).nodeSel = s.nodeSel := rfl
@[simp] theorem giveSym_codeSel (b : Byte) (s : State) : (giveSym b s).codeSel = s.codeSel := rfl
@[simp] theorem giveSym_codeWordSel (b : Byte) (s : State) : (giveSym b s).codeWordSel = s.codeWordSel := rfl
@[simp] theorem giveSym_freq (b : Byte) (s : State) : (giveSym b s).freq = s.freq := rfl
@[simp] theorem giveSym_node (b : Byte) (s : State) : (giveSym b s).node = s.node := rfl
@[simp] theorem giveSym_leafCnt (b : Byte) (s : State) : (giveSym b s).leafCnt = s.leafCnt := rfl
@[simp] theorem giveSym_rootIdx (b : Byte) (s : State) : (giveSym b s).rootIdx = s.rootIdx := rfl
@[simp] theorem giveSym_code (b : Byte) (s : State) : (giveSym b s).code = s.code := rfl
@[simp] theorem giveSym_bitCount (b : Byte) (s : State) : (giveSym b s).bitCount = s.bitCount := rfl
@[simp] theorem giveSym_symCount (b : Byte) (s : State) : (giveSym b s).symCount = s.symCount + 1#64 := rfl
@[simp] theorem giveSym_fsm (b : Byte) (s : State) : (giveSym b s).fsm = s.fsm := rfl
@[simp] theorem giveSym_sub (b : Byte) (s : State) : (giveSym b s).sub = s.sub := rfl
@[simp] theorem giveSym_pq (b : Byte) (s : State) : (giveSym b s).pq = s.pq := rfl
@[simp] theorem giveSym_stack (b : Byte) (s : State) : (giveSym b s).stack = s.stack := rfl
@[simp] theorem giveSym_encSym (b : Byte) (s : State) : (giveSym b s).encSym = s.encSym := rfl
@[simp] theorem giveSym_encK (b : Byte) (s : State) : (giveSym b s).encK = s.encK := rfl
@[simp] theorem giveSym_decCur (b : Byte) (s : State) : (giveSym b s).decCur = s.decCur := rfl
@[simp] theorem giveSym_decOut (b : Byte) (s : State) : (giveSym b s).decOut = s.decOut := rfl
@[simp] theorem giveSym_rst (b : Byte) (s : State) : (giveSym b s).rst = s.rst := rfl
@[simp] theorem giveSym_symIn (b : Byte) (s : State) : (giveSym b s).symIn = s.symIn := rfl
@[simp] theorem giveSym_bitIn (b : Byte) (s : State) : (giveSym b s).bitIn = s.bitIn := rfl
@[simp] theorem giveSym_bitOut (b : Byte) (s : State) : (giveSym b s).bitOut = s.bitOut := rfl
@[simp] theorem giveSym_symOut (b : Byte) (s : State) : (giveSym b s).symOut = s.symOut ++ [b] := rfl
@[simp] theorem giveSym_bitOutReady (b : Byte) (s : State) : (giveSym b s).bitOutReady = s.bitOutReady := rfl
@[simp] theorem giveSym_symOutReady (b : Byte) (s : State) : (giveSym b s).symOutReady = s.symOutReady := rfl
@[simp] theorem giveSym_hostProg (b : Byte) (s : State) : (giveSym b s).hostProg = s.hostProg := rfl
@[simp] theorem giveSym_hostReads (b : Byte) (s : State) : (giveSym b s).hostReads = s.hostReads := rfl
@[simp] theorem giveSym_turns (b : Byte) (s : State) : (giveSym b s).turns = s.turns := rfl
@[simp] theorem giveSym_draws (b : Byte) (s : State) : (giveSym b s).draws = s.draws := rfl

/-! ### writeStatus -/

@[simp] theorem writeStatus_done (v : Word) (s : State) : (writeStatus v s).done = (s.done && !v.getLsbD 1) := rfl
@[simp] theorem writeStatus_treeValid (v : Word) (s : State) : (writeStatus v s).treeValid = s.treeValid := rfl
@[simp] theorem writeStatus_codesValid (v : Word) (s : State) : (writeStatus v s).codesValid = s.codesValid := rfl
@[simp] theorem writeStatus_overrun (v : Word) (s : State) : (writeStatus v s).overrun = (s.overrun && !v.getLsbD 4) := rfl
@[simp] theorem writeStatus_err (v : Word) (s : State) : (writeStatus v s).err = s.err := rfl
@[simp] theorem writeStatus_irqEn (v : Word) (s : State) : (writeStatus v s).irqEn = s.irqEn := rfl
@[simp] theorem writeStatus_errInfo (v : Word) (s : State) : (writeStatus v s).errInfo = s.errInfo := rfl
@[simp] theorem writeStatus_freqSel (v : Word) (s : State) : (writeStatus v s).freqSel = s.freqSel := rfl
@[simp] theorem writeStatus_nodeSel (v : Word) (s : State) : (writeStatus v s).nodeSel = s.nodeSel := rfl
@[simp] theorem writeStatus_codeSel (v : Word) (s : State) : (writeStatus v s).codeSel = s.codeSel := rfl
@[simp] theorem writeStatus_codeWordSel (v : Word) (s : State) : (writeStatus v s).codeWordSel = s.codeWordSel := rfl
@[simp] theorem writeStatus_freq (v : Word) (s : State) : (writeStatus v s).freq = s.freq := rfl
@[simp] theorem writeStatus_node (v : Word) (s : State) : (writeStatus v s).node = s.node := rfl
@[simp] theorem writeStatus_leafCnt (v : Word) (s : State) : (writeStatus v s).leafCnt = s.leafCnt := rfl
@[simp] theorem writeStatus_rootIdx (v : Word) (s : State) : (writeStatus v s).rootIdx = s.rootIdx := rfl
@[simp] theorem writeStatus_code (v : Word) (s : State) : (writeStatus v s).code = s.code := rfl
@[simp] theorem writeStatus_bitCount (v : Word) (s : State) : (writeStatus v s).bitCount = s.bitCount := rfl
@[simp] theorem writeStatus_symCount (v : Word) (s : State) : (writeStatus v s).symCount = s.symCount := rfl
@[simp] theorem writeStatus_fsm (v : Word) (s : State) : (writeStatus v s).fsm = s.fsm := rfl
@[simp] theorem writeStatus_sub (v : Word) (s : State) : (writeStatus v s).sub = s.sub := rfl
@[simp] theorem writeStatus_pq (v : Word) (s : State) : (writeStatus v s).pq = s.pq := rfl
@[simp] theorem writeStatus_stack (v : Word) (s : State) : (writeStatus v s).stack = s.stack := rfl
@[simp] theorem writeStatus_encSym (v : Word) (s : State) : (writeStatus v s).encSym = s.encSym := rfl
@[simp] theorem writeStatus_encK (v : Word) (s : State) : (writeStatus v s).encK = s.encK := rfl
@[simp] theorem writeStatus_decCur (v : Word) (s : State) : (writeStatus v s).decCur = s.decCur := rfl
@[simp] theorem writeStatus_decOut (v : Word) (s : State) : (writeStatus v s).decOut = s.decOut := rfl
@[simp] theorem writeStatus_rst (v : Word) (s : State) : (writeStatus v s).rst = s.rst := rfl
@[simp] theorem writeStatus_symIn (v : Word) (s : State) : (writeStatus v s).symIn = s.symIn := rfl
@[simp] theorem writeStatus_bitIn (v : Word) (s : State) : (writeStatus v s).bitIn = s.bitIn := rfl
@[simp] theorem writeStatus_bitOut (v : Word) (s : State) : (writeStatus v s).bitOut = s.bitOut := rfl
@[simp] theorem writeStatus_symOut (v : Word) (s : State) : (writeStatus v s).symOut = s.symOut := rfl
@[simp] theorem writeStatus_bitOutReady (v : Word) (s : State) : (writeStatus v s).bitOutReady = s.bitOutReady := rfl
@[simp] theorem writeStatus_symOutReady (v : Word) (s : State) : (writeStatus v s).symOutReady = s.symOutReady := rfl
@[simp] theorem writeStatus_hostProg (v : Word) (s : State) : (writeStatus v s).hostProg = s.hostProg := rfl
@[simp] theorem writeStatus_hostReads (v : Word) (s : State) : (writeStatus v s).hostReads = s.hostReads := rfl
@[simp] theorem writeStatus_turns (v : Word) (s : State) : (writeStatus v s).turns = s.turns := rfl
@[simp] theorem writeStatus_draws (v : Word) (s : State) : (writeStatus v s).draws = s.draws := rfl

/-! ### writeCtrl -/

@[simp] theorem writeCtrl_done (v : Word) (s : State) : (writeCtrl v s).done = s.done := rfl
@[simp] theorem writeCtrl_treeValid (v : Word) (s : State) : (writeCtrl v s).treeValid = s.treeValid := rfl
@[simp] theorem writeCtrl_codesValid (v : Word) (s : State) : (writeCtrl v s).codesValid = s.codesValid := rfl
@[simp] theorem writeCtrl_overrun (v : Word) (s : State) : (writeCtrl v s).overrun = s.overrun := rfl
@[simp] theorem writeCtrl_err (v : Word) (s : State) : (writeCtrl v s).err = s.err := rfl
@[simp] theorem writeCtrl_irqEn (v : Word) (s : State) : (writeCtrl v s).irqEn = v.getLsbD 0 := rfl
@[simp] theorem writeCtrl_errInfo (v : Word) (s : State) : (writeCtrl v s).errInfo = s.errInfo := rfl
@[simp] theorem writeCtrl_freqSel (v : Word) (s : State) : (writeCtrl v s).freqSel = s.freqSel := rfl
@[simp] theorem writeCtrl_nodeSel (v : Word) (s : State) : (writeCtrl v s).nodeSel = s.nodeSel := rfl
@[simp] theorem writeCtrl_codeSel (v : Word) (s : State) : (writeCtrl v s).codeSel = s.codeSel := rfl
@[simp] theorem writeCtrl_codeWordSel (v : Word) (s : State) : (writeCtrl v s).codeWordSel = s.codeWordSel := rfl
@[simp] theorem writeCtrl_freq (v : Word) (s : State) : (writeCtrl v s).freq = s.freq := rfl
@[simp] theorem writeCtrl_node (v : Word) (s : State) : (writeCtrl v s).node = s.node := rfl
@[simp] theorem writeCtrl_leafCnt (v : Word) (s : State) : (writeCtrl v s).leafCnt = s.leafCnt := rfl
@[simp] theorem writeCtrl_rootIdx (v : Word) (s : State) : (writeCtrl v s).rootIdx = s.rootIdx := rfl
@[simp] theorem writeCtrl_code (v : Word) (s : State) : (writeCtrl v s).code = s.code := rfl
@[simp] theorem writeCtrl_bitCount (v : Word) (s : State) : (writeCtrl v s).bitCount = s.bitCount := rfl
@[simp] theorem writeCtrl_symCount (v : Word) (s : State) : (writeCtrl v s).symCount = s.symCount := rfl
@[simp] theorem writeCtrl_fsm (v : Word) (s : State) : (writeCtrl v s).fsm = s.fsm := rfl
@[simp] theorem writeCtrl_sub (v : Word) (s : State) : (writeCtrl v s).sub = s.sub := rfl
@[simp] theorem writeCtrl_pq (v : Word) (s : State) : (writeCtrl v s).pq = s.pq := rfl
@[simp] theorem writeCtrl_stack (v : Word) (s : State) : (writeCtrl v s).stack = s.stack := rfl
@[simp] theorem writeCtrl_encSym (v : Word) (s : State) : (writeCtrl v s).encSym = s.encSym := rfl
@[simp] theorem writeCtrl_encK (v : Word) (s : State) : (writeCtrl v s).encK = s.encK := rfl
@[simp] theorem writeCtrl_decCur (v : Word) (s : State) : (writeCtrl v s).decCur = s.decCur := rfl
@[simp] theorem writeCtrl_decOut (v : Word) (s : State) : (writeCtrl v s).decOut = s.decOut := rfl
@[simp] theorem writeCtrl_rst (v : Word) (s : State) : (writeCtrl v s).rst = s.rst := rfl
@[simp] theorem writeCtrl_symIn (v : Word) (s : State) : (writeCtrl v s).symIn = s.symIn := rfl
@[simp] theorem writeCtrl_bitIn (v : Word) (s : State) : (writeCtrl v s).bitIn = s.bitIn := rfl
@[simp] theorem writeCtrl_bitOut (v : Word) (s : State) : (writeCtrl v s).bitOut = s.bitOut := rfl
@[simp] theorem writeCtrl_symOut (v : Word) (s : State) : (writeCtrl v s).symOut = s.symOut := rfl
@[simp] theorem writeCtrl_bitOutReady (v : Word) (s : State) : (writeCtrl v s).bitOutReady = s.bitOutReady := rfl
@[simp] theorem writeCtrl_symOutReady (v : Word) (s : State) : (writeCtrl v s).symOutReady = s.symOutReady := rfl
@[simp] theorem writeCtrl_hostProg (v : Word) (s : State) : (writeCtrl v s).hostProg = s.hostProg := rfl
@[simp] theorem writeCtrl_hostReads (v : Word) (s : State) : (writeCtrl v s).hostReads = s.hostReads := rfl
@[simp] theorem writeCtrl_turns (v : Word) (s : State) : (writeCtrl v s).turns = s.turns := rfl
@[simp] theorem writeCtrl_draws (v : Word) (s : State) : (writeCtrl v s).draws = s.draws := rfl

/-! ### writeFreqSel -/

@[simp] theorem writeFreqSel_done (v : Word) (s : State) : (writeFreqSel v s).done = s.done := rfl
@[simp] theorem writeFreqSel_treeValid (v : Word) (s : State) : (writeFreqSel v s).treeValid = s.treeValid := rfl
@[simp] theorem writeFreqSel_codesValid (v : Word) (s : State) : (writeFreqSel v s).codesValid = s.codesValid := rfl
@[simp] theorem writeFreqSel_overrun (v : Word) (s : State) : (writeFreqSel v s).overrun = s.overrun := rfl
@[simp] theorem writeFreqSel_err (v : Word) (s : State) : (writeFreqSel v s).err = s.err := rfl
@[simp] theorem writeFreqSel_irqEn (v : Word) (s : State) : (writeFreqSel v s).irqEn = s.irqEn := rfl
@[simp] theorem writeFreqSel_errInfo (v : Word) (s : State) : (writeFreqSel v s).errInfo = s.errInfo := rfl
@[simp] theorem writeFreqSel_freqSel (v : Word) (s : State) : (writeFreqSel v s).freqSel = v.extractLsb' 0 9 := rfl
@[simp] theorem writeFreqSel_nodeSel (v : Word) (s : State) : (writeFreqSel v s).nodeSel = s.nodeSel := rfl
@[simp] theorem writeFreqSel_codeSel (v : Word) (s : State) : (writeFreqSel v s).codeSel = s.codeSel := rfl
@[simp] theorem writeFreqSel_codeWordSel (v : Word) (s : State) : (writeFreqSel v s).codeWordSel = s.codeWordSel := rfl
@[simp] theorem writeFreqSel_freq (v : Word) (s : State) : (writeFreqSel v s).freq = s.freq := rfl
@[simp] theorem writeFreqSel_node (v : Word) (s : State) : (writeFreqSel v s).node = s.node := rfl
@[simp] theorem writeFreqSel_leafCnt (v : Word) (s : State) : (writeFreqSel v s).leafCnt = s.leafCnt := rfl
@[simp] theorem writeFreqSel_rootIdx (v : Word) (s : State) : (writeFreqSel v s).rootIdx = s.rootIdx := rfl
@[simp] theorem writeFreqSel_code (v : Word) (s : State) : (writeFreqSel v s).code = s.code := rfl
@[simp] theorem writeFreqSel_bitCount (v : Word) (s : State) : (writeFreqSel v s).bitCount = s.bitCount := rfl
@[simp] theorem writeFreqSel_symCount (v : Word) (s : State) : (writeFreqSel v s).symCount = s.symCount := rfl
@[simp] theorem writeFreqSel_fsm (v : Word) (s : State) : (writeFreqSel v s).fsm = s.fsm := rfl
@[simp] theorem writeFreqSel_sub (v : Word) (s : State) : (writeFreqSel v s).sub = s.sub := rfl
@[simp] theorem writeFreqSel_pq (v : Word) (s : State) : (writeFreqSel v s).pq = s.pq := rfl
@[simp] theorem writeFreqSel_stack (v : Word) (s : State) : (writeFreqSel v s).stack = s.stack := rfl
@[simp] theorem writeFreqSel_encSym (v : Word) (s : State) : (writeFreqSel v s).encSym = s.encSym := rfl
@[simp] theorem writeFreqSel_encK (v : Word) (s : State) : (writeFreqSel v s).encK = s.encK := rfl
@[simp] theorem writeFreqSel_decCur (v : Word) (s : State) : (writeFreqSel v s).decCur = s.decCur := rfl
@[simp] theorem writeFreqSel_decOut (v : Word) (s : State) : (writeFreqSel v s).decOut = s.decOut := rfl
@[simp] theorem writeFreqSel_rst (v : Word) (s : State) : (writeFreqSel v s).rst = s.rst := rfl
@[simp] theorem writeFreqSel_symIn (v : Word) (s : State) : (writeFreqSel v s).symIn = s.symIn := rfl
@[simp] theorem writeFreqSel_bitIn (v : Word) (s : State) : (writeFreqSel v s).bitIn = s.bitIn := rfl
@[simp] theorem writeFreqSel_bitOut (v : Word) (s : State) : (writeFreqSel v s).bitOut = s.bitOut := rfl
@[simp] theorem writeFreqSel_symOut (v : Word) (s : State) : (writeFreqSel v s).symOut = s.symOut := rfl
@[simp] theorem writeFreqSel_bitOutReady (v : Word) (s : State) : (writeFreqSel v s).bitOutReady = s.bitOutReady := rfl
@[simp] theorem writeFreqSel_symOutReady (v : Word) (s : State) : (writeFreqSel v s).symOutReady = s.symOutReady := rfl
@[simp] theorem writeFreqSel_hostProg (v : Word) (s : State) : (writeFreqSel v s).hostProg = s.hostProg := rfl
@[simp] theorem writeFreqSel_hostReads (v : Word) (s : State) : (writeFreqSel v s).hostReads = s.hostReads := rfl
@[simp] theorem writeFreqSel_turns (v : Word) (s : State) : (writeFreqSel v s).turns = s.turns := rfl
@[simp] theorem writeFreqSel_draws (v : Word) (s : State) : (writeFreqSel v s).draws = s.draws := rfl

/-! ### writeNodeSel -/

@[simp] theorem writeNodeSel_done (v : Word) (s : State) : (writeNodeSel v s).done = s.done := rfl
@[simp] theorem writeNodeSel_treeValid (v : Word) (s : State) : (writeNodeSel v s).treeValid = s.treeValid := rfl
@[simp] theorem writeNodeSel_codesValid (v : Word) (s : State) : (writeNodeSel v s).codesValid = s.codesValid := rfl
@[simp] theorem writeNodeSel_overrun (v : Word) (s : State) : (writeNodeSel v s).overrun = s.overrun := rfl
@[simp] theorem writeNodeSel_err (v : Word) (s : State) : (writeNodeSel v s).err = s.err := rfl
@[simp] theorem writeNodeSel_irqEn (v : Word) (s : State) : (writeNodeSel v s).irqEn = s.irqEn := rfl
@[simp] theorem writeNodeSel_errInfo (v : Word) (s : State) : (writeNodeSel v s).errInfo = s.errInfo := rfl
@[simp] theorem writeNodeSel_freqSel (v : Word) (s : State) : (writeNodeSel v s).freqSel = s.freqSel := rfl
@[simp] theorem writeNodeSel_nodeSel (v : Word) (s : State) : (writeNodeSel v s).nodeSel = v.extractLsb' 0 10 := rfl
@[simp] theorem writeNodeSel_codeSel (v : Word) (s : State) : (writeNodeSel v s).codeSel = s.codeSel := rfl
@[simp] theorem writeNodeSel_codeWordSel (v : Word) (s : State) : (writeNodeSel v s).codeWordSel = s.codeWordSel := rfl
@[simp] theorem writeNodeSel_freq (v : Word) (s : State) : (writeNodeSel v s).freq = s.freq := rfl
@[simp] theorem writeNodeSel_node (v : Word) (s : State) : (writeNodeSel v s).node = s.node := rfl
@[simp] theorem writeNodeSel_leafCnt (v : Word) (s : State) : (writeNodeSel v s).leafCnt = s.leafCnt := rfl
@[simp] theorem writeNodeSel_rootIdx (v : Word) (s : State) : (writeNodeSel v s).rootIdx = s.rootIdx := rfl
@[simp] theorem writeNodeSel_code (v : Word) (s : State) : (writeNodeSel v s).code = s.code := rfl
@[simp] theorem writeNodeSel_bitCount (v : Word) (s : State) : (writeNodeSel v s).bitCount = s.bitCount := rfl
@[simp] theorem writeNodeSel_symCount (v : Word) (s : State) : (writeNodeSel v s).symCount = s.symCount := rfl
@[simp] theorem writeNodeSel_fsm (v : Word) (s : State) : (writeNodeSel v s).fsm = s.fsm := rfl
@[simp] theorem writeNodeSel_sub (v : Word) (s : State) : (writeNodeSel v s).sub = s.sub := rfl
@[simp] theorem writeNodeSel_pq (v : Word) (s : State) : (writeNodeSel v s).pq = s.pq := rfl
@[simp] theorem writeNodeSel_stack (v : Word) (s : State) : (writeNodeSel v s).stack = s.stack := rfl
@[simp] theorem writeNodeSel_encSym (v : Word) (s : State) : (writeNodeSel v s).encSym = s.encSym := rfl
@[simp] theorem writeNodeSel_encK (v : Word) (s : State) : (writeNodeSel v s).encK = s.encK := rfl
@[simp] theorem writeNodeSel_decCur (v : Word) (s : State) : (writeNodeSel v s).decCur = s.decCur := rfl
@[simp] theorem writeNodeSel_decOut (v : Word) (s : State) : (writeNodeSel v s).decOut = s.decOut := rfl
@[simp] theorem writeNodeSel_rst (v : Word) (s : State) : (writeNodeSel v s).rst = s.rst := rfl
@[simp] theorem writeNodeSel_symIn (v : Word) (s : State) : (writeNodeSel v s).symIn = s.symIn := rfl
@[simp] theorem writeNodeSel_bitIn (v : Word) (s : State) : (writeNodeSel v s).bitIn = s.bitIn := rfl
@[simp] theorem writeNodeSel_bitOut (v : Word) (s : State) : (writeNodeSel v s).bitOut = s.bitOut := rfl
@[simp] theorem writeNodeSel_symOut (v : Word) (s : State) : (writeNodeSel v s).symOut = s.symOut := rfl
@[simp] theorem writeNodeSel_bitOutReady (v : Word) (s : State) : (writeNodeSel v s).bitOutReady = s.bitOutReady := rfl
@[simp] theorem writeNodeSel_symOutReady (v : Word) (s : State) : (writeNodeSel v s).symOutReady = s.symOutReady := rfl
@[simp] theorem writeNodeSel_hostProg (v : Word) (s : State) : (writeNodeSel v s).hostProg = s.hostProg := rfl
@[simp] theorem writeNodeSel_hostReads (v : Word) (s : State) : (writeNodeSel v s).hostReads = s.hostReads := rfl
@[simp] theorem writeNodeSel_turns (v : Word) (s : State) : (writeNodeSel v s).turns = s.turns := rfl
@[simp] theorem writeNodeSel_draws (v : Word) (s : State) : (writeNodeSel v s).draws = s.draws := rfl

/-! ### writeCodeSel -/

@[simp] theorem writeCodeSel_done (v : Word) (s : State) : (writeCodeSel v s).done = s.done := rfl
@[simp] theorem writeCodeSel_treeValid (v : Word) (s : State) : (writeCodeSel v s).treeValid = s.treeValid := rfl
@[simp] theorem writeCodeSel_codesValid (v : Word) (s : State) : (writeCodeSel v s).codesValid = s.codesValid := rfl
@[simp] theorem writeCodeSel_overrun (v : Word) (s : State) : (writeCodeSel v s).overrun = s.overrun := rfl
@[simp] theorem writeCodeSel_err (v : Word) (s : State) : (writeCodeSel v s).err = s.err := rfl
@[simp] theorem writeCodeSel_irqEn (v : Word) (s : State) : (writeCodeSel v s).irqEn = s.irqEn := rfl
@[simp] theorem writeCodeSel_errInfo (v : Word) (s : State) : (writeCodeSel v s).errInfo = s.errInfo := rfl
@[simp] theorem writeCodeSel_freqSel (v : Word) (s : State) : (writeCodeSel v s).freqSel = s.freqSel := rfl
@[simp] theorem writeCodeSel_nodeSel (v : Word) (s : State) : (writeCodeSel v s).nodeSel = s.nodeSel := rfl
@[simp] theorem writeCodeSel_codeSel (v : Word) (s : State) : (writeCodeSel v s).codeSel = v.extractLsb' 0 9 := rfl
@[simp] theorem writeCodeSel_codeWordSel (v : Word) (s : State) : (writeCodeSel v s).codeWordSel = s.codeWordSel := rfl
@[simp] theorem writeCodeSel_freq (v : Word) (s : State) : (writeCodeSel v s).freq = s.freq := rfl
@[simp] theorem writeCodeSel_node (v : Word) (s : State) : (writeCodeSel v s).node = s.node := rfl
@[simp] theorem writeCodeSel_leafCnt (v : Word) (s : State) : (writeCodeSel v s).leafCnt = s.leafCnt := rfl
@[simp] theorem writeCodeSel_rootIdx (v : Word) (s : State) : (writeCodeSel v s).rootIdx = s.rootIdx := rfl
@[simp] theorem writeCodeSel_code (v : Word) (s : State) : (writeCodeSel v s).code = s.code := rfl
@[simp] theorem writeCodeSel_bitCount (v : Word) (s : State) : (writeCodeSel v s).bitCount = s.bitCount := rfl
@[simp] theorem writeCodeSel_symCount (v : Word) (s : State) : (writeCodeSel v s).symCount = s.symCount := rfl
@[simp] theorem writeCodeSel_fsm (v : Word) (s : State) : (writeCodeSel v s).fsm = s.fsm := rfl
@[simp] theorem writeCodeSel_sub (v : Word) (s : State) : (writeCodeSel v s).sub = s.sub := rfl
@[simp] theorem writeCodeSel_pq (v : Word) (s : State) : (writeCodeSel v s).pq = s.pq := rfl
@[simp] theorem writeCodeSel_stack (v : Word) (s : State) : (writeCodeSel v s).stack = s.stack := rfl
@[simp] theorem writeCodeSel_encSym (v : Word) (s : State) : (writeCodeSel v s).encSym = s.encSym := rfl
@[simp] theorem writeCodeSel_encK (v : Word) (s : State) : (writeCodeSel v s).encK = s.encK := rfl
@[simp] theorem writeCodeSel_decCur (v : Word) (s : State) : (writeCodeSel v s).decCur = s.decCur := rfl
@[simp] theorem writeCodeSel_decOut (v : Word) (s : State) : (writeCodeSel v s).decOut = s.decOut := rfl
@[simp] theorem writeCodeSel_rst (v : Word) (s : State) : (writeCodeSel v s).rst = s.rst := rfl
@[simp] theorem writeCodeSel_symIn (v : Word) (s : State) : (writeCodeSel v s).symIn = s.symIn := rfl
@[simp] theorem writeCodeSel_bitIn (v : Word) (s : State) : (writeCodeSel v s).bitIn = s.bitIn := rfl
@[simp] theorem writeCodeSel_bitOut (v : Word) (s : State) : (writeCodeSel v s).bitOut = s.bitOut := rfl
@[simp] theorem writeCodeSel_symOut (v : Word) (s : State) : (writeCodeSel v s).symOut = s.symOut := rfl
@[simp] theorem writeCodeSel_bitOutReady (v : Word) (s : State) : (writeCodeSel v s).bitOutReady = s.bitOutReady := rfl
@[simp] theorem writeCodeSel_symOutReady (v : Word) (s : State) : (writeCodeSel v s).symOutReady = s.symOutReady := rfl
@[simp] theorem writeCodeSel_hostProg (v : Word) (s : State) : (writeCodeSel v s).hostProg = s.hostProg := rfl
@[simp] theorem writeCodeSel_hostReads (v : Word) (s : State) : (writeCodeSel v s).hostReads = s.hostReads := rfl
@[simp] theorem writeCodeSel_turns (v : Word) (s : State) : (writeCodeSel v s).turns = s.turns := rfl
@[simp] theorem writeCodeSel_draws (v : Word) (s : State) : (writeCodeSel v s).draws = s.draws := rfl

/-! ### writeCodeWordSel -/

@[simp] theorem writeCodeWordSel_done (v : Word) (s : State) : (writeCodeWordSel v s).done = s.done := rfl
@[simp] theorem writeCodeWordSel_treeValid (v : Word) (s : State) : (writeCodeWordSel v s).treeValid = s.treeValid := rfl
@[simp] theorem writeCodeWordSel_codesValid (v : Word) (s : State) : (writeCodeWordSel v s).codesValid = s.codesValid := rfl
@[simp] theorem writeCodeWordSel_overrun (v : Word) (s : State) : (writeCodeWordSel v s).overrun = s.overrun := rfl
@[simp] theorem writeCodeWordSel_err (v : Word) (s : State) : (writeCodeWordSel v s).err = s.err := rfl
@[simp] theorem writeCodeWordSel_irqEn (v : Word) (s : State) : (writeCodeWordSel v s).irqEn = s.irqEn := rfl
@[simp] theorem writeCodeWordSel_errInfo (v : Word) (s : State) : (writeCodeWordSel v s).errInfo = s.errInfo := rfl
@[simp] theorem writeCodeWordSel_freqSel (v : Word) (s : State) : (writeCodeWordSel v s).freqSel = s.freqSel := rfl
@[simp] theorem writeCodeWordSel_nodeSel (v : Word) (s : State) : (writeCodeWordSel v s).nodeSel = s.nodeSel := rfl
@[simp] theorem writeCodeWordSel_codeSel (v : Word) (s : State) : (writeCodeWordSel v s).codeSel = s.codeSel := rfl
@[simp] theorem writeCodeWordSel_codeWordSel (v : Word) (s : State) : (writeCodeWordSel v s).codeWordSel = v.extractLsb' 0 3 := rfl
@[simp] theorem writeCodeWordSel_freq (v : Word) (s : State) : (writeCodeWordSel v s).freq = s.freq := rfl
@[simp] theorem writeCodeWordSel_node (v : Word) (s : State) : (writeCodeWordSel v s).node = s.node := rfl
@[simp] theorem writeCodeWordSel_leafCnt (v : Word) (s : State) : (writeCodeWordSel v s).leafCnt = s.leafCnt := rfl
@[simp] theorem writeCodeWordSel_rootIdx (v : Word) (s : State) : (writeCodeWordSel v s).rootIdx = s.rootIdx := rfl
@[simp] theorem writeCodeWordSel_code (v : Word) (s : State) : (writeCodeWordSel v s).code = s.code := rfl
@[simp] theorem writeCodeWordSel_bitCount (v : Word) (s : State) : (writeCodeWordSel v s).bitCount = s.bitCount := rfl
@[simp] theorem writeCodeWordSel_symCount (v : Word) (s : State) : (writeCodeWordSel v s).symCount = s.symCount := rfl
@[simp] theorem writeCodeWordSel_fsm (v : Word) (s : State) : (writeCodeWordSel v s).fsm = s.fsm := rfl
@[simp] theorem writeCodeWordSel_sub (v : Word) (s : State) : (writeCodeWordSel v s).sub = s.sub := rfl
@[simp] theorem writeCodeWordSel_pq (v : Word) (s : State) : (writeCodeWordSel v s).pq = s.pq := rfl
@[simp] theorem writeCodeWordSel_stack (v : Word) (s : State) : (writeCodeWordSel v s).stack = s.stack := rfl
@[simp] theorem writeCodeWordSel_encSym (v : Word) (s : State) : (writeCodeWordSel v s).encSym = s.encSym := rfl
@[simp] theorem writeCodeWordSel_encK (v : Word) (s : State) : (writeCodeWordSel v s).encK = s.encK := rfl
@[simp] theorem writeCodeWordSel_decCur (v : Word) (s : State) : (writeCodeWordSel v s).decCur = s.decCur := rfl
@[simp] theorem writeCodeWordSel_decOut (v : Word) (s : State) : (writeCodeWordSel v s).decOut = s.decOut := rfl
@[simp] theorem writeCodeWordSel_rst (v : Word) (s : State) : (writeCodeWordSel v s).rst = s.rst := rfl
@[simp] theorem writeCodeWordSel_symIn (v : Word) (s : State) : (writeCodeWordSel v s).symIn = s.symIn := rfl
@[simp] theorem writeCodeWordSel_bitIn (v : Word) (s : State) : (writeCodeWordSel v s).bitIn = s.bitIn := rfl
@[simp] theorem writeCodeWordSel_bitOut (v : Word) (s : State) : (writeCodeWordSel v s).bitOut = s.bitOut := rfl
@[simp] theorem writeCodeWordSel_symOut (v : Word) (s : State) : (writeCodeWordSel v s).symOut = s.symOut := rfl
@[simp] theorem writeCodeWordSel_bitOutReady (v : Word) (s : State) : (writeCodeWordSel v s).bitOutReady = s.bitOutReady := rfl
@[simp] theorem writeCodeWordSel_symOutReady (v : Word) (s : State) : (writeCodeWordSel v s).symOutReady = s.symOutReady := rfl
@[simp] theorem writeCodeWordSel_hostProg (v : Word) (s : State) : (writeCodeWordSel v s).hostProg = s.hostProg := rfl
@[simp] theorem writeCodeWordSel_hostReads (v : Word) (s : State) : (writeCodeWordSel v s).hostReads = s.hostReads := rfl
@[simp] theorem writeCodeWordSel_turns (v : Word) (s : State) : (writeCodeWordSel v s).turns = s.turns := rfl
@[simp] theorem writeCodeWordSel_draws (v : Word) (s : State) : (writeCodeWordSel v s).draws = s.draws := rfl

/-! ### resetStep -/

@[simp] theorem resetStep_done (s : State) : (resetStep s).done = State.reset.done := rfl
@[simp] theorem resetStep_treeValid (s : State) : (resetStep s).treeValid = State.reset.treeValid := rfl
@[simp] theorem resetStep_codesValid (s : State) : (resetStep s).codesValid = State.reset.codesValid := rfl
@[simp] theorem resetStep_overrun (s : State) : (resetStep s).overrun = State.reset.overrun := rfl
@[simp] theorem resetStep_err (s : State) : (resetStep s).err = State.reset.err := rfl
@[simp] theorem resetStep_irqEn (s : State) : (resetStep s).irqEn = State.reset.irqEn := rfl
@[simp] theorem resetStep_errInfo (s : State) : (resetStep s).errInfo = State.reset.errInfo := rfl
@[simp] theorem resetStep_freqSel (s : State) : (resetStep s).freqSel = State.reset.freqSel := rfl
@[simp] theorem resetStep_nodeSel (s : State) : (resetStep s).nodeSel = State.reset.nodeSel := rfl
@[simp] theorem resetStep_codeSel (s : State) : (resetStep s).codeSel = State.reset.codeSel := rfl
@[simp] theorem resetStep_codeWordSel (s : State) : (resetStep s).codeWordSel = State.reset.codeWordSel := rfl
@[simp] theorem resetStep_freq (s : State) : (resetStep s).freq = State.reset.freq := rfl
@[simp] theorem resetStep_node (s : State) : (resetStep s).node = State.reset.node := rfl
@[simp] theorem resetStep_leafCnt (s : State) : (resetStep s).leafCnt = State.reset.leafCnt := rfl
@[simp] theorem resetStep_rootIdx (s : State) : (resetStep s).rootIdx = State.reset.rootIdx := rfl
@[simp] theorem resetStep_code (s : State) : (resetStep s).code = State.reset.code := rfl
@[simp] theorem resetStep_bitCount (s : State) : (resetStep s).bitCount = State.reset.bitCount := rfl
@[simp] theorem resetStep_symCount (s : State) : (resetStep s).symCount = State.reset.symCount := rfl
@[simp] theorem resetStep_fsm (s : State) : (resetStep s).fsm = State.reset.fsm := rfl
@[simp] theorem resetStep_sub (s : State) : (resetStep s).sub = State.reset.sub := rfl
@[simp] theorem resetStep_pq (s : State) : (resetStep s).pq = State.reset.pq := rfl
@[simp] theorem resetStep_stack (s : State) : (resetStep s).stack = State.reset.stack := rfl
@[simp] theorem resetStep_encSym (s : State) : (resetStep s).encSym = State.reset.encSym := rfl
@[simp] theorem resetStep_encK (s : State) : (resetStep s).encK = State.reset.encK := rfl
@[simp] theorem resetStep_decCur (s : State) : (resetStep s).decCur = State.reset.decCur := rfl
@[simp] theorem resetStep_decOut (s : State) : (resetStep s).decOut = State.reset.decOut := rfl
@[simp] theorem resetStep_rst (s : State) : (resetStep s).rst = s.rst := rfl
@[simp] theorem resetStep_symIn (s : State) : (resetStep s).symIn = s.symIn := rfl
@[simp] theorem resetStep_bitIn (s : State) : (resetStep s).bitIn = s.bitIn := rfl
@[simp] theorem resetStep_bitOut (s : State) : (resetStep s).bitOut = s.bitOut := rfl
@[simp] theorem resetStep_symOut (s : State) : (resetStep s).symOut = s.symOut := rfl
@[simp] theorem resetStep_bitOutReady (s : State) : (resetStep s).bitOutReady = s.bitOutReady := rfl
@[simp] theorem resetStep_symOutReady (s : State) : (resetStep s).symOutReady = s.symOutReady := rfl
@[simp] theorem resetStep_hostProg (s : State) : (resetStep s).hostProg = s.hostProg := rfl
@[simp] theorem resetStep_hostReads (s : State) : (resetStep s).hostReads = s.hostReads := rfl
@[simp] theorem resetStep_turns (s : State) : (resetStep s).turns = s.turns := rfl
@[simp] theorem resetStep_draws (s : State) : (resetStep s).draws = s.draws := rfl

/-! ### finish and raise are completions -/

@[simp] theorem finish_eq (s : State) : finish s = complete 0 0 s := rfl

@[simp] theorem raise_eq (e : ErrCode) (info : Word) (s : State) : raise e info s = complete e.code info s := rfl

end Sys2Proof.Machine
end

