-- ==== Sys2Proof/Laws/Exec.lean ====
section
/-! SUPPORT. What the CMD write of each command can do. -/

namespace Sys2Proof.Machine

theorem command_idle {accept : State → State} {s : State} (h : s.fsm = Config.fsmIdle) :
    command accept s = accept (beginAccept s) := by simp [command, h]

theorem command_busy {accept : State → State} {s : State} (h : s.fsm ≠ Config.fsmIdle) : command accept s = dropWrite s := by
  simp [command, h]

/-- The accept step of each command (R160, R161, R162). -/
def acceptOf : Instr → State → State
  | .nop => finish
  | .clearFreq => acceptClearFreq
  | .buildTree => acceptBuildTree
  | .deriveCodes => acceptDeriveCodes
  | .encode => acceptEncode
  | .decode => acceptDecode
  | .release => fun s => finish (discardTree s)
  | .abort => finish
  | .illegal w => raise .illegalCmd w

/-- A CMD write while the engine is idle is the accept of its command (R160). -/
theorem exec_idle (i : Instr) {s : State} (h : s.fsm = Config.fsmIdle) : exec i s = .next (acceptOf i (beginAccept s)) := by
  have he : ¬(s.fsm = Config.fsmEncode ∨ s.fsm = Config.fsmDecode) := by rw [h]; decide
  cases i <;>
    simp [exec, acceptOf, execNop, execClearFreq, execBuildTree, execDeriveCodes, execEncode, execDecode, execRelease, execAbort,
      execIllegal, command_idle h, he]

/-- An ABORT that is honoured (R313). -/
theorem exec_abort_running {s : State} (h : s.fsm = Config.fsmEncode ∨ s.fsm = Config.fsmDecode) :
    exec .abort s = .next (raise .aborted (abortInfo s) s) := by simp [exec, execAbort, h]

/-- Every other CMD write while the engine is busy is dropped (R163). -/
theorem exec_busy (i : Instr) {s : State} (h : s.fsm ≠ Config.fsmIdle)
    (hi : ¬(i = .abort ∧ (s.fsm = Config.fsmEncode ∨ s.fsm = Config.fsmDecode))) : exec i s = .next (dropWrite s) := by
  cases i with
  | abort =>
    have he : ¬(s.fsm = Config.fsmEncode ∨ s.fsm = Config.fsmDecode) := fun h' => hi ⟨rfl, h'⟩
    simp [exec, execAbort, he, command_busy h]
  | _ =>
    simp [exec, execNop, execClearFreq, execBuildTree, execDeriveCodes, execEncode, execDecode, execRelease, execIllegal,
      command_busy h]

/-- Everything a CMD write can do: it is accepted, it ends a running stream, or it is dropped. -/
theorem exec_cases {i : Instr} {s t : State} (h : exec i s = .next t) :
    (s.fsm = Config.fsmIdle ∧ t = acceptOf i (beginAccept s)) ∨
      (i = .abort ∧ (s.fsm = Config.fsmEncode ∨ s.fsm = Config.fsmDecode) ∧ t = raise .aborted (abortInfo s) s) ∨
      (s.fsm ≠ Config.fsmIdle ∧ t = dropWrite s) := by
  by_cases hidle : s.fsm = Config.fsmIdle
  · rw [exec_idle i hidle] at h
    exact .inl ⟨hidle, by simpa using h.symm⟩
  · by_cases hi : i = .abort ∧ (s.fsm = Config.fsmEncode ∨ s.fsm = Config.fsmDecode)
    · obtain ⟨rfl, hf⟩ := hi
      rw [exec_abort_running hf] at h
      exact .inr (.inl ⟨rfl, hf, by simpa using h.symm⟩)
    · rw [exec_busy i hidle hi] at h
      exact .inr (.inr ⟨hidle, by simpa using h.symm⟩)

/-- A CMD write always has a next state: no command faults and none is refused (R113, R333). -/
theorem exec_total (i : Instr) (s : State) : ∃ t, exec i s = .next t := by cases i <;> exact ⟨_, rfl⟩

end Sys2Proof.Machine
end

