-- ==== Sys2Proof/Laws/Tables.lean ====
section
/-! SUPPORT. Reading and writing the three tables, and bit strings as code entries. -/

namespace Sys2Proof.Machine

/-! ## Read after write -/

theorem freqGet_freqSet (t : Vector Count 257) (i j : Nat) (v : Count) :
    freqGet (freqSet t i v) j = if i = j ∧ j < 257 then v else freqGet t j := by
  unfold freqGet freqSet
  by_cases h : i = j
  · subst h
    by_cases hi : i < 257 <;> simp [hi]
  · simp [Vector.getElem?_setIfInBounds_ne h, h]

theorem arenaGet_arenaSet (t : Vector Node 513) (i j : Nat) (n : Node) :
    arenaGet (arenaSet t i n) j = if i = j ∧ j < 513 then n else arenaGet t j := by
  unfold arenaGet arenaSet
  by_cases h : i = j
  · subst h
    by_cases hi : i < 513 <;> simp [hi]
  · simp [Vector.getElem?_setIfInBounds_ne h, h]

theorem codeGet_codeSet (t : Vector CodeEntry 257) (i j : Nat) (e : CodeEntry) :
    codeGet (codeSet t i e) j = if i = j ∧ j < 257 then e else codeGet t j := by
  unfold codeGet codeSet
  by_cases h : i = j
  · subst h
    by_cases hi : i < 257 <;> simp [hi]
  · simp [Vector.getElem?_setIfInBounds_ne h, h]

theorem arenaGet_arenaSet_ne (t : Vector Node 513) {i j : Nat} (n : Node) (h : i ≠ j) :
    arenaGet (arenaSet t i n) j = arenaGet t j := by simp [arenaGet_arenaSet, h]

theorem arenaGet_arenaSet_self (t : Vector Node 513) {i : Nat} (n : Node) (h : i < 513) :
    arenaGet (arenaSet t i n) i = n := by simp [arenaGet_arenaSet, h]

/-! ## Past the tables, and emptied tables -/

theorem freqGet_past (t : Vector Count 257) {i : Nat} (h : 257 ≤ i) : freqGet t i = 0 := by
  simp [freqGet, Vector.getElem?_eq_none h]

theorem arenaGet_past (t : Vector Node 513) {i : Nat} (h : 513 ≤ i) : arenaGet t i = Node.empty := by
  simp [arenaGet, Vector.getElem?_eq_none h]

theorem codeGet_past (t : Vector CodeEntry 257) {i : Nat} (h : 257 ≤ i) : codeGet t i = CodeEntry.empty := by
  simp [codeGet, Vector.getElem?_eq_none h]

@[simp] theorem freqGet_cleared (i : Nat) : freqGet (Vector.replicate 257 0) i = 0 := by
  unfold freqGet
  by_cases h : i < 257 <;> simp [h]

@[simp] theorem arenaGet_emptied (i : Nat) : arenaGet (Vector.replicate 513 Node.empty) i = Node.empty := by
  unfold arenaGet
  by_cases h : i < 513 <;> simp [h]

@[simp] theorem codeGet_emptied (i : Nat) : codeGet (Vector.replicate 257 CodeEntry.empty) i = CodeEntry.empty := by
  unfold codeGet
  by_cases h : i < 257 <;> simp [h]

@[simp] theorem emptyNode_isLeaf : Node.empty.isLeaf = false := by decide

/-- Two arenas that read the same at every slot are equal. -/
theorem arena_ext {a b : Vector Node 513} (h : ∀ i, i < 513 → arenaGet a i = arenaGet b i) : a = b := by
  apply Vector.ext
  intro i hi
  simpa [arenaGet, hi] using h i hi

/-- Two code tables that read the same at every symbol are equal. -/
theorem codes_ext {a b : Vector CodeEntry 257} (h : ∀ i, i < 257 → codeGet a i = codeGet b i) : a = b := by
  apply Vector.ext
  intro i hi
  simpa [codeGet, hi] using h i hi

/-! ## Bit strings -/

theorem pathValue_lt (p : List Bool) : pathValue p < 2 ^ p.length := by
  induction p with
  | nil => simp [pathValue]
  | cons b rest ih =>
    have : b.toNat ≤ 1 := by cases b <;> simp
    simp only [pathValue, List.length_cons, Nat.pow_succ]
    omega

theorem pathValue_testBit (p : List Bool) (k : Nat) : (pathValue p).testBit k = (p[k]?).getD false := by
  induction p generalizing k with
  | nil => simp [pathValue]
  | cons b rest ih =>
    cases k with
    | zero => cases b <;> simp [pathValue, Nat.testBit_zero]
    | succ k =>
      have h : (b.toNat + 2 * pathValue rest) / 2 = pathValue rest := by
        have : b.toNat ≤ 1 := by cases b <;> simp
        omega
      simp [pathValue, Nat.testBit_succ, h, ih]

theorem ofPath_len {p : List Bool} (h : p.length ≤ 256) : (CodeEntry.ofPath p).len.toNat = p.length := by
  simp only [CodeEntry.ofPath, BitVec.toNat_ofNat]
  omega

theorem ofPath_bit {p : List Bool} {k : Nat} (h : p.length ≤ 256) :
    (CodeEntry.ofPath p).bit k = (p[k]?).getD false := by
  simp only [CodeEntry.ofPath, CodeEntry.bit, BitVec.getLsbD_ofNat, pathValue_testBit]
  by_cases hk : k < 256
  · simp [hk]
  · simp [hk, List.getElem?_eq_none (show p.length ≤ k by omega)]

/-- An entry made from a bit string holds that bit string (R58). -/
theorem ofPath_bits {p : List Bool} (h : p.length ≤ 256) : (CodeEntry.ofPath p).bits = p := by
  apply List.ext_getElem
  · simp [CodeEntry.bits, ofPath_len h]
  · intro k h1 h2
    simp [CodeEntry.bits, ofPath_bit h, h2]

theorem ofPath_nil : CodeEntry.ofPath [] = CodeEntry.empty := by decide

/-- Two bit strings of at most 256 bits with the same entry are the same. -/
theorem ofPath_injective {p q : List Bool} (hp : p.length ≤ 256) (hq : q.length ≤ 256)
    (h : CodeEntry.ofPath p = CodeEntry.ofPath q) : p = q := by
  rw [← ofPath_bits hp, ← ofPath_bits hq, h]

/-! ## Walks -/

theorem walk_append (node : Vector Node 513) (i : Slot) (p q : List Bool) :
    walk node i (p ++ q) = (walk node i p).bind fun j => walk node j q := by
  induction p generalizing i with
  | nil => simp [walk]
  | cons x p ih =>
    simp only [List.cons_append, walk]
    split
    · simp
    · exact ih _

theorem walk_leaf {node : Vector Node 513} {i : Slot} (h : (arenaGet node i.toNat).isLeaf = true) {x : Bool} {p : List Bool} :
    walk node i (x :: p) = none := by simp [walk, h]

end Sys2Proof.Machine
end

