-- ==== Sys2Proof/Laws/Invariant.lean ====
section
/-! SUPPORT. The invariants look at the block alone, and small facts that make one of them from another. -/

namespace Sys2Proof.Machine

/-- The codes of the invariant are legal entries (R58). -/
theorem codesLegal_of_inv {freq : Vector Count 257} {node : Vector Node 513} {root : Slot} {code : Vector CodeEntry 257}
    (h : CodesInv freq node root code) : CodesLegal code := by
  intro sym hs
  cases hp : present freq sym with
  | false => exact ⟨[], by decide, by rw [(h sym hs).1 hp, ofPath_nil]⟩
  | true =>
    obtain ⟨p, -, -, h256, he⟩ := (h sym hs).2 hp
    exact ⟨p, h256, he⟩

/-- The control invariant of a state whose engine is idle with a valid tree. -/
theorem controlInv_of_idle {s : State} (h1 : s.fsm = Config.fsmIdle) (h2 : s.sub = 0) (h3 : s.pq = []) (h4 : s.stack = [])
    (h5 : s.treeValid = true) (h6 : s.err.toNat ≤ 10) : ControlInv s where
  legal := by simp [State.legalEngine, h1, h2]
  pqEmpty := h3
  stackEmpty := h4
  codesNeedTree := fun _ => h5
  buildHasNoTree := fun h => by rw [h1] at h; exact absurd h (by decide)
  deriveHasTree := fun h => by rw [h1] at h; exact absurd h (by decide)
  encodeHasCodes := fun h => by rw [h1] at h; exact absurd h (by decide)
  decodeHasTree := fun _ => h5
  errListed := h6

/-- The block of one state in the surroundings of another. -/
def withSurroundings (s u : State) : State :=
  { s with
    rst := u.rst, symIn := u.symIn, bitIn := u.bitIn, bitOut := u.bitOut, symOut := u.symOut, bitOutReady := u.bitOutReady,
    symOutReady := u.symOutReady, hostProg := u.hostProg, hostReads := u.hostReads, turns := u.turns, draws := u.draws }

/-- The control invariant says nothing of the surroundings. -/
theorem ControlInv.surroundings {s : State} (h : ControlInv s) (u : State) : ControlInv (withSurroundings s u) :=
  ⟨h.legal, h.pqEmpty, h.stackEmpty, h.codesNeedTree, h.buildHasNoTree, h.deriveHasTree, h.encodeHasCodes, h.decodeHasTree,
    h.errListed⟩

/-- The whole invariant says nothing of the surroundings. -/
theorem MachineInv.surroundings {s : State} (h : MachineInv s) (u : State) : MachineInv (withSurroundings s u) :=
  ⟨h.control.surroundings u, h.slots, h.entries, h.tree, h.built, h.codes, h.emptyWhileBuilding, h.noCodesWhileDeriving,
    h.encoder, h.decoder⟩

end Sys2Proof.Machine
end

