-- ==== Sys2Proof/Laws/PerInstr.lean ====
section
/-! SUPPORT. Facts about each command as syntax, one lemma per constructor. -/

namespace Sys2Proof.Laws.Bytes

/-- The bytes that a CMD write of the command carries make its word again (R106, R130). -/
def Statement (i : Instr) : Prop := wordOfBytes (encodeBytes i) = some (encode i)

theorem nop : Statement .nop := wordOfBytes_bytesOfWord _
theorem clearFreq : Statement .clearFreq := wordOfBytes_bytesOfWord _
theorem buildTree : Statement .buildTree := wordOfBytes_bytesOfWord _
theorem deriveCodes : Statement .deriveCodes := wordOfBytes_bytesOfWord _
theorem encode : Statement .encode := wordOfBytes_bytesOfWord _
theorem decode : Statement .decode := wordOfBytes_bytesOfWord _
theorem release : Statement .release := wordOfBytes_bytesOfWord _
theorem abort : Statement .abort := wordOfBytes_bytesOfWord _
theorem illegal (w : Word) : Statement (.illegal w) := wordOfBytes_bytesOfWord _

end Sys2Proof.Laws.Bytes
end

