-- ==== Sys2Proof/Laws/Step.lean ====
section
/-! SUPPORT. What the engine's step, a host access and the machine's step can do: one inversion lemma each. -/

namespace Sys2Proof.Machine

/-! ## The engine -/

theorem engineStep_idle {s : State} (h : s.fsm = Config.fsmIdle) : engineStep s = s := by
  simp [engineStep, h, Config.fsmIdle, Config.fsmBuild, Config.fsmDerive, Config.fsmEncode, Config.fsmDecode]

theorem engineStep_build {s : State} (h : s.fsm = Config.fsmBuild) (hs : s.sub = 0) : engineStep s = buildStep s := by
  simp [engineStep, h, hs]

theorem engineStep_derive {s : State} (h : s.fsm = Config.fsmDerive) (hs : s.sub = 0) : engineStep s = deriveStep s := by
  simp [engineStep, h, hs, Config.fsmBuild, Config.fsmDerive]

theorem engineStep_encode {s : State} (h : s.fsm = Config.fsmEncode) : engineStep s = encodeStep s := by
  simp [engineStep, h, Config.fsmBuild, Config.fsmDerive, Config.fsmEncode]

theorem engineStep_decode {s : State} (h : s.fsm = Config.fsmDecode) : engineStep s = decodeStep s := by
  simp [engineStep, h, Config.fsmBuild, Config.fsmDerive, Config.fsmEncode, Config.fsmDecode]

/-- In a state whose `fsm` and `sub` R64 does not list together, the engine is stuck (U6). -/
theorem engineStep_stuck {s : State} (h : s.legalEngine = false) : engineStep s = s := by
  unfold State.legalEngine at h
  unfold engineStep encodeStep decodeStep
  split_ifs at h ⊢ <;>
    simp_all [Config.fsmIdle, Config.fsmBuild, Config.fsmDerive, Config.fsmEncode, Config.fsmDecode, Config.encWaitSym,
      Config.encShift, Config.encShiftEos, Config.decWaitBit, Config.decEmit]

/-- What the engine's step is in each state (R164). -/
theorem engineStep_cases (s : State) :
    (s.fsm = Config.fsmBuild ∧ engineStep s = buildStep s) ∨ (s.fsm = Config.fsmDerive ∧ engineStep s = deriveStep s) ∨
      (s.fsm = Config.fsmEncode ∧ engineStep s = encodeStep s) ∨ (s.fsm = Config.fsmDecode ∧ engineStep s = decodeStep s) ∨
      engineStep s = s := by
  by_cases h1 : s.fsm = Config.fsmBuild ∧ s.sub = 0
  · exact .inl ⟨h1.1, engineStep_build h1.1 h1.2⟩
  by_cases h2 : s.fsm = Config.fsmDerive ∧ s.sub = 0
  · exact .inr (.inl ⟨h2.1, engineStep_derive h2.1 h2.2⟩)
  by_cases h3 : s.fsm = Config.fsmEncode
  · exact .inr (.inr (.inl ⟨h3, engineStep_encode h3⟩))
  by_cases h4 : s.fsm = Config.fsmDecode
  · exact .inr (.inr (.inr (.inl ⟨h4, engineStep_decode h4⟩)))
  · exact .inr (.inr (.inr (.inr (by
      rw [engineStep, if_neg h1, if_neg h2, if_neg h3, if_neg h4]))))

/-- What the execution step of BUILD_TREE can do (R203, R204). -/
theorem buildStep_cases (s : State) :
    ((presentSyms s.freq).length = 0 ∧ buildStep s = complete ErrCode.emptyMap.code 0 s) ∨
      ((presentSyms s.freq).length ≠ 0 ∧ s.freqAt Config.eos = 0 ∧
        buildStep s = complete ErrCode.noEos.code (BitVec.ofNat 32 (presentSyms s.freq).length) s) ∨
      (s.freqAt Config.eos ≠ 0 ∧
        buildStep s = completeBuild (insertLeaves s.freq s.node).next
          (mergeLoop (insertLeaves s.freq s.node).pq.length (insertLeaves s.freq s.node)) s) := by
  by_cases h1 : (presentSyms s.freq).length = 0
  · exact .inl ⟨h1, by unfold buildStep; rw [if_pos h1]; rfl⟩
  by_cases h2 : s.freqAt Config.eos = 0
  · exact .inr (.inl ⟨h1, h2, by unfold buildStep; rw [if_neg h1, if_pos h2]; rfl⟩)
  · exact .inr (.inr ⟨h2, by unfold buildStep; rw [if_neg h1, if_neg h2]⟩)

/-- What the execution step of DERIVE_CODES can do (R231 to R236). -/
theorem deriveStep_cases (s : State) :
    ((s.nodeAt s.rootIdx).isLeaf = true ∧
        deriveStep s = complete 0 0 { s with
          code := codeSet s.code (s.nodeAt s.rootIdx).sym.toNat (CodeEntry.ofPath [false]), codesValid := true }) ∨
      ((s.nodeAt s.rootIdx).isLeaf = false ∧
        ∃ w, deriveLoop s.node 513 { code := s.code, stack := [(s.rootIdx, [])] } = some w ∧
          deriveStep s = complete 0 0 { s with code := w.code, codesValid := true }) ∨
      ((s.nodeAt s.rootIdx).isLeaf = false ∧
        deriveLoop s.node 513 { code := s.code, stack := [(s.rootIdx, [])] } = none ∧ deriveStep s = s) := by
  by_cases h1 : (s.nodeAt s.rootIdx).isLeaf = true
  · exact .inl ⟨h1, by unfold deriveStep; rw [if_pos h1]; rfl⟩
  have h1' : (s.nodeAt s.rootIdx).isLeaf = false := by simpa using h1
  cases hl : deriveLoop s.node 513 { code := s.code, stack := [(s.rootIdx, [])] } with
  | none => exact .inr (.inr ⟨h1', rfl, by unfold deriveStep; rw [if_neg h1]; simp only [Config.maxNodes, hl]⟩)
  | some w =>
    refine .inr (.inl ⟨h1', w, rfl, ?_⟩)
    unfold deriveStep
    rw [if_neg h1]
    simp only [Config.maxNodes, hl]
    rfl

/-- What the ENC_WAIT_SYM step can do (R254). -/
theorem encWaitSymStep_cases (s : State) :
    (s.symIn = [] ∧ encWaitSymStep s = s) ∨
      (∃ b rest, s.symIn = .byte b :: rest ∧
        (((s.codeAt (b.setWidth 9)).len = 0 ∧
            encWaitSymStep s = complete ErrCode.noCode.code (b.setWidth 32) { s with symIn := rest }) ∨
          ((s.codeAt (b.setWidth 9)).len ≠ 0 ∧ s.symCount = Config.counterMax ∧
            encWaitSymStep s = complete ErrCode.countOverflow.code 1 { s with symIn := rest }) ∨
          ((s.codeAt (b.setWidth 9)).len ≠ 0 ∧ s.symCount ≠ Config.counterMax ∧
            encWaitSymStep s = { s with
              symIn := rest, symCount := s.symCount + 1#64, encSym := b.setWidth 9, encK := 0, sub := Config.encShift }))) ∨
      (∃ rest, s.symIn = .endOfSource :: rest ∧
        encWaitSymStep s = { s with symIn := rest, encSym := Config.eos, encK := 0, sub := Config.encShiftEos }) := by
  cases hq : s.symIn with
  | nil => exact .inl ⟨rfl, by simp [encWaitSymStep, hq]⟩
  | cons item rest =>
    cases item with
    | endOfSource => exact .inr (.inr ⟨rest, rfl, by simp [encWaitSymStep, hq, encodeEnd]⟩)
    | byte b =>
      refine .inr (.inl ⟨b, rest, rfl, ?_⟩)
      by_cases h1 : (s.codeAt (b.setWidth 9)).len = 0
      · exact .inl ⟨h1, by simp only [encWaitSymStep, hq, encodeByte]; rw [if_pos (by exact h1)]; rfl⟩
      by_cases h2 : s.symCount = Config.counterMax
      · exact .inr (.inl ⟨h1, h2, by
          simp only [encWaitSymStep, hq, encodeByte]; rw [if_neg (by exact h1), if_pos (by exact h2)]; rfl⟩)
      · exact .inr (.inr ⟨h1, h2, by
          simp only [encWaitSymStep, hq, encodeByte]; rw [if_neg (by exact h1), if_neg (by exact h2)]⟩)

/-- What the ENC_SHIFT step can do (R256). -/
theorem encShiftStep_cases (s : State) :
    (s.bitOutReady = false ∧ encShiftStep s = s) ∨
      (s.bitOutReady = true ∧ s.bitCount = Config.counterMax ∧
        encShiftStep s = complete ErrCode.countOverflow.code 0 s) ∨
      (s.bitOutReady = true ∧ s.bitCount ≠ Config.counterMax ∧
        encShiftStep s = { s with
          bitOut := s.bitOut ++ [(s.codeAt s.encSym).bit s.encK.toNat], bitCount := s.bitCount + 1#64, encK := s.encK + 1#9,
          sub := if s.encK + 1#9 = (s.codeAt s.encSym).len then Config.encWaitSym else s.sub }) := by
  cases hr : s.bitOutReady with
  | false => exact .inl ⟨rfl, by simp [encShiftStep, hr]⟩
  | true =>
    by_cases h2 : s.bitCount = Config.counterMax
    · exact .inr (.inl ⟨rfl, h2, by simp [encShiftStep, hr, h2]⟩)
    · refine .inr (.inr ⟨rfl, h2, ?_⟩)
      by_cases h3 : s.encK + 1#9 = (s.codeAt s.encSym).len <;> simp [encShiftStep, hr, h2, shiftBit, giveBit, h3]

/-- What the ENC_SHIFT_EOS step can do (R258). -/
theorem encShiftEosStep_cases (s : State) :
    (s.bitOutReady = false ∧ encShiftEosStep s = s) ∨
      (s.bitOutReady = true ∧ s.bitCount = Config.counterMax ∧
        encShiftEosStep s = complete ErrCode.countOverflow.code 0 s) ∨
      (s.bitOutReady = true ∧ s.bitCount ≠ Config.counterMax ∧ s.encK + 1#9 ≠ (s.codeAt Config.eos).len ∧
        encShiftEosStep s = { s with
          bitOut := s.bitOut ++ [(s.codeAt Config.eos).bit s.encK.toNat], bitCount := s.bitCount + 1#64, encK := s.encK + 1#9 }) ∨
      (s.bitOutReady = true ∧ s.bitCount ≠ Config.counterMax ∧ s.encK + 1#9 = (s.codeAt Config.eos).len ∧
        encShiftEosStep s = complete 0 0 { s with
          bitOut := s.bitOut ++ [(s.codeAt Config.eos).bit s.encK.toNat], bitCount := s.bitCount + 1#64, encK := s.encK + 1#9 }) := by
  cases hr : s.bitOutReady with
  | false => exact .inl ⟨rfl, by simp [encShiftEosStep, hr]⟩
  | true =>
    by_cases h2 : s.bitCount = Config.counterMax
    · exact .inr (.inl ⟨rfl, h2, by simp [encShiftEosStep, hr, h2]⟩)
    · by_cases h3 : s.encK + 1#9 = (s.codeAt Config.eos).len
      · exact .inr (.inr (.inr ⟨rfl, h2, h3, by simp [encShiftEosStep, hr, h2, shiftBit, giveBit, h3]⟩))
      · exact .inr (.inr (.inl ⟨rfl, h2, h3, by simp [encShiftEosStep, hr, h2, shiftBit, giveBit, h3]⟩))

/-- Which step ENCODE takes (R164). -/
theorem encodeStep_cases (s : State) :
    (s.sub = Config.encWaitSym ∧ encodeStep s = encWaitSymStep s) ∨ (s.sub = Config.encShift ∧ encodeStep s = encShiftStep s) ∨
      (s.sub = Config.encShiftEos ∧ encodeStep s = encShiftEosStep s) ∨ encodeStep s = s := by
  by_cases h1 : s.sub = Config.encWaitSym
  · exact .inl ⟨h1, by simp [encodeStep, h1]⟩
  by_cases h2 : s.sub = Config.encShift
  · exact .inr (.inl ⟨h2, by simp [encodeStep, h2, Config.encWaitSym, Config.encShift]⟩)
  by_cases h3 : s.sub = Config.encShiftEos
  · exact .inr (.inr (.inl ⟨h3, by simp [encodeStep, h3, Config.encWaitSym, Config.encShift, Config.encShiftEos]⟩))
  · exact .inr (.inr (.inr (by simp [encodeStep, h1, h2, h3])))

/-- Where a move to `nxt` leads (R284, R288, R289). -/
theorem arrive_cases (nxt : Slot) (s : State) :
    ((s.nodeAt nxt).isLeaf = true ∧ (s.nodeAt nxt).sym = Config.eos ∧ arrive nxt s = complete 0 0 { s with decCur := nxt }) ∨
      ((s.nodeAt nxt).isLeaf = true ∧ (s.nodeAt nxt).sym ≠ Config.eos ∧
        arrive nxt s = { s with decCur := nxt, decOut := (s.nodeAt nxt).sym.setWidth 8, sub := Config.decEmit }) ∨
      ((s.nodeAt nxt).isLeaf = false ∧ arrive nxt s = { s with decCur := nxt }) := by
  by_cases h1 : (s.nodeAt nxt).isLeaf = true
  · by_cases h2 : (s.nodeAt nxt).sym = Config.eos
    · exact .inl ⟨h1, h2, by simp [arrive, h1, h2]⟩
    · exact .inr (.inl ⟨h1, h2, by simp [arrive, h1, h2]⟩)
  · exact .inr (.inr ⟨by simpa using h1, by simp [arrive, h1]⟩)

/-- What the DEC_WAIT_BIT step can do (R284). -/
theorem decWaitBitStep_cases (s : State) :
    (s.bitIn = [] ∧ decWaitBitStep s = s) ∨
      (∃ rest, s.bitIn = .eof :: rest ∧
        decWaitBitStep s = complete ErrCode.truncated.code (s.decCur.setWidth 32) { s with bitIn := rest }) ∨
      (∃ x rest, s.bitIn = .bit x :: rest ∧
        ((s.bitCount = Config.counterMax ∧
            decWaitBitStep s = complete ErrCode.countOverflow.code 0 { s with bitIn := rest }) ∨
          (s.bitCount ≠ Config.counterMax ∧ nextSlot s.node s.decCur x = none ∧
            decWaitBitStep s = complete ErrCode.desync.code (desyncInfo s.decCur x)
              { s with bitIn := rest, bitCount := s.bitCount + 1#64 }) ∨
          (s.bitCount ≠ Config.counterMax ∧ ∃ nxt, nextSlot s.node s.decCur x = some nxt ∧
            decWaitBitStep s = arrive nxt { s with bitIn := rest, bitCount := s.bitCount + 1#64 }))) := by
  cases hq : s.bitIn with
  | nil => exact .inl ⟨rfl, by simp [decWaitBitStep, hq]⟩
  | cons item rest =>
    cases item with
    | eof => exact .inr (.inl ⟨rest, rfl, by simp [decWaitBitStep, hq]⟩)
    | bit x =>
      refine .inr (.inr ⟨x, rest, rfl, ?_⟩)
      by_cases h1 : s.bitCount = Config.counterMax
      · exact .inl ⟨h1, by simp [decWaitBitStep, hq, decodeBit, h1]⟩
      · cases hn : nextSlot s.node s.decCur x with
        | none => exact .inr (.inl ⟨h1, rfl, by simp [decWaitBitStep, hq, decodeBit, h1, hn]⟩)
        | some nxt => exact .inr (.inr ⟨h1, nxt, rfl, by simp [decWaitBitStep, hq, decodeBit, h1, hn]⟩)

/-- What the DEC_EMIT step can do (R290). -/
theorem decEmitStep_cases (s : State) :
    (s.symOutReady = false ∧ decEmitStep s = s) ∨
      (s.symOutReady = true ∧ s.symCount = Config.counterMax ∧ decEmitStep s = complete ErrCode.countOverflow.code 1 s) ∨
      (s.symOutReady = true ∧ s.symCount ≠ Config.counterMax ∧
        decEmitStep s = { s with
          symOut := s.symOut ++ [s.decOut], symCount := s.symCount + 1#64, decCur := s.rootIdx, sub := Config.decWaitBit }) := by
  cases hr : s.symOutReady with
  | false => exact .inl ⟨rfl, by simp [decEmitStep, hr]⟩
  | true =>
    by_cases h2 : s.symCount = Config.counterMax
    · exact .inr (.inl ⟨rfl, h2, by simp [decEmitStep, hr, h2]⟩)
    · exact .inr (.inr ⟨rfl, h2, by simp [decEmitStep, hr, h2, giveSym]⟩)

/-- Which step DECODE takes (R164). -/
theorem decodeStep_cases (s : State) :
    (s.sub = Config.decWaitBit ∧ decodeStep s = decWaitBitStep s) ∨ (s.sub = Config.decEmit ∧ decodeStep s = decEmitStep s) ∨
      decodeStep s = s := by
  by_cases h1 : s.sub = Config.decWaitBit
  · exact .inl ⟨h1, by simp [decodeStep, h1]⟩
  by_cases h2 : s.sub = Config.decEmit
  · exact .inr (.inl ⟨h2, by simp [decodeStep, h2, Config.decWaitBit, Config.decEmit]⟩)
  · exact .inr (.inr (by simp [decodeStep, h1, h2]))

/-! ## Host accesses -/

/-- A register read returns a value and changes nothing but the count of draws (R109). -/
theorem memRead_state (off : BitVec 8) (s : State) : (memRead off s).2 = { s with draws := (memRead off s).2.draws } := by
  unfold memRead
  split
  · rfl
  · split <;> rfl

/-- The registers' offsets are distinct: each offset finds its own register (R31). -/
@[simp] theorem regAt_offset (r : Reg) : Reg.at? r.offset = some r := by cases r <;> decide

theorem offset_of_regAt {off : BitVec 8} {r : Reg} (h : Reg.at? off = some r) : r.offset = off := by
  simpa using List.find?_some h

/-- Which reads are exact (R66): all but the windows of BUILD and the code window of DERIVE. -/
theorem memRead_exact {r : Reg} {s : State} (h : s.unspecified r = false) : memRead r.offset s = (readReg s r, s) := by
  simp [memRead, h]

theorem memRead_unspecified {r : Reg} {s : State} (h : s.unspecified r = true) :
    memRead r.offset s = (Config.freeWord s.draws, { s with draws := s.draws + 1 }) := by simp [memRead, h]

/-- A host write of a register other than CMD (R110): the STATUS, CTRL and selector writes, the FREQ_DATA write at its own offset, or
nothing. -/
theorem memWrite_cases (off : BitVec 8) (v : Word) (s : State) :
    memWrite off v s = s ∨ memWrite off v s = writeStatus v s ∨ memWrite off v s = writeCtrl v s ∨
      memWrite off v s = writeFreqSel v s ∨ memWrite off v s = writeNodeSel v s ∨ memWrite off v s = writeCodeSel v s ∨
      memWrite off v s = writeCodeWordSel v s ∨ (off = 0x18 ∧ memWrite off v s = writeFreqData v s) := by
  unfold memWrite
  split
  · exact .inl rfl
  · rename_i r hr
    have hoff := offset_of_regAt hr
    cases r <;> simp [writeReg]
    exact .inr (.inr (.inr (.inr (.inr (.inr (.inr hoff.symm))))))

/-- What the FREQ_DATA write can do (R182, R183). -/
theorem writeFreqData_cases (v : Word) (s : State) :
    (s.fsm ≠ Config.fsmIdle ∧ writeFreqData v s = dropWrite s) ∨
      (s.fsm = Config.fsmIdle ∧ (256 < s.freqSel.toNat ∨ s.freqAt s.freqSel = v) ∧ writeFreqData v s = s) ∨
      (s.fsm = Config.fsmIdle ∧ s.freqSel.toNat ≤ 256 ∧ s.freqAt s.freqSel ≠ v ∧
        writeFreqData v s = { s with
          freq := freqSet s.freq s.freqSel.toNat v, treeValid := false, codesValid := false }) := by
  by_cases h1 : s.fsm = Config.fsmIdle
  · by_cases h2 : 256 < s.freqSel.toNat
    · exact .inr (.inl ⟨h1, .inl h2, by simp [writeFreqData, h1, h2]⟩)
    · by_cases h3 : s.freqAt s.freqSel = v
      · exact .inr (.inl ⟨h1, .inr h3, by simp [writeFreqData, h1, h3]⟩)
      · exact .inr (.inr ⟨h1, by omega, h3, by simp [writeFreqData, h1, h2, h3, invalidate]⟩)
  · exact .inl ⟨h1, by simp [writeFreqData, h1]⟩

theorem wordOfBytes_isSome {bytes : List Byte} (h : bytes.length = 4) : ∃ w, wordOfBytes bytes = some w := by
  match bytes, h with
  | [b0, b1, b2, b3], _ => exact ⟨_, rfl⟩

/-- What a host write can do: a command, a register write, or a refusal of its width or alignment (R103). -/
theorem hostWrite_cases (off : BitVec 8) (bytes : List Byte) (s : State) :
    (accessOk off bytes.length = true ∧ off = 0x04 ∧ ∃ i, decode bytes = .ok i ∧ hostWrite off bytes s = exec i s) ∨
      (accessOk off bytes.length = true ∧ off ≠ 0x04 ∧
        ∃ v, wordOfBytes bytes = some v ∧ hostWrite off bytes s = .next (memWrite off v s)) ∨
      (accessOk off bytes.length = false ∧ hostWrite off bytes s = .refused (.undefinedAccess off bytes.length)) := by
  by_cases h : accessOk off bytes.length = true
  · obtain ⟨w, hw⟩ := wordOfBytes_isSome (bytes := bytes) (by simp [accessOk] at h; exact h.1)
    have hd : decode bytes = .ok (decodeWord w) := by simp [decode, hw]
    by_cases hc : off = 0x04
    · exact .inl ⟨h, hc, decodeWord w, hd, by
        unfold hostWrite
        rw [if_pos h, if_pos (by exact hc), hd]⟩
    · exact .inr (.inl ⟨h, hc, w, hw, by simp only [hostWrite, h, Reg.offset, if_true, if_neg hc, hw]⟩)
  · exact .inr (.inr ⟨by simpa using h, by simp [hostWrite, h]⟩)

/-- What the host's turn can do when it has a next state. -/
theorem hostTurn_cases {s t : State} (h : hostTurn s = .next t) :
    (s.hostProg = [] ∧ t = s) ∨
      (∃ off rest, s.hostProg = .read off 4 :: rest ∧ off.toNat % 4 = 0 ∧
        t = recordRead (memRead off { s with hostProg := rest })) ∨
      (∃ bytes rest i, s.hostProg = .write 0x04 bytes :: rest ∧ decode bytes = .ok i ∧
        exec i { s with hostProg := rest } = .next t) ∨
      (∃ off bytes rest v, s.hostProg = .write off bytes :: rest ∧ off ≠ 0x04 ∧ wordOfBytes bytes = some v ∧
        t = memWrite off v { s with hostProg := rest }) ∨
      (∃ rest, s.hostProg = .wait :: rest ∧ t = hostWait { s with hostProg := rest }) := by
  cases hp : s.hostProg with
  | nil => exact .inl ⟨rfl, by simpa [hostTurn, hp] using h.symm⟩
  | cons op rest =>
    simp only [hostTurn, hp] at h
    cases op with
    | read off width =>
      simp only [hostRead] at h
      split at h
      · rename_i ha
        simp only [accessOk, decide_eq_true_eq] at ha
        obtain ⟨rfl, hoff⟩ := ha
        exact .inr (.inl ⟨off, rest, rfl, hoff, by simpa using h.symm⟩)
      · simp at h
    | write off bytes =>
      replace h : hostWrite off bytes { s with hostProg := rest } = .next t := h
      rcases hostWrite_cases off bytes { s with hostProg := rest } with ⟨_, rfl, i, hd, he⟩ | ⟨_, hc, v, hv, he⟩ | ⟨_, he⟩
      · exact .inr (.inr (.inl ⟨bytes, rest, i, rfl, hd, he ▸ h⟩))
      · exact .inr (.inr (.inr (.inl ⟨off, bytes, rest, v, rfl, hc, hv, by rw [he] at h; simpa using h.symm⟩)))
      · rw [he] at h; simp at h
    | wait => exact .inr (.inr (.inr (.inr ⟨rest, rfl, by simpa using h.symm⟩)))

/-! ## The machine's step -/

theorem step_noTurns {s : State} (h : s.turns = []) : step s = .next s := by simp [step, nextStep, h]

theorem step_turn {s : State} {x : Turn} {rest : List Turn} (h : s.turns = x :: rest) :
    step s = agentStep x { s with turns := rest } := by simp [step, nextStep, h]

theorem step_engine {s : State} {rest : List Turn} (h : s.turns = .engine :: rest) (hr : s.rst = false) :
    step s = .next (engineStep { s with turns := rest }) := by simp [step_turn h, agentStep, hr]

/-- Everything a step can do when it has a next state, by the agent that takes it; `s0` is the state with the turn taken off the
schedule. -/
theorem step_cases {s t : State} (h : step s = .next t) :
    (s.turns = [] ∧ t = s) ∨
      ∃ x rest s0, s.turns = x :: rest ∧ s0 = { s with turns := rest } ∧
        (((x = .host ∨ x = .engine) ∧ s.rst = true ∧ t = s0) ∨
          (x = .host ∧ s.rst = false ∧ hostTurn s0 = .next t) ∨
          (x = .engine ∧ s.rst = false ∧ t = engineStep s0) ∨
          (∃ act, x = .byteSource act ∧ t = { s0 with symIn := act.apply s0.symIn }) ∨
          (∃ act, x = .bitSource act ∧ t = { s0 with bitIn := act.apply s0.bitIn }) ∨
          (∃ ready, x = .bitSink ready ∧ t = { s0 with bitOutReady := ready }) ∨
          (∃ ready, x = .byteSink ready ∧ t = { s0 with symOutReady := ready }) ∨
          (x = .rst true ∧ t = { resetStep s0 with rst := true }) ∨
          (x = .rst false ∧ t = { s0 with rst := false })) := by
  cases hq : s.turns with
  | nil => exact .inl ⟨rfl, by rw [step_noTurns hq] at h; simpa using h.symm⟩
  | cons x rest =>
    refine .inr ⟨x, rest, { s with turns := rest }, rfl, rfl, ?_⟩
    rw [step_turn hq] at h
    cases x with
    | host =>
      cases hr : s.rst with
      | true => exact .inl ⟨.inl rfl, rfl, by simpa [agentStep, hr] using h.symm⟩
      | false => exact .inr (.inl ⟨rfl, rfl, by simpa [agentStep, hr] using h⟩)
    | engine =>
      cases hr : s.rst with
      | true => exact .inl ⟨.inr rfl, rfl, by simpa [agentStep, hr] using h.symm⟩
      | false => exact .inr (.inr (.inl ⟨rfl, rfl, by simpa [agentStep, hr] using h.symm⟩))
    | byteSource act => exact .inr (.inr (.inr (.inl ⟨act, rfl, by simpa [agentStep] using h.symm⟩)))
    | bitSource act => exact .inr (.inr (.inr (.inr (.inl ⟨act, rfl, by simpa [agentStep] using h.symm⟩))))
    | bitSink ready => exact .inr (.inr (.inr (.inr (.inr (.inl ⟨ready, rfl, by simpa [agentStep] using h.symm⟩)))))
    | byteSink ready => exact .inr (.inr (.inr (.inr (.inr (.inr (.inl ⟨ready, rfl, by simpa [agentStep] using h.symm⟩))))))
    | rst level =>
      cases level with
      | true => exact .inr (.inr (.inr (.inr (.inr (.inr (.inr (.inl ⟨rfl, by simpa [agentStep, rstTurn] using h.symm⟩)))))))
      | false => exact .inr (.inr (.inr (.inr (.inr (.inr (.inr (.inr ⟨rfl, by simpa [agentStep, rstTurn] using h.symm⟩)))))))

/-- No step faults (R113, R333). -/
theorem step_no_fault (s : State) (f : Fault) : step s ≠ .fault f := by cases f

end Sys2Proof.Machine
end

