-- ==== Sys2Proof/Laws/Run.lean ====
section
/-! SUPPORT. The engine's steps do not look at the schedule, so a run of engine turns is the engine's step iterated. -/

namespace Sys2Proof.Machine

/-- The state with another schedule. -/
def setTurns (ts : List Turn) (s : State) : State := { s with turns := ts }

theorem buildStep_turns (ts : List Turn) (s : State) : buildStep (setTurns ts s) = setTurns ts (buildStep s) := by
  by_cases h1 : (presentSyms s.freq).length = 0
  · have h1' : (presentSyms (setTurns ts s).freq).length = 0 := h1
    rw [buildStep, buildStep, if_pos h1, if_pos h1']; rfl
  · have h1' : ¬(presentSyms (setTurns ts s).freq).length = 0 := h1
    by_cases h2 : s.freqAt Config.eos = 0
    · have h2' : (setTurns ts s).freqAt Config.eos = 0 := h2
      rw [buildStep, buildStep, if_neg h1, if_neg h1', if_pos h2, if_pos h2']; rfl
    · have h2' : ¬(setTurns ts s).freqAt Config.eos = 0 := h2
      rw [buildStep, buildStep, if_neg h1, if_neg h1', if_neg h2, if_neg h2']; rfl

theorem deriveStep_turns (ts : List Turn) (s : State) : deriveStep (setTurns ts s) = setTurns ts (deriveStep s) := by
  by_cases h1 : (s.nodeAt s.rootIdx).isLeaf = true
  · have h1' : ((setTurns ts s).nodeAt (setTurns ts s).rootIdx).isLeaf = true := h1
    rw [deriveStep, deriveStep, if_pos h1, if_pos h1']; rfl
  · have h1' : ¬((setTurns ts s).nodeAt (setTurns ts s).rootIdx).isLeaf = true := h1
    rw [deriveStep, deriveStep, if_neg h1, if_neg h1']
    change (match deriveLoop s.node Config.maxNodes { code := s.code, stack := [(s.rootIdx, [])] } with
      | some w => _ | none => _) = _
    cases deriveLoop s.node Config.maxNodes { code := s.code, stack := [(s.rootIdx, [])] } <;> rfl

theorem encWaitSymStep_turns (ts : List Turn) (s : State) :
    encWaitSymStep (setTurns ts s) = setTurns ts (encWaitSymStep s) := by
  rcases encWaitSymStep_cases s with ⟨h0, h⟩ | ⟨b, r, h0, ⟨h1, h⟩ | ⟨h1, h2, h⟩ | ⟨h1, h2, h⟩⟩ | ⟨r, h0, h⟩ <;> rw [h]
  · have h0' : (setTurns ts s).symIn = [] := h0
    simp [encWaitSymStep, h0']
  all_goals
    have h0' : (setTurns ts s).symIn = _ := h0
    rw [encWaitSymStep, h0']
  · have h1' : (State.codeAt { setTurns ts s with symIn := r } (b.setWidth 9)).len = 0 := h1
    simp only [encodeByte, if_pos h1']; rfl
  · have h1' : ¬(State.codeAt { setTurns ts s with symIn := r } (b.setWidth 9)).len = 0 := h1
    have h2' : (setTurns ts s).symCount = Config.counterMax := h2
    simp only [encodeByte, if_neg h1', if_pos h2']; rfl
  · have h1' : ¬(State.codeAt { setTurns ts s with symIn := r } (b.setWidth 9)).len = 0 := h1
    have h2' : ¬(setTurns ts s).symCount = Config.counterMax := h2
    simp only [encodeByte, if_neg h1', if_neg h2']; rfl
  · rfl

theorem encShiftStep_turns (ts : List Turn) (s : State) : encShiftStep (setTurns ts s) = setTurns ts (encShiftStep s) := by
  rcases encShiftStep_cases s with ⟨h1, h⟩ | ⟨h1, h2, h⟩ | ⟨h1, h2, h⟩ <;>
    rcases encShiftStep_cases (setTurns ts s) with ⟨k1, k⟩ | ⟨k1, k2, k⟩ | ⟨k1, k2, k⟩ <;>
    first
    | (rw [h]; exact k)
    | exact absurd (h1.symm.trans k1) (by decide)
    | exact absurd h2 k2
    | exact absurd k2 h2

theorem encShiftEosStep_turns (ts : List Turn) (s : State) :
    encShiftEosStep (setTurns ts s) = setTurns ts (encShiftEosStep s) := by
  rcases encShiftEosStep_cases s with ⟨h1, h⟩ | ⟨h1, h2, h⟩ | ⟨h1, h2, h3, h⟩ | ⟨h1, h2, h3, h⟩ <;>
    rcases encShiftEosStep_cases (setTurns ts s) with ⟨k1, k⟩ | ⟨k1, k2, k⟩ | ⟨k1, k2, k3, k⟩ | ⟨k1, k2, k3, k⟩ <;>
    first
    | exact absurd (h1.symm.trans k1) (by decide)
    | exact absurd h2 k2
    | exact absurd k2 h2
    | exact absurd h3 k3
    | exact absurd k3 h3
    | (rw [h]; exact k)

theorem encodeStep_turns (ts : List Turn) (s : State) : encodeStep (setTurns ts s) = setTurns ts (encodeStep s) := by
  change (if s.sub = Config.encWaitSym then encWaitSymStep (setTurns ts s)
    else if s.sub = Config.encShift then encShiftStep (setTurns ts s)
    else if s.sub = Config.encShiftEos then encShiftEosStep (setTurns ts s) else setTurns ts s) = _
  rw [encWaitSymStep_turns, encShiftStep_turns, encShiftEosStep_turns, encodeStep]
  simp only [apply_ite (setTurns ts)]

theorem arrive_turns (ts : List Turn) (nxt : Slot) (s : State) : arrive nxt (setTurns ts s) = setTurns ts (arrive nxt s) := by
  rcases arrive_cases nxt s with ⟨h1, h2, h⟩ | ⟨h1, h2, h⟩ | ⟨h1, h⟩ <;>
    rcases arrive_cases nxt (setTurns ts s) with ⟨k1, k2, k⟩ | ⟨k1, k2, k⟩ | ⟨k1, k⟩ <;>
    first
    | exact absurd (h1.symm.trans k1) (by decide)
    | exact absurd h2 k2
    | exact absurd k2 h2
    | (rw [h]; exact k)

theorem decWaitBitStep_turns (ts : List Turn) (s : State) :
    decWaitBitStep (setTurns ts s) = setTurns ts (decWaitBitStep s) := by
  rcases decWaitBitStep_cases s with ⟨h0, h⟩ | ⟨r, h0, h⟩ | ⟨x, r, h0, ⟨h1, h⟩ | ⟨h1, h2, h⟩ | ⟨h1, n, h2, h⟩⟩ <;> rw [h]
  · have h0' : (setTurns ts s).bitIn = [] := h0
    simp [decWaitBitStep, h0']
  all_goals
    have h0' : (setTurns ts s).bitIn = _ := h0
    rw [decWaitBitStep, h0']
  · rfl
  · have h1' : (setTurns ts s).bitCount = Config.counterMax := h1
    simp only [decodeBit, if_pos h1']; rfl
  all_goals
    have h1' : ¬(setTurns ts s).bitCount = Config.counterMax := h1
    have h2' : nextSlot (setTurns ts s).node (setTurns ts s).decCur x = _ := h2
    simp only [decodeBit, if_neg h1', h2']
  · rfl
  · exact arrive_turns ts n { s with bitIn := r, bitCount := s.bitCount + 1#64 }

theorem decEmitStep_turns (ts : List Turn) (s : State) : decEmitStep (setTurns ts s) = setTurns ts (decEmitStep s) := by
  rcases decEmitStep_cases s with ⟨h1, h⟩ | ⟨h1, h2, h⟩ | ⟨h1, h2, h⟩ <;>
    rcases decEmitStep_cases (setTurns ts s) with ⟨k1, k⟩ | ⟨k1, k2, k⟩ | ⟨k1, k2, k⟩ <;>
    first
    | exact absurd (h1.symm.trans k1) (by decide)
    | exact absurd h2 k2
    | exact absurd k2 h2
    | (rw [h]; exact k)

theorem decodeStep_turns (ts : List Turn) (s : State) : decodeStep (setTurns ts s) = setTurns ts (decodeStep s) := by
  change (if s.sub = Config.decWaitBit then decWaitBitStep (setTurns ts s)
    else if s.sub = Config.decEmit then decEmitStep (setTurns ts s) else setTurns ts s) = _
  rw [decWaitBitStep_turns, decEmitStep_turns, decodeStep]
  simp only [apply_ite (setTurns ts)]

/-- The engine's step commutes with a change of the schedule. -/
theorem engineStep_turns (ts : List Turn) (s : State) : engineStep (setTurns ts s) = setTurns ts (engineStep s) := by
  change (if s.fsm = Config.fsmBuild ∧ s.sub = 0 then buildStep (setTurns ts s)
    else if s.fsm = Config.fsmDerive ∧ s.sub = 0 then deriveStep (setTurns ts s)
    else if s.fsm = Config.fsmEncode then encodeStep (setTurns ts s)
    else if s.fsm = Config.fsmDecode then decodeStep (setTurns ts s) else setTurns ts s) = _
  rw [buildStep_turns, deriveStep_turns, encodeStep_turns, decodeStep_turns, engineStep]
  simp only [apply_ite (setTurns ts)]

/-- The engine never moves the reset input. -/
theorem engineStep_rst (s : State) : (engineStep s).rst = s.rst := by
  rcases engineStep_cases s with ⟨-, h⟩ | ⟨-, h⟩ | ⟨-, h⟩ | ⟨-, h⟩ | h <;> rw [h]
  · rcases buildStep_cases s with ⟨-, h⟩ | ⟨-, -, h⟩ | ⟨-, h⟩ <;> rw [h] <;> rfl
  · rcases deriveStep_cases s with ⟨-, h⟩ | ⟨-, w, -, h⟩ | ⟨-, -, h⟩ <;> rw [h] <;> rfl
  · rcases encodeStep_cases s with ⟨-, h⟩ | ⟨-, h⟩ | ⟨-, h⟩ | h <;> rw [h]
    · rcases encWaitSymStep_cases s with ⟨-, h⟩ | ⟨b, r, -, ⟨-, h⟩ | ⟨-, -, h⟩ | ⟨-, -, h⟩⟩ | ⟨r, -, h⟩ <;> (rw [h]; try rfl)
    · rcases encShiftStep_cases s with ⟨-, h⟩ | ⟨-, -, h⟩ | ⟨-, -, h⟩ <;> (rw [h]; try rfl)
    · rcases encShiftEosStep_cases s with ⟨-, h⟩ | ⟨-, -, h⟩ | ⟨-, -, -, h⟩ | ⟨-, -, -, h⟩ <;> rw [h] <;> rfl
  · rcases decodeStep_cases s with ⟨-, h⟩ | ⟨-, h⟩ | h <;> rw [h]
    · rcases decWaitBitStep_cases s with ⟨-, h⟩ | ⟨r, -, h⟩ | ⟨x, r, -, ⟨-, h⟩ | ⟨-, -, h⟩ | ⟨-, n, -, h⟩⟩ <;> rw [h] <;> try rfl
      rcases arrive_cases n { s with bitIn := r, bitCount := s.bitCount + 1#64 } with ⟨-, -, h⟩ | ⟨-, -, h⟩ | ⟨-, h⟩ <;>
        (rw [h]; try rfl)
    · rcases decEmitStep_cases s with ⟨-, h⟩ | ⟨-, -, h⟩ | ⟨-, -, h⟩ <;> (rw [h]; try rfl)

/-- The engine's step, `k` times. -/
def engineSteps : Nat → State → State
  | 0, s => s
  | k + 1, s => engineSteps k (engineStep s)

theorem engineSteps_add (j k : Nat) (s : State) : engineSteps (j + k) s = engineSteps k (engineSteps j s) := by
  induction j generalizing s with
  | zero => simp [engineSteps]
  | succ j ih => rw [Nat.succ_add]; exact ih _

/-- A run of engine turns (R164). -/
theorem run_engineTurns (k : Nat) (s : State) (ts : List Turn) (hr : s.rst = false) :
    Reaches k (setTurns (engineTurns k ++ ts) s) (setTurns ts (engineSteps k s)) := by
  induction k generalizing s with
  | zero => rfl
  | succ k ih =>
    have h1 : step (setTurns (engineTurns (k + 1) ++ ts) s) =
        .next (setTurns (engineTurns k ++ ts) (engineStep s)) := by
      rw [← engineStep_turns]
      exact step_engine rfl hr
    have h2 := ih (engineStep s) (by rw [engineStep_rst]; exact hr)
    have h3 : Sys2Proof.core.step (setTurns (engineTurns (k + 1) ++ ts) s) =
        .next (setTurns (engineTurns k ++ ts) (engineStep s)) := h1
    have h4 : Sys2Proof.core.run (k + 1) (setTurns (engineTurns (k + 1) ++ ts) s) =
        match Sys2Proof.core.step (setTurns (engineTurns (k + 1) ++ ts) s) with
        | .next s' => Sys2Proof.core.run k s'
        | .fault r => .fault r
        | .refused r => .refused r := rfl
    rw [Reaches, h4, h3]
    exact h2

end Sys2Proof.Machine
end

