-- ==== Sys2Proof/Laws/TreeBuilder.lean ====
section
/-! SUPPORT. The tree builder's operations: leaf insertion over the symbols present, `popmin` as a rearrangement of the queue, and the invariant that insertion establishes and every merge keeps. -/

namespace Sys2Proof.Machine

/-! ## Present symbols -/

theorem present_iff (freq : Vector Count 257) (sym : Nat) : present freq sym = true ↔ freqGet freq sym ≠ 0 := by simp [present]

theorem mem_presentSyms (freq : Vector Count 257) (sym : Nat) :
    sym ∈ presentSyms freq ↔ sym < 257 ∧ freqGet freq sym ≠ 0 := by simp [presentSyms, present]

theorem presentSyms_length_le (freq : Vector Count 257) : (presentSyms freq).length ≤ 257 := by
  have h : (presentSyms freq).length ≤ (List.range 257).length := List.length_filter_le _ _
  simpa using h

theorem presentSyms_sorted (freq : Vector Count 257) : (presentSyms freq).Pairwise (· < ·) :=
  List.Pairwise.filter _ List.pairwise_lt_range

/-- Leaf insertion is one push per symbol present, in ascending order (R205). -/
theorem insertLeaves_eq (freq : Vector Count 257) (node : Vector Node 513) :
    insertLeaves freq node =
      (presentSyms freq).foldl (fun w sym => w.push (leafNode freq sym)) { node := node, pq := [], next := 0 } := by
  simp only [insertLeaves, presentSyms, List.foldl_filter]
  rfl

theorem leafNode_isLeaf (freq : Vector Count 257) {sym : Nat} (h : sym < 257) : (leafNode freq sym).isLeaf = true := by
  have hne : BitVec.ofNat 9 sym ≠ Config.nas := by
    intro he
    have := congrArg BitVec.toNat he
    simp [Config.nas] at this
    omega
  simp [Node.isLeaf, leafNode, hne]

/-! ## popmin -/

theorem minSlot_mem (node : Vector Node 513) (m : Slot) (q : List Slot) : minSlot node m q = m ∨ minSlot node m q ∈ q := by
  induction q generalizing m with
  | nil => exact .inl rfl
  | cons i rest ih =>
    simp only [minSlot]
    rcases ih (if keyLt node i m then i else m) with h | h
    · rw [h]
      split
      · exact .inr (List.mem_cons_self ..)
      · exact .inl rfl
    · exact .inr (List.mem_cons_of_mem _ h)

/-- `popmin` of a queue with a slot in it answers a slot of it. -/
theorem popMin_some (node : Vector Node 513) {q : List Slot} (h : q ≠ []) :
    ∃ m, m ∈ q ∧ popMin node q = some (m, q.filter (fun j => decide (j ≠ m))) := by
  cases q with
  | nil => exact absurd rfl h
  | cons i rest =>
    refine ⟨minSlot node i rest, ?_, rfl⟩
    rcases minSlot_mem node i rest with h | h
    · rw [h]; exact List.mem_cons_self ..
    · exact List.mem_cons_of_mem _ h

/-- A queue is its popped slot and the queue that is left. -/
theorem popMin_perm (node : Vector Node 513) {q : List Slot} (hne : q ≠ []) (hnd : q.Nodup) :
    ∃ m q', popMin node q = some (m, q') ∧ q.Perm (m :: q') := by
  obtain ⟨m, hm, hp⟩ := popMin_some node hne
  refine ⟨m, _, hp, ?_⟩
  have h1 : q.filter (fun j => decide (j ≠ m)) = q.erase m := by
    rw [hnd.erase_eq_filter]
    congr 1
    funext j
    by_cases hj : j = m <;> simp [hj]
  rw [h1]
  exact List.perm_cons_erase hm

/-! ## The invariant of the builder -/

/-- The children of the internal slots n..next−1, in slot order. -/
def childrenBelow (node : Vector Node 513) (n next : Nat) : List Nat :=
  (List.range' n (next - n)).flatMap fun k => [(arenaGet node k).zero.toNat, (arenaGet node k).one.toNat]

/-- The sum of the weights of a list of slots. -/
def weightSum (node : Vector Node 513) (slots : List Nat) : Nat := (slots.map fun i => (arenaGet node i).weight.toNat).sum

/-- What holds of the builder with the leaves `syms` in place, between two passes of the merge loop (R205, R208, R209). -/
structure BuildInv (freq : Vector Count 257) (syms : List Nat) (w : BuildWork) : Prop where
  few : syms.length ≤ 257
  lo : syms.length ≤ w.next
  leaf : ∀ i (h : i < syms.length), arenaGet w.node i = leafNode freq syms[i]
  internal : ∀ k, syms.length ≤ k → k < w.next →
    (arenaGet w.node k).sym = Config.nas ∧ (arenaGet w.node k).zero.toNat < k ∧ (arenaGet w.node k).one.toNat < k ∧
      (arenaGet w.node k).weight.toNat =
        (arenaGet w.node (arenaGet w.node k).zero.toNat).weight.toNat +
          (arenaGet w.node (arenaGet w.node k).one.toNat).weight.toNat
  unused : ∀ k, w.next ≤ k → k < 513 → arenaGet w.node k = Node.empty
  slots : (w.pq.map BitVec.toNat ++ childrenBelow w.node syms.length w.next).Perm (List.range w.next)
  total : weightSum w.node (w.pq.map BitVec.toNat) = weightSum w.node (List.range syms.length)

theorem childrenBelow_length (node : Vector Node 513) (n next : Nat) : (childrenBelow node n next).length = 2 * (next - n) := by
  simp [childrenBelow, List.length_flatMap, Nat.mul_comm]

/-- The queue and the slots made so far: two go in for each that comes out (R209). -/
theorem BuildInv.queue_length {freq : Vector Count 257} {syms : List Nat} {w : BuildWork} (h : BuildInv freq syms w) :
    w.pq.length + w.next = 2 * syms.length := by
  have h1 := h.slots.length_eq
  have h2 := h.lo
  simp [childrenBelow_length] at h1
  omega

theorem BuildInv.queue_lt {freq : Vector Count 257} {syms : List Nat} {w : BuildWork} (h : BuildInv freq syms w) {j : Slot}
    (hj : j ∈ w.pq) : j.toNat < w.next := by
  have : j.toNat ∈ List.range w.next :=
    h.slots.mem_iff.1 (List.mem_append_left _ (List.mem_map_of_mem hj))
  simpa using this

theorem BuildInv.queue_nodup {freq : Vector Count 257} {syms : List Nat} {w : BuildWork} (h : BuildInv freq syms w) :
    w.pq.Nodup := by
  have h1 : (w.pq.map BitVec.toNat ++ childrenBelow w.node syms.length w.next).Nodup :=
    h.slots.nodup_iff.2 List.nodup_range
  exact List.Nodup.of_map _ (List.nodup_append.1 h1).1

/-- The weights of a queue sum to less than 2^41, so no merge overflows (R212). -/
theorem BuildInv.total_lt {freq : Vector Count 257} {syms : List Nat} {w : BuildWork} (h : BuildInv freq syms w) :
    weightSum w.node (w.pq.map BitVec.toNat) < 2 ^ 41 := by
  rw [h.total]
  have h1 : ∀ n, n ≤ syms.length → weightSum w.node (List.range n) ≤ n * (2 ^ 32 - 1) := by
    intro n hn
    induction n with
    | zero => simp [weightSum]
    | succ n ih =>
      have h2 : weightSum w.node (List.range (n + 1)) = weightSum w.node (List.range n) + (arenaGet w.node n).weight.toNat := by
        simp [weightSum, List.range_succ]
      have h3 : (arenaGet w.node n).weight.toNat ≤ 2 ^ 32 - 1 := by
        rw [h.leaf n (by omega)]
        have h5 : (leafNode freq syms[n]).weight.toNat = (freqGet freq syms[n]).toNat % 2 ^ 41 := by
          simp [leafNode]
        have h6 := (freqGet freq syms[n]).isLt
        have h7 := Nat.mod_le (freqGet freq syms[n]).toNat (2 ^ 41)
        omega
      have h4 := ih (by omega)
      rw [h2]
      omega
  have h2 := h1 syms.length (Nat.le_refl _)
  have h3 := h.few
  have h4 : syms.length * (2 ^ 32 - 1) ≤ 257 * (2 ^ 32 - 1) := Nat.mul_le_mul_right _ h3
  omega

/-- The slots that a push does not write read as before. -/
theorem push_get {w : BuildWork} {n : Node} {j : Nat} (h : j ≠ w.next) : arenaGet (w.push n).node j = arenaGet w.node j := by
  simp [BuildWork.push, arenaGet_arenaSet_ne _ n (Ne.symm h)]

theorem push_get_next {w : BuildWork} {n : Node} (h : w.next < 513) : arenaGet (w.push n).node w.next = n := by
  simp [BuildWork.push, arenaGet_arenaSet_self _ n h]

theorem weightSum_congr {a b : Vector Node 513} {l : List Nat} (h : ∀ i, i ∈ l → arenaGet a i = arenaGet b i) :
    weightSum a l = weightSum b l := by
  unfold weightSum
  congr 1
  apply List.map_congr_left
  intro i hi
  rw [h i hi]

theorem childrenBelow_congr {a b : Vector Node 513} {n next : Nat} (h : ∀ i, n ≤ i → i < next → arenaGet a i = arenaGet b i) :
    childrenBelow a n next = childrenBelow b n next := by
  unfold childrenBelow
  apply List.flatMap_congr
  intro i hi
  simp only [List.mem_range'_1] at hi
  rw [h i hi.1 (by omega)]

/-- Before any leaf is inserted. -/
theorem buildInv_start (freq : Vector Count 257) (node : Vector Node 513) (h : ∀ k, k < 513 → arenaGet node k = Node.empty) :
    BuildInv freq [] { node := node, pq := [], next := 0 } where
  few := by simp
  lo := by simp
  leaf := by intro i hi; simp at hi
  internal := by intro k _ hk; simp at hk
  unused := fun k _ hk => h k hk
  slots := by simp [childrenBelow]
  total := rfl

/-- A pushed leaf extends the invariant, as long as no internal node was made yet (R205). -/
theorem buildInv_push_leaf {freq : Vector Count 257} {syms : List Nat} {w : BuildWork} (h : BuildInv freq syms w)
    (hnext : w.next = syms.length) (sym : Nat) (hfew : syms.length < 257) :
    BuildInv freq (syms ++ [sym]) (w.push (leafNode freq sym)) ∧
      (w.push (leafNode freq sym)).next = (syms ++ [sym]).length := by
  have hget : ∀ j, j < syms.length → arenaGet (w.push (leafNode freq sym)).node j = arenaGet w.node j :=
    fun j hj => push_get (by omega)
  have hnew : arenaGet (w.push (leafNode freq sym)).node syms.length = leafNode freq sym := by
    rw [← hnext]; exact push_get_next (by omega)
  refine ⟨?_, by simp [BuildWork.push, hnext]⟩
  constructor
  · simp; omega
  · simp [BuildWork.push, hnext]
  · intro i hi
    by_cases hi' : i < syms.length
    · rw [hget i hi', h.leaf i hi', List.getElem_append_left hi']
    · have : i = syms.length := by simp at hi; omega
      subst this
      simp [hnew]
  · intro k h1 h2
    simp [BuildWork.push, hnext] at h1 h2
    omega
  · intro k h1 h2
    simp only [BuildWork.push] at h1
    rw [push_get (by omega)]
    exact h.unused k (by omega) h2
  · have h1 := h.slots
    simp only [hnext, childrenBelow, Nat.sub_self, List.range'_zero, List.flatMap_nil, List.append_nil] at h1
    have h2 : (BitVec.ofNat 10 syms.length).toNat = syms.length := by simp; omega
    have h3 : (syms ++ [sym]).length = syms.length + 1 := by simp
    have h4 : (w.push (leafNode freq sym)).next = syms.length + 1 := by simp [BuildWork.push, hnext]
    have h5 : (w.push (leafNode freq sym)).pq = w.pq ++ [BitVec.ofNat 10 syms.length] := by simp [BuildWork.push, hnext]
    rw [h3, h4, h5]
    simp only [childrenBelow, Nat.sub_self, List.range'_zero, List.flatMap_nil, List.append_nil, List.map_append, List.map_cons,
      List.map_nil, h2, List.range_succ]
    exact h1.append_right _
  · have h2 : (BitVec.ofNat 10 syms.length).toNat = syms.length := by simp; omega
    have h5 : (w.push (leafNode freq sym)).pq = w.pq ++ [BitVec.ofNat 10 syms.length] := by simp [BuildWork.push, hnext]
    have h6 : weightSum (w.push (leafNode freq sym)).node (w.pq.map BitVec.toNat) = weightSum w.node (w.pq.map BitVec.toNat) := by
      apply weightSum_congr
      intro i hi
      obtain ⟨j, hj, rfl⟩ := List.mem_map.1 hi
      exact hget _ (by have := h.queue_lt hj; omega)
    have h7 : weightSum (w.push (leafNode freq sym)).node (List.range syms.length) = weightSum w.node (List.range syms.length) := by
      apply weightSum_congr
      intro i hi
      exact hget _ (by simpa using hi)
    have h8 := h.total
    rw [h5, List.length_append, List.length_singleton, List.range_succ]
    simp only [weightSum, List.map_append, List.sum_append, List.map_cons, List.map_nil, h2] at h6 h7 h8 ⊢
    omega

/-- Leaf insertion over an EMPTY arena establishes the invariant over the symbols present, with no internal node yet (R205). -/
theorem buildInv_insertLeaves (freq : Vector Count 257) :
    BuildInv freq (presentSyms freq) (insertLeaves freq (Vector.replicate 513 Node.empty)) ∧
      (insertLeaves freq (Vector.replicate 513 Node.empty)).next = (presentSyms freq).length := by
  rw [insertLeaves_eq]
  have key : ∀ (rest done : List Nat) (w : BuildWork), BuildInv freq done w → w.next = done.length →
      (done ++ rest).length ≤ 257 →
      BuildInv freq (done ++ rest) (rest.foldl (fun w sym => w.push (leafNode freq sym)) w) ∧
        (rest.foldl (fun w sym => w.push (leafNode freq sym)) w).next = (done ++ rest).length := by
    intro rest
    induction rest with
    | nil => intro done w h hn _; simpa using ⟨h, hn⟩
    | cons sym rest ih =>
      intro done w h hn hl
      obtain ⟨h1, h2⟩ := buildInv_push_leaf h hn sym (by simp at hl; omega)
      simpa using ih (done ++ [sym]) (w.push (leafNode freq sym)) h1 h2 (by simpa using hl)
  simpa using key (presentSyms freq) [] _ (buildInv_start freq _ fun k _ => arenaGet_emptied k) rfl
    (by simpa using presentSyms_length_le freq)

/-- What a pass of the merge loop does to a queue of two slots or more (R208): the two popped slots are children of the next slot,
which joins the queue. -/
theorem mergeStep_spec {freq : Vector Count 257} {syms : List Nat} {w : BuildWork} (h : BuildInv freq syms w)
    (hq : 1 < w.pq.length) :
    ∃ a b q, w.pq.Perm (a :: b :: q) ∧ mergeStep w = BuildWork.push { w with pq := q } (internalNode w.node a b) := by
  obtain ⟨a, q1, ha, hp1⟩ := popMin_perm w.node (q := w.pq) (by intro he; simp [he] at hq) h.queue_nodup
  have hq1 : q1 ≠ [] := by
    intro he
    have := hp1.length_eq
    simp [he] at this
    omega
  have hnd1 : q1.Nodup := (List.nodup_cons.1 (hp1.nodup_iff.1 h.queue_nodup)).2
  obtain ⟨b, q2, hb, hp2⟩ := popMin_perm w.node hq1 hnd1
  exact ⟨a, b, q2, hp1.trans (hp2.cons a), by simp [mergeStep, ha, hb]⟩

/-- Every pass of the merge loop keeps the invariant and makes one slot (R208, R209, R212). -/
theorem buildInv_mergeStep {freq : Vector Count 257} {syms : List Nat} {w : BuildWork} (h : BuildInv freq syms w)
    (hq : 1 < w.pq.length) : BuildInv freq syms (mergeStep w) ∧ (mergeStep w).next = w.next + 1 := by
  obtain ⟨a, b, q, hp, hm⟩ := mergeStep_spec h hq
  have hlen := h.queue_length
  have hfew := h.few
  have hlo := h.lo
  have ha : a.toNat < w.next := h.queue_lt (hp.mem_iff.2 (by simp))
  have hb : b.toNat < w.next := h.queue_lt (hp.mem_iff.2 (by simp))
  have hqlt : ∀ j, j ∈ q → j.toNat < w.next := fun j hj => h.queue_lt (hp.mem_iff.2 (by simp [hj]))
  have hget : ∀ j, j ≠ w.next → arenaGet (mergeStep w).node j = arenaGet w.node j := by
    intro j hj; rw [hm]; exact push_get (w := { w with pq := q }) hj
  have hnew : arenaGet (mergeStep w).node w.next = internalNode w.node a b := by
    rw [hm]; exact push_get_next (w := { w with pq := q }) (by show w.next < 513; omega)
  have hnext : (mergeStep w).next = w.next + 1 := by rw [hm]; rfl
  have hpq : (mergeStep w).pq = q ++ [BitVec.ofNat 10 w.next] := by rw [hm]; rfl
  have hofNat : (BitVec.ofNat 10 w.next).toNat = w.next := by simp; omega
  have hsum : weightSum w.node (w.pq.map BitVec.toNat) =
      (arenaGet w.node a.toNat).weight.toNat + ((arenaGet w.node b.toNat).weight.toNat + weightSum w.node (q.map BitVec.toNat)) := by
    have h1 := ((hp.map BitVec.toNat).map fun i => (arenaGet w.node i).weight.toNat).sum_nat
    simpa [weightSum] using h1
  have htot := h.total_lt
  have hw : (internalNode w.node a b).weight.toNat =
      (arenaGet w.node a.toNat).weight.toNat + (arenaGet w.node b.toNat).weight.toNat := by
    simp only [internalNode, BitVec.toNat_add]
    exact Nat.mod_eq_of_lt (by omega)
  refine ⟨?_, hnext⟩
  constructor
  · exact hfew
  · rw [hnext]; omega
  · intro i hi
    rw [hget i (by omega)]
    exact h.leaf i hi
  · intro k h1 h2
    rw [hnext] at h2
    by_cases hk : k = w.next
    · subst hk
      rw [hnew]
      refine ⟨rfl, ha, hb, ?_⟩
      rw [hw]
      show _ = (arenaGet (mergeStep w).node a.toNat).weight.toNat + (arenaGet (mergeStep w).node b.toNat).weight.toNat
      rw [hget _ (by omega), hget _ (by omega)]
    · obtain ⟨i1, i2, i3, i4⟩ := h.internal k h1 (by omega)
      rw [hget k hk]
      refine ⟨i1, i2, i3, ?_⟩
      rw [hget _ (by omega), hget _ (by omega)]
      exact i4
  · intro k h1 h2
    rw [hnext] at h1
    rw [hget k (by omega)]
    exact h.unused k (by omega) h2
  · rw [hnext, hpq]
    have h1 : childrenBelow (mergeStep w).node syms.length (w.next + 1) =
        childrenBelow w.node syms.length w.next ++ [a.toNat, b.toNat] := by
      have e1 : w.next + 1 - syms.length = (w.next - syms.length) + 1 := by omega
      have e2 : childrenBelow (mergeStep w).node syms.length w.next = childrenBelow w.node syms.length w.next :=
        childrenBelow_congr fun i _ hi => hget i (by omega)
      have e3 : syms.length + (w.next - syms.length) = w.next := by omega
      rw [← e2]
      simp only [childrenBelow, e1, List.range'_1_concat, List.flatMap_append, e3, List.flatMap_cons, List.flatMap_nil,
        List.append_nil, hnew]
      rfl
    rw [h1, List.map_append, List.map_cons, List.map_nil, hofNat, List.range_succ]
    have h2 := h.slots
    have h3 : (w.pq.map BitVec.toNat).Perm (a.toNat :: b.toNat :: q.map BitVec.toNat) := by simpa using hp.map BitVec.toNat
    refine List.Perm.trans ?_ ((h3.symm.append_right _).append_right [w.next] |>.trans (h2.append_right [w.next]))
    rw [List.perm_iff_count]
    intro x
    simp only [List.count_append, List.count_cons, List.count_nil]
    omega
  · rw [hpq]
    have e1 : weightSum (mergeStep w).node (q.map BitVec.toNat) = weightSum w.node (q.map BitVec.toNat) := by
      apply weightSum_congr
      intro i hi
      obtain ⟨j, hj, rfl⟩ := List.mem_map.1 hi
      exact hget _ (by have := hqlt j hj; omega)
    have e2 : weightSum (mergeStep w).node (List.range syms.length) = weightSum w.node (List.range syms.length) := by
      apply weightSum_congr
      intro i hi
      exact hget _ (by have : i < syms.length := by simpa using hi
                       omega)
    have e3 : weightSum (mergeStep w).node ((q ++ [BitVec.ofNat 10 w.next]).map BitVec.toNat) =
        weightSum (mergeStep w).node (q.map BitVec.toNat) + (arenaGet (mergeStep w).node w.next).weight.toNat := by
      simp only [weightSum, List.map_append, List.sum_append, List.map_cons, List.map_nil, hofNat, List.sum_cons, List.sum_nil,
        Nat.add_zero]
    have e4 := h.total
    rw [e3, e1, e2, hnew, hw]
    omega

end Sys2Proof.Machine
end

