-- ==== Sys2Proof/Machine/HostProgram.lean ====
section
/-! DEFINITION. The host programs of the spec as lists of accesses (spec/30_encoding.md R137 to R139, spec/70_reset_and_hazards.md R375). -/

namespace Sys2Proof.Machine

/-- `WR reg, v` (R137). -/
def wr (r : Reg) (v : Word) : HostOp := .write r.offset (bytesOfWord v)

/-- `RD reg` (R137). -/
def rd (r : Reg) : HostOp := .read r.offset 4

/-- A command line (R137): `WR CMD` with its word. -/
def cmd (i : Instr) : HostOp := .write Reg.cmd.offset (encodeBytes i)

/-- `SETF s, c` (R138). -/
def setf (sym : Word) (c : Count) : List HostOp := [wr .freqSel sym, wr .freqData c]

/-- `CLRST` (R138). -/
def clrst : List HostOp := [wr .status 0x12]

/-- `GETCODE s` (R138). -/
def getcode (sym : Word) : List HostOp := [wr .codeSel sym, rd .codeLen, wr .codeWordSel 0, rd .codeWord]

/-- `GETNODE i` (R138). -/
def getnode (i : Word) : List HostOp := [wr .nodeSel i, rd .nodeSym, rd .nodeChild, rd .nodeWeightLo, rd .nodeWeightHi]

/-- `COUNTS` (R138). -/
def counts : List HostOp := [rd .bitCountLo, rd .bitCountHi, rd .symCountLo, rd .symCountHi]

/-- The boot order that R374 recommends, before the table is loaded. -/
def boot (irqEn : Bool) : List HostOp := [rd .id, wr .ctrl ((BitVec.ofBool irqEn).setWidth 32)] ++ clrst

/-- Loading a frequency map (R184): CLEAR_FREQ, then one SETF per key. -/
def loadMap (m : List (Word × Count)) : List HostOp := cmd .clearFreq :: .wait :: m.flatMap fun e => setf e.1 e.2

/-- The `compress` sequence of R375, with the map of the source bytes. -/
def compressProgram (m : List (Word × Count)) : List HostOp :=
  loadMap m ++ setf 256 1 ++ [cmd .buildTree, .wait, cmd .deriveCodes, .wait, cmd .encode, .wait, cmd .release, .wait]

/-- The `decompress` sequence of R375, with the map of the header. -/
def decompressProgram (m : List (Word × Count)) : List HostOp :=
  loadMap m ++ [cmd .buildTree, .wait, cmd .decode, .wait, cmd .release, .wait]

end Sys2Proof.Machine
end

