-- ==== Sys2Proof/Tests/Slice0.lean ====
section
/-! SUPPORT. Tests of the model against spec/95_test_vectors.md and the rules' worked examples, and a witness for the hypotheses of every statement. -/

open Sys2Proof Sys2Proof.Machine

namespace Tests

/-! ## Words written out from the encoding (R130, R131) -/

theorem test_decode_nop : decodeWord 0b00000000000000000000000000000000#32 = .nop := by decide
theorem test_decode_clear_freq : decodeWord 0b00000000000000000000000000000001#32 = .clearFreq := by decide
theorem test_decode_build_tree : decodeWord 0b00000000000000000000000000000010#32 = .buildTree := by decide
theorem test_decode_derive_codes : decodeWord 0b00000000000000000000000000000011#32 = .deriveCodes := by decide
theorem test_decode_encode : decodeWord 0b00000000000000000000000000000100#32 = .encode := by decide
theorem test_decode_decode : decodeWord 0b00000000000000000000000000000101#32 = .decode := by decide
theorem test_decode_release : decodeWord 0b00000000000000000000000000000110#32 = .release := by decide
theorem test_decode_abort : decodeWord 0b00000000000000000000000000000111#32 = .abort := by decide
theorem test_decode_reserved_op : decodeWord 0b00000000000000000000000000001000#32 = .illegal 8 := by decide
/-- R312: 0x12 is a valid opcode with a reserved bit set, not BUILD_TREE. -/
theorem test_decode_reserved_bit : decodeWord 0b00000000000000000000000000010010#32 = .illegal 0x12 := by decide
theorem test_decode_top_bit : decodeWord 0b10000000000000000000000000000010#32 = .illegal 0x80000002 := by decide
/-- R106: the byte at the lowest offset holds bits 7:0. -/
theorem test_decode_bytes_little_endian : Sys2Proof.decode [0x00, 0x00, 0x00, 0x02] = .ok (.illegal 0x02000000) := by decide
/-- R103, R130: two bytes are no command. -/
theorem test_decode_rejects_two_bytes : Sys2Proof.decode [0x02, 0x00] = .error (.wrongLength 2) := by decide
theorem test_table_word : decodeTableWord 32 3 = some .deriveCodes := by decide
theorem test_table_word_short : decodeTableWord 8 3 = some .deriveCodes := by decide

/-! ## WellFormed refuses what stands for no word -/

theorem test_wf_refuses_legal_word : (Instr.illegal 0x00000002).wf = false := by decide
theorem test_wf_refuses_highest_legal_word : (Instr.illegal 0x00000007).wf = false := by decide
theorem test_wf_accepts_reserved_op : (Instr.illegal 0x00000008).wf = true := by decide
theorem test_wf_accepts_reserved_bit : (Instr.illegal 0x00000010).wf = true := by decide

/-! ## Small states -/

/-- What a STATUS read shows after a step. -/
def statusAfter : Host.Outcome State Fault Refusal → Option Word
  | .next s => some s.statusWord
  | _ => none

def errInfoAfter : Host.Outcome State Fault Refusal → Option Word
  | .next s => some s.errInfo
  | _ => none

/-- A frequency table with these entries. -/
def tableOf (entries : List (Nat × Count)) : Vector Count 257 :=
  entries.foldl (fun t e => freqSet t e.1 e.2) (Vector.replicate 257 0)

/-- An arena with these slots filled from 0. -/
def arenaOf (slots : List Node) : Vector Node 513 :=
  (slots.foldl (fun (p : Vector Node 513 × Nat) n => (arenaSet p.1 p.2 n, p.2 + 1)) (Vector.replicate 513 Node.empty, 0)).1

/-- A code table with these codes. -/
def codesOf (codes : List (Nat × List Bool)) : Vector CodeEntry 257 :=
  codes.foldl (fun t e => codeSet t e.1 (CodeEntry.ofPath e.2)) (Vector.replicate 257 CodeEntry.empty)

def leafOf (sym : Sym) (weight : Weight) : Node := { sym := sym, weight := weight, zero := 0x3FF, one := 0x3FF }
def innerOf (weight : Weight) (zero one : Slot) : Node := { sym := 0x1FF, weight := weight, zero := zero, one := one }

/-- Tree T1 of spec/95_test_vectors.md, its codes derived. -/
def t1 : State :=
  { State.reset with
    freq := tableOf [(97, 2), (98, 3), (99, 1), (256, 1)]
    node := arenaOf [leafOf 97 2, leafOf 98 3, leafOf 99 1, leafOf 256 1, innerOf 2 2 3, innerOf 4 0 4, innerOf 7 1 5]
    leafCnt := 4, rootIdx := 6
    code := codesOf [(97, [true, false]), (98, [false]), (99, [true, true, false]), (256, [true, true, true])]
    treeValid := true, codesValid := true }

/-- Tree T2: the lone EOS leaf, its code "0". -/
def t2 : State :=
  { State.reset with
    freq := tableOf [(256, 1)], node := arenaOf [leafOf 256 1], leafCnt := 1, rootIdx := 0
    code := codesOf [(256, [false])], treeValid := true, codesValid := true }

/-- Tree T3: two leaves, 'x' and EOS. -/
def t3 : State :=
  { State.reset with
    freq := tableOf [(120, 1), (256, 1)], node := arenaOf [leafOf 120 1, leafOf 256 1, innerOf 2 0 1], leafCnt := 2, rootIdx := 2
    code := codesOf [(120, [false]), (256, [true])], treeValid := true, codesValid := true }

/-- A state with the engine in this state and sub-state. -/
def running (f : BitVec 3) (b : BitVec 4) (s : State) : State := { s with fsm := f, sub := b }

/-! ## The commands, against spec/95_test_vectors.md -/

/-- V-F1. -/
theorem test_nop_status : statusAfter (exec .nop State.reset) = some 0x00000002 := by decide
/-- V-A6 and R181's example: DONE only. -/
theorem test_clear_freq_status : statusAfter (exec .clearFreq t1) = some 0x00000002 := by decide
/-- V-B1. -/
theorem test_build_tree_accept : statusAfter (exec .buildTree t1) = some 0x00010001 := by decide
/-- V-C1 and V-C3. -/
theorem test_derive_codes_accept : statusAfter (exec .deriveCodes t1) = some 0x00020005 := by decide
theorem test_derive_codes_no_tree : statusAfter (exec .deriveCodes State.reset) = some 0x00000302 := by decide
/-- V-D11 and V-D9. -/
theorem test_encode_accept : statusAfter (exec .encode t1) = some 0x0003000D := by decide
theorem test_encode_no_codes : statusAfter (exec .encode { t1 with codesValid := false }) = some 0x00000406 := by decide
/-- The frequent values of section 0, and V-E8. -/
theorem test_decode_accept : statusAfter (exec .decode { t1 with codesValid := false }) = some 0x00040005 := by decide
theorem test_decode_no_tree : errInfoAfter (exec .decode State.reset) = some 0x00000005 := by decide
/-- V-F3. -/
theorem test_release_status : statusAfter (exec .release t1) = some 0x00000002 := by decide
/-- V-D11: ABORT in ENC_WAIT_SYM; V-F8: dropped in BUILD. -/
theorem test_abort_encode : statusAfter (exec .abort (running 3 0 t1)) = some 0x00000A0E ∧
    errInfoAfter (exec .abort (running 3 0 t1)) = some 0x00000030 := by decide
theorem test_abort_build_dropped : statusAfter (exec .abort (running 1 0 State.reset)) = some 0x00010011 := by decide
/-- V-F5; V-F9: dropped while busy. -/
theorem test_illegal_reported : statusAfter (exec (.illegal 0x12) State.reset) = some 0x00000802 ∧
    errInfoAfter (exec (.illegal 0x12) State.reset) = some 0x00000012 := by decide
theorem test_illegal_dropped : statusAfter (exec (.illegal 0x12) (running 3 0 t1)) = some 0x0003001D := by decide

/-! ## The engine's steps, against the worked examples -/

/-- R215: the tree of "aabbbc", slot by slot. -/
theorem test_build_worked_example :
    [0, 1, 2, 3, 4, 5, 6].map (arenaGet (buildOf t1.freq).node) =
        [leafOf 97 2, leafOf 98 3, leafOf 99 1, leafOf 256 1, innerOf 2 2 3, innerOf 4 0 4, innerOf 7 1 5] ∧
      (buildOf t1.freq).pq = [6] := by decide +kernel
/-- V-B6: EOS (weight 1, slot 1) pops before 'a' (weight 4, slot 0). -/
theorem test_build_weight_dominates :
    arenaGet (buildOf (tableOf [(97, 4), (256, 1)])).node 2 = innerOf 5 1 0 := by decide +kernel
/-- R239: the codes of "aabbbc". -/
theorem test_derive_worked_example :
    [97, 98, 99, 256].map (codeGet (deriveStep { (running 2 0 t1) with code := Vector.replicate 257 CodeEntry.empty }).code) =
      [.ofPath [true, false], .ofPath [false], .ofPath [true, true, false], .ofPath [true, true, true]] := by decide +kernel
/-- V-C4: the lone leaf's code is "0". -/
theorem test_derive_lone_leaf :
    codeGet (deriveStep { (running 2 0 t2) with code := Vector.replicate 257 CodeEntry.empty }).code 256 = { len := 1, cells := 0 } := by
  decide +kernel
/-- V-D10: a byte without a code. -/
theorem test_encode_no_code :
    (engineStep { (running 3 0 t2) with symIn := [.byte 0x71, .endOfSource] }).statusWord = 0x0000050E ∧
      (engineStep { (running 3 0 t2) with symIn := [.byte 0x71, .endOfSource] }).errInfo = 0x71 := by decide +kernel
/-- V-D12: the second bit of "110" is sent, and the third awaited. -/
theorem test_encode_shift :
    (engineStep { (running 3 1 t1) with encSym := 99, encK := 1, bitOutReady := true }).bitOut = [true] ∧
      (engineStep { (running 3 1 t1) with encSym := 99, encK := 1, bitOutReady := true }).encK = 2 := by decide +kernel
/-- V-D14: a full BIT_COUNT. -/
theorem test_encode_overflow :
    (engineStep { (running 3 1 t1) with
      encSym := 98, bitCount := 0xFFFFFFFFFFFFFFFF, bitOutReady := true }).statusWord = 0x0000090E := by decide +kernel
/-- R293: bit 1 from the root moves to slot 5; V-E9: bit 0 reaches 'b'. -/
theorem test_decode_moves :
    (engineStep { (running 4 0 t1) with decCur := 6, bitIn := [.bit true] }).decCur = 5 ∧
      (engineStep { (running 4 0 t1) with decCur := 6, bitIn := [.bit false] }).decOut = 98 := by decide +kernel
/-- V-E5: bit 1 at a leaf root. -/
theorem test_decode_desync :
    (engineStep { (running 4 0 t2) with decCur := 0, bitIn := [.bit true] }).errInfo = 0x00010000 := by decide +kernel

/-! ## Registers -/

/-- V-B2: GETNODE 5 and GETNODE 7. -/
theorem test_node_window :
    readReg { t1 with nodeSel := 5 } .nodeChild = 0x00040000 ∧ readReg { t1 with nodeSel := 7 } .nodeChild = 0x03FF03FF := by
  decide +kernel
/-- R239: GETCODE 'c' reads 0b011. -/
theorem test_code_window : readReg { t1 with codeSel := 99 } .codeWord = 0b011 := by decide +kernel
/-- V-A3: the changing FREQ_DATA write. -/
theorem test_freq_data_invalidates : (memWrite 0x18 3 { t1 with freqSel := 97 }).statusWord = 0x00000000 := by decide +kernel
/-- V-A2: the same value. -/
theorem test_freq_data_same : (memWrite 0x18 2 { t1 with freqSel := 97 }).statusWord = 0x0000000C := by decide +kernel
/-- V-F10. -/
theorem test_status_w1c : (memWrite 0x08 0x10 { t1 with done := true, codesValid := false, overrun := true }).statusWord = 0x00000006 := by
  decide +kernel
/-- R138: `SETF 'a', 2`. -/
theorem test_setf : setf 97 2 = [.write 0x14 [0x61, 0, 0, 0], .write 0x18 [2, 0, 0, 0]] := by decide

/-- R66: while DERIVE runs ROOT reads exactly, and nothing is drawn. -/
theorem test_root_exact_while_deriving : memRead 0x24 (running 2 0 t3) = (0x00000002, running 2 0 t3) := rfl

/-! ## A step runs the placed command -/

theorem test_step_runs_table_word : statusAfter (step (State.reset.withFetchWord 32 0x8)) = some 0x00000802 := by decide +kernel

/-! ## States that meet the whole invariant -/

theorem t3_freq (i : Nat) : freqGet t3.freq i = if i = 120 then 1 else if i = 256 then 1 else 0 := by
  show freqGet (freqSet (freqSet (Vector.replicate 257 0) 120 1) 256 1) i = _
  simp only [freqGet_freqSet, freqGet_cleared]
  split_ifs <;> first | rfl | omega

theorem t3_node (i : Nat) :
    arenaGet t3.node i =
      if i = 0 then leafOf 120 1 else if i = 1 then leafOf 256 1 else if i = 2 then innerOf 2 0 1 else Node.empty := by
  show arenaGet (arenaSet (arenaSet (arenaSet (Vector.replicate 513 Node.empty) 0 _) 1 _) 2 _) i = _
  simp only [arenaGet_arenaSet, arenaGet_emptied]
  split_ifs <;> first | rfl | omega

theorem t3_code (i : Nat) :
    codeGet t3.code i =
      if i = 120 then CodeEntry.ofPath [false] else if i = 256 then CodeEntry.ofPath [true] else CodeEntry.empty := by
  show codeGet (codeSet (codeSet (Vector.replicate 257 CodeEntry.empty) 120 _) 256 _) i = _
  simp only [codeGet_codeSet, codeGet_emptied]
  split_ifs <;> first | rfl | omega

theorem t3_present (i : Nat) : present t3.freq i = (decide (i = 120) || decide (i = 256)) := by
  rw [present, t3_freq]
  by_cases h1 : i = 120 <;> by_cases h2 : i = 256 <;> simp [h1, h2]

theorem t3_syms : presentSyms t3.freq = [120, 256] := by
  rw [presentSyms, show present t3.freq = _ from funext t3_present]
  decide +kernel

theorem t3_slots : SlotsLegal t3.node := by
  intro i _
  rw [t3_node]
  split_ifs <;> decide

theorem t3_tree : TreeInv t3.freq t3.node 2 2 where
  nonempty := by decide
  leafSyms := by
    rw [t3_syms]
    simp only [t3_node]
    decide
  leaf := by
    intro i hi
    simp only [t3_node, leafNode, t3_freq]
    interval_cases i <;> decide
  eosPresent := by rw [t3_present]; decide
  internal := by
    intro k h1 h2
    obtain rfl : k = 2 := by omega
    simp only [t3_node]
    decide
  unused := by
    intro k h1 h2
    rw [t3_node, if_neg (by omega), if_neg (by omega), if_neg (by omega)]
  root := by decide
  childrenOnce := by
    simp only [childList, t3_node]
    decide

theorem t3_codes : CodesInv t3.freq t3.node t3.rootIdx t3.code := by
  have hroot : ¬(arenaGet t3.node t3.rootIdx.toNat).isLeaf = true := by rw [t3_node]; decide
  intro sym hs
  rw [t3_present, t3_code]
  simp only [IsCodeOf, if_neg hroot]
  refine ⟨fun h => ?_, fun h => ?_⟩
  · simp at h; simp [h]
  · simp at h
    rcases h with rfl | rfl
    · refine ⟨[false], ⟨0, ?_, ?_, ?_⟩, by decide, by decide, rfl⟩ <;> simp only [walk, t3_node] <;> decide
    · refine ⟨[true], ⟨1, ?_, ?_, ?_⟩, by decide, by decide, rfl⟩ <;> simp only [walk, t3_node] <;> decide

theorem t3_built : buildOf t3.freq = { node := t3.node, pq := [2], next := 3 } := by
  have h1 : leafNode t3.freq 120 = leafOf 120 1 := by simp only [leafNode, t3_freq]; decide
  have h2 : leafNode t3.freq 256 = leafOf 256 1 := by simp only [leafNode, t3_freq]; decide
  have h3 : insertLeaves t3.freq (Vector.replicate 513 Node.empty) =
      { node := arenaOf [leafOf 120 1, leafOf 256 1], pq := [0, 1], next := 2 } := by
    rw [insertLeaves_eq, t3_syms]
    simp only [List.foldl, h1, h2]
    rfl
  have h4 (i : Nat) : arenaGet (arenaOf [leafOf 120 1, leafOf 256 1]) i =
      if i = 0 then leafOf 120 1 else if i = 1 then leafOf 256 1 else Node.empty := by
    show arenaGet (arenaSet (arenaSet (Vector.replicate 513 Node.empty) 0 _) 1 _) i = _
    simp only [arenaGet_arenaSet, arenaGet_emptied]
    split_ifs <;> first | rfl | omega
  have h5 : popMin (arenaOf [leafOf 120 1, leafOf 256 1]) [0, 1] = some (0, [1]) := by
    simp only [popMin, minSlot, keyLt, h4]; decide
  have h6 : popMin (arenaOf [leafOf 120 1, leafOf 256 1]) [1] = some (1, []) := by
    simp only [popMin, minSlot]; decide
  have h7 : internalNode (arenaOf [leafOf 120 1, leafOf 256 1]) 0 1 = innerOf 2 0 1 := by
    simp only [internalNode, h4]; decide
  have h8 : buildOf t3.freq = mergeLoop 2 { node := arenaOf [leafOf 120 1, leafOf 256 1], pq := [0, 1], next := 2 } := by
    rw [buildOf, h3]; rfl
  have h9 : mergeStep { node := arenaOf [leafOf 120 1, leafOf 256 1], pq := [0, 1], next := 2 } =
      { node := t3.node, pq := [2], next := 3 } := by
    simp only [mergeStep, h5, h6, h7]
    rfl
  rw [h8, mergeLoop, if_pos (by decide), h9]
  rfl

/-- A state that meets the invariant with a tree of two leaves, its codes derived. -/
theorem t3_inv : MachineInv t3 where
  control := controlInv_of_idle rfl rfl rfl rfl rfl (by decide)
  slots := t3_slots
  entries := codesLegal_of_inv t3_codes
  tree := fun _ => t3_tree
  built := fun _ => ⟨by rw [t3_built], by rw [t3_syms]; decide, by rw [t3_built]; decide⟩
  codes := fun _ => t3_codes
  emptyWhileBuilding := fun h => absurd h (by decide)
  noCodesWhileDeriving := fun h => absurd h (by decide)
  encoder := fun h => absurd h (by decide)
  decoder := fun h => absurd h (by decide)

theorem t2_freq (i : Nat) : freqGet t2.freq i = if i = 256 then 1 else 0 := by
  show freqGet (freqSet (Vector.replicate 257 0) 256 1) i = _
  simp only [freqGet_freqSet, freqGet_cleared]
  split_ifs <;> first | rfl | omega

theorem t2_node (i : Nat) : arenaGet t2.node i = if i = 0 then leafOf 256 1 else Node.empty := by
  show arenaGet (arenaSet (Vector.replicate 513 Node.empty) 0 _) i = _
  simp only [arenaGet_arenaSet, arenaGet_emptied]
  split_ifs <;> first | rfl | omega

theorem t2_code (i : Nat) : codeGet t2.code i = if i = 256 then CodeEntry.ofPath [false] else CodeEntry.empty := by
  show codeGet (codeSet (Vector.replicate 257 CodeEntry.empty) 256 _) i = _
  simp only [codeGet_codeSet, codeGet_emptied]
  split_ifs <;> first | rfl | omega

theorem t2_present (i : Nat) : present t2.freq i = decide (i = 256) := by
  rw [present, t2_freq]
  by_cases h1 : i = 256 <;> simp [h1]

theorem t2_syms : presentSyms t2.freq = [256] := by
  rw [presentSyms, show present t2.freq = _ from funext t2_present]
  decide +kernel

theorem t2_tree : TreeInv t2.freq t2.node 1 0 where
  nonempty := by decide
  leafSyms := by
    rw [t2_syms]
    simp only [t2_node]
    decide
  leaf := by
    intro i hi
    obtain rfl : i = 0 := by omega
    simp only [t2_node, leafNode, t2_freq]
    decide
  eosPresent := by rw [t2_present]; decide
  internal := by intro k h1 h2; omega
  unused := by
    intro k h1 h2
    rw [t2_node, if_neg (by omega)]
  root := by decide
  childrenOnce := by decide

theorem t2_codes : CodesInv t2.freq t2.node t2.rootIdx t2.code := by
  have hroot : (arenaGet t2.node t2.rootIdx.toNat).isLeaf = true := by rw [t2_node]; decide
  intro sym hs
  rw [t2_present, t2_code]
  simp only [IsCodeOf, if_pos hroot]
  refine ⟨fun h => ?_, fun h => ?_⟩
  · simp at h; simp [h]
  · simp at h
    subst h
    exact ⟨[false], ⟨rfl, by rw [t2_node]; decide⟩, by decide, by decide, rfl⟩

theorem t2_built : buildOf t2.freq = { node := t2.node, pq := [0], next := 1 } := by
  have h1 : leafNode t2.freq 256 = leafOf 256 1 := by simp only [leafNode, t2_freq]; decide
  rw [buildOf, insertLeaves_eq, t2_syms]
  simp only [List.foldl, h1]
  rfl

/-- A state that meets the invariant with the lone EOS leaf as its tree. -/
theorem t2_inv : MachineInv t2 where
  control := controlInv_of_idle rfl rfl rfl rfl rfl (by decide)
  slots := by
    intro i _
    rw [t2_node]
    split_ifs <;> decide
  entries := codesLegal_of_inv t2_codes
  tree := fun _ => t2_tree
  built := fun _ => ⟨by rw [t2_built], by rw [t2_syms]; decide, by rw [t2_built]; decide⟩
  codes := fun _ => t2_codes
  emptyWhileBuilding := fun h => absurd h (by decide)
  noCodesWhileDeriving := fun h => absurd h (by decide)
  encoder := fun h => absurd h (by decide)
  decoder := fun h => absurd h (by decide)

/-! ## Witnesses: for each statement, states and operands that meet its hypotheses together, clause by clause -/

/-- A state whose next turn is the host's, with this access to make. -/
def hostState (op : HostOp) (s : State) : State := { s with turns := [.host], hostProg := [op] }

/-- A state whose next turn is the engine's. -/
def engineState (s : State) : State := { s with turns := [.engine] }

theorem test_witness_DecodeOfEncodeIsTheCommand :
    Instr.abort.wf = true ∧ (Instr.illegal 0x00000008).wf = true ∧ (Instr.illegal 0xFFFFFFF0).wf = true := by decide

theorem test_witness_StepRunsTheDecodedCommand :
    (placeCommand [0x02, 0, 0, 0] State.reset).rst = false ∧
      (placeCommand [0x02, 0, 0, 0] State.reset).turns = .host :: [] ∧
      (placeCommand [0x02, 0, 0, 0] State.reset).hostProg = .write 0x04 [0x02, 0, 0, 0] :: [] ∧
      Sys2Proof.decode [0x02, 0, 0, 0] = .ok .buildTree := by decide

theorem test_witness_EngineTurnIsTheEngineStep :
    ((engineState t1).rst = false ∧ (engineState t1).turns = .engine :: []) ∧ State.reset.turns = [] ∧
      State.reset.fsm = Config.fsmIdle := by decide

theorem test_witness_ResetValues : 0 < 257 ∧ 256 < 257 ∧ 0 < 513 ∧ 512 < 513 := by decide

theorem test_witness_ResetOverridesEverything :
    ({ t1 with turns := [.rst true] } : State).turns = .rst true :: [] ∧
      ({ (hostState .wait t1) with rst := true } : State).rst = true ∧
      ({ (hostState .wait t1) with rst := true } : State).turns = .host :: [] ∧
      ({ (engineState t1) with rst := true } : State).turns = .engine :: [] ∧
      ({ t1 with turns := [.rst false] } : State).turns = .rst false :: [] := by decide

/-- A command other than ABORT while DECODE runs, and an ABORT while BUILD runs. -/
theorem test_witness_BusyCommandsAreDropped :
    ((running 4 1 t1).fsm ≠ Config.fsmIdle ∧ Instr.nop ≠ Instr.abort) ∧
      (running 1 0 t1).fsm ≠ Config.fsmIdle ∧ (running 1 0 t1).fsm ≠ Config.fsmEncode ∧
        (running 1 0 t1).fsm ≠ Config.fsmDecode := by decide

theorem test_witness_NopCompletes : t1.fsm = Config.fsmIdle ∧ (running 1 0 t1).fsm ≠ Config.fsmIdle := by decide
theorem test_witness_ClearFreqEmptiesTheTable : t1.fsm = Config.fsmIdle ∧ (running 2 0 t1).fsm ≠ Config.fsmIdle := by decide
theorem test_witness_BuildTreeAccepts : t1.fsm = Config.fsmIdle := by decide

/-- An empty table, and a table with 'b' and no EOS. -/
theorem test_witness_BuildTreeRefusesUnusableTables :
    (∃ t, State.reset.fsm = Config.fsmIdle ∧ exec .buildTree State.reset = .next t ∧
      (List.range 257).countP (fun sym => decide (freqGet State.reset.freq sym ≠ 0)) = 0 ∧ freqGet State.reset.freq 256 = 0) ∧
    ∃ s t, s.fsm = Config.fsmIdle ∧ exec .buildTree s = .next t ∧
      (List.range 257).countP (fun sym => decide (freqGet s.freq sym ≠ 0)) ≠ 0 ∧ freqGet s.freq 256 = 0 := by
  have hf : ∀ i, freqGet State.reset.freq i = 0 := freqGet_cleared
  refine ⟨⟨_, rfl, rfl, by simp [hf], hf 256⟩, { State.reset with freq := tableOf [(98, 1)] }, _, rfl, rfl, ?_, ?_⟩
  · have h1 : ∀ i, freqGet (tableOf [(98, 1)]) i = if i = 98 then 1 else 0 := by
      intro i
      show freqGet (freqSet (Vector.replicate 257 0) 98 1) i = _
      simp only [freqGet_freqSet, freqGet_cleared]
      split_ifs <;> first | rfl | omega
    simp only [h1]
    decide +kernel
  · decide +kernel

theorem test_witness_BuildTreeBuildsTheTree :
    (t3.fsm = Config.fsmIdle ∧ freqGet t3.freq 256 ≠ 0) ∧ t2.fsm = Config.fsmIdle ∧ freqGet t2.freq 256 ≠ 0 := by
  rw [t3_freq, t2_freq]; decide

/-- Two slots of equal weight: the lower index is popped, and the other is left. -/
theorem test_witness_PopMinTakesTheLeastKey :
    ([1, 0] : List Slot) ≠ [] ∧ popMin t3.node [1, 0] = some (0, [1]) ∧ (1 : Slot) ∈ [1, 0] ∧ (1 : Slot) ≠ 0 := by
  simp only [popMin, minSlot, keyLt, t3_node]; decide

theorem test_witness_MergeLoopLeavesOneRoot :
    (1 = (presentSyms t2.freq).length ∧ 1 ≤ 1) ∧ 2 = (presentSyms t3.freq).length ∧ 1 ≤ 2 := by
  rw [t2_syms, t3_syms]; decide

theorem test_witness_RootWeightIsTheSumOfCounts : TreeInv t2.freq t2.node 1 0 ∧ TreeInv t3.freq t3.node 2 2 :=
  ⟨t2_tree, t3_tree⟩

/-- The first slot, and the root. -/
theorem test_witness_EverySlotHasOnePath :
    TreeInv t3.freq t3.node 2 2 ∧ (0 : Slot).toNat < 2 * 2 - 1 ∧ (2 : Slot).toNat < 2 * 2 - 1 := ⟨t3_tree, by decide, by decide⟩

theorem test_witness_StreamCommandsAccept :
    t3.fsm = Config.fsmIdle ∧ t3.treeValid = true ∧ t3.codesValid = true := by decide

theorem test_witness_MissingPrerequisitesAreReported :
    State.reset.fsm = Config.fsmIdle ∧ State.reset.treeValid = false ∧ State.reset.codesValid = false := by decide

theorem test_witness_DeriveCodesDerivesEveryCode :
    (MachineInv t3 ∧ t3.fsm = Config.fsmIdle ∧ t3.treeValid = true) ∧ MachineInv t2 ∧ t2.fsm = Config.fsmIdle ∧
      t2.treeValid = true := ⟨⟨t3_inv, rfl, rfl⟩, t2_inv, rfl, rfl⟩

/-- Two leaves, and a lone one. -/
theorem test_witness_CodesArePrefixFreeAndComplete :
    (MachineInv t3 ∧ t3.codesValid = true ∧ t3.leafCnt.toNat ≠ 1 ∧ 120 < 257 ∧ 256 < 257 ∧ 120 ≠ 256 ∧
      present t3.freq 120 = true ∧ present t3.freq 256 = true) ∧
      MachineInv t2 ∧ t2.codesValid = true ∧ t2.leafCnt.toNat = 1 := by
  refine ⟨⟨t3_inv, rfl, by decide, by decide, by decide, by decide, ?_, ?_⟩, t2_inv, rfl, rfl⟩ <;> rw [t3_present] <;> decide

theorem test_witness_ReleaseDiscardsTheTree :
    t3.fsm = Config.fsmIdle ∧ (running 3 2 t3).fsm ≠ Config.fsmIdle := by decide

theorem test_witness_AbortEndsARunningStream :
    (running 3 0 t3).fsm = Config.fsmEncode ∧ (running 4 1 t3).fsm = Config.fsmDecode := by decide

theorem test_witness_AbortWhileIdleOrBuilding :
    t3.fsm = Config.fsmIdle ∧ (running 1 0 t3).fsm = Config.fsmBuild ∧ (running 2 0 t3).fsm = Config.fsmDerive := by decide

theorem test_witness_IllegalWordsAreReported :
    (0x00000012 : Word).extractLsb' 4 28 ≠ 0 ∧ 8 ≤ ((0x00000008 : Word).extractLsb' 0 4).toNat ∧ t3.fsm = Config.fsmIdle ∧ (running 1 0 t3).fsm ≠ Config.fsmIdle := by decide

/-- A state that waits for a symbol with these items offered. -/
def waiting (items : List SymItem) : State := { (running 3 0 t3) with symIn := items }

theorem test_witness_EncoderTakesAnItem :
    ((waiting []).fsm = Config.fsmEncode ∧ (waiting []).sub = Config.encWaitSym ∧ (waiting []).symIn = []) ∧
    ((waiting [.byte 0]).symIn = .byte 0 :: [] ∧ (codeGet (waiting [.byte 0]).code (0 : Byte).toNat).len = 0) ∧
    ((waiting [.byte 120]).symIn = .byte 120 :: [] ∧ (codeGet (waiting [.byte 120]).code (120 : Byte).toNat).len ≠ 0 ∧
      (waiting [.byte 120]).symCount.toNat ≠ 2 ^ 64 - 1) ∧
    ({ (waiting [.byte 120]) with symCount := 0xFFFFFFFFFFFFFFFF } : State).symCount.toNat = 2 ^ 64 - 1 ∧
    (waiting [.endOfSource]).symIn = .endOfSource :: [] := by
  have h0 : codeGet t3.code 0 = CodeEntry.empty := by rw [t3_code]; decide
  have h1 : codeGet t3.code 120 = CodeEntry.ofPath [false] := by rw [t3_code]; decide
  have e : ∀ l, (waiting l).code = t3.code := fun _ => rfl
  have n0 : (0 : Byte).toNat = 0 := rfl
  have n1 : (120 : Byte).toNat = 120 := rfl
  simp only [e, n0, n1, h0, h1]
  decide

/-- A state that sends the EOS code, its first bit the last. -/
def sendingEos (ready : Bool) (count : Counter) : State := { (running 3 2 t3) with bitOutReady := ready, bitCount := count, encSym := 256 }

theorem test_witness_EncoderShiftsABit :
    (running 3 1 t3).fsm = Config.fsmEncode ∧ (running 3 1 t3).sub = Config.encShift ∧ (running 3 1 t3).bitOutReady = false ∧
      (running 3 1 t3).bitCount.toNat ≠ 2 ^ 64 - 1 ∧ (sendingEos true 0).bitOutReady = true ∧
      (sendingEos true 0xFFFFFFFFFFFFFFFF).bitCount.toNat = 2 ^ 64 - 1 := by decide

theorem test_witness_EncoderShiftsTheEosCode :
    (sendingEos true 0).fsm = Config.fsmEncode ∧ (sendingEos true 0).sub = Config.encShiftEos ∧
      (sendingEos false 0).bitOutReady = false ∧ (sendingEos true 0).bitOutReady = true ∧
      (sendingEos true 0xFFFFFFFFFFFFFFFF).bitCount.toNat = 2 ^ 64 - 1 ∧ (sendingEos true 0).bitCount.toNat ≠ 2 ^ 64 - 1 ∧
      (sendingEos true 0).encK + 1 = (codeGet (sendingEos true 0).code 256).len ∧
      ({ (sendingEos true 0) with encK := 1 } : State).encK + 1 ≠ (codeGet (sendingEos true 0).code 256).len := by
  have h : codeGet (sendingEos true 0).code 256 = CodeEntry.ofPath [true] := by
    show codeGet t3.code 256 = _
    rw [t3_code]; decide
  rw [h]; decide

/-- A state that waits for a bit at this slot with these items offered. -/
def reading (cur : Slot) (items : List BitItem) (s : State) : State := { (running 4 0 s) with decCur := cur, bitIn := items }

theorem test_witness_DecoderTakesAnItem :
    ((reading 2 [] t3).fsm = Config.fsmDecode ∧ (reading 2 [] t3).sub = Config.decWaitBit ∧ (reading 2 [] t3).bitIn = []) ∧
    (reading 2 [.eof] t3).bitIn = .eof :: [] ∧
    ((reading 2 [.bit true] t3).bitIn = .bit true :: [] ∧ (reading 2 [.bit true] t3).bitCount.toNat ≠ 2 ^ 64 - 1) ∧
    ({ (reading 2 [.bit true] t3) with bitCount := 0xFFFFFFFFFFFFFFFF } : State).bitCount.toNat = 2 ^ 64 - 1 := by decide

/-- The decoder's moves: none from a lone leaf by 1, none from an EMPTY slot; from the lone leaf by 0 to itself; from the root of T3 to
a byte's leaf and to the EOS leaf; and to an internal slot. -/
theorem test_witness_DecoderTakesAnItem_moves :
    (arenaGet (reading 0 [] t2).node 0).sym ≠ 0x1FF ∧
    ((arenaGet (reading 5 [] t3).node 5).sym = 0x1FF ∧ (arenaGet (reading 5 [] t3).node 5).zero = 0x3FF) ∧
    (arenaGet (reading 0 [] t2).node 0).sym = 256 ∧
    ((arenaGet (reading 2 [] t3).node 2).sym = 0x1FF ∧ (arenaGet (reading 2 [] t3).node 2).zero ≠ 0x3FF ∧
      (arenaGet (reading 2 [] t3).node (arenaGet (reading 2 [] t3).node 2).zero.toNat).sym = 120 ∧
      (arenaGet (reading 2 [] t3).node (arenaGet (reading 2 [] t3).node 2).one.toNat).sym = 256) ∧
    ((arenaGet (reading 6 [] t1).node 6).one = 5 ∧ (arenaGet (reading 6 [] t1).node 5).sym = 0x1FF) := by
  have e2 : ∀ c, (reading c [] t2).node = t2.node := fun _ => rfl
  have e3 : ∀ c, (reading c [] t3).node = t3.node := fun _ => rfl
  refine ⟨?_, ?_, ?_, ?_, ?_⟩
  · simp only [e2, t2_node]; decide
  · simp only [e3, t3_node]; decide
  · simp only [e2, t2_node]; decide
  · simp only [e3, t3_node]; decide
  · decide +kernel

theorem test_witness_DecoderEmitsAByte :
    (running 4 1 t3).fsm = Config.fsmDecode ∧ (running 4 1 t3).sub = Config.decEmit ∧ (running 4 1 t3).symOutReady = false ∧
      ({ (running 4 1 t3) with symOutReady := true } : State).symOutReady = true ∧
      (running 4 1 t3).symCount.toNat ≠ 2 ^ 64 - 1 ∧
      ({ (running 4 1 t3) with symCount := 0xFFFFFFFFFFFFFFFF } : State).symCount.toNat = 2 ^ 64 - 1 := by decide

theorem test_witness_StreamStepsLeaveTheTables :
    (running 3 1 t3).fsm = Config.fsmEncode ∧ (running 4 1 t3).fsm = Config.fsmDecode := by decide

/-- A FREQ_DATA write changes the frequency table; a RELEASE the arena and the code table. -/
theorem test_witness_OnlyTheNamedEventsWriteTables :
    (∃ t, step (hostState (.write 0x18 [7, 0, 0, 0]) State.reset) = .next t ∧ t.freq ≠ State.reset.freq) ∧
      ∃ t, step (hostState (.write 0x04 [6, 0, 0, 0]) t3) = .next t ∧ t.node ≠ t3.node ∧ t.code ≠ t3.code := by
  refine ⟨⟨_, rfl, fun h => ?_⟩, _, rfl, fun h => ?_, fun h => ?_⟩
  · have h1 := congrArg (fun t => freqGet t 0) h
    revert h1
    decide +kernel
  · have h1 := congrArg (fun t => arenaGet t 0) h
    rw [t3_node] at h1
    revert h1
    decide +kernel
  · have h1 := congrArg (fun t => codeGet t 120) h
    rw [t3_code] at h1
    revert h1
    decide +kernel

/-- TREE_VALID rises at a successful BUILD, CODES_VALID at a DERIVE, OVERRUN at a busy command and at a busy FREQ_DATA write, DONE at
a NOP and at the engine's completion of a BUILD. -/
theorem test_witness_FlagsRiseOnlyAtTheirEvents :
    (∃ s t, step s = .next t ∧ s.treeValid = false ∧ t.treeValid = true ∧ s.done = false ∧ t.done = true) ∧
    (∃ s t, step s = .next t ∧ s.codesValid = false ∧ t.codesValid = true) ∧
    (∃ s t, step s = .next t ∧ s.overrun = false ∧ t.overrun = true) ∧
    (∃ s t, step s = .next t ∧ s.overrun = false ∧ t.overrun = true ∧ s.hostProg = .write 0x18 [0, 0, 0, 0] :: []) ∧
    ∃ s t, step s = .next t ∧ s.done = false ∧ t.done = true := by
  refine ⟨⟨engineState (running 1 0 { State.reset with freq := t2.freq }), _, rfl, rfl, ?_, rfl, ?_⟩,
    ⟨engineState (running 2 0 { t2 with codesValid := false }), _, rfl, rfl, ?_⟩,
    ⟨hostState (.write 0x04 [0, 0, 0, 0]) (running 1 0 State.reset), _, rfl, rfl, rfl⟩,
    ⟨hostState (.write 0x18 [0, 0, 0, 0]) (running 1 0 State.reset), _, rfl, rfl, rfl, rfl⟩,
    ⟨hostState (.write 0x04 [0, 0, 0, 0]) State.reset, _, rfl, rfl, rfl⟩⟩ <;> decide +kernel

theorem test_witness_FreqDataWriteSetsTheEntry :
    (running 3 0 t3).fsm ≠ Config.fsmIdle ∧
    (t3.fsm = Config.fsmIdle ∧ 256 < ({ t3 with freqSel := 257 } : State).freqSel.toNat) ∧
    ({ t3 with freqSel := 256 } : State).freqSel.toNat ≤ 256 ∧ freqGet t3.freq 256 = 1 ∧ freqGet t3.freq 256 ≠ 0 := by
  rw [t3_freq]; decide

/-- The windows at their last entry and past it. -/
theorem test_witness_ViewsReadTheTables :
    t3.treeValid = true ∧ State.reset.treeValid = false ∧ ({ t3 with nodeSel := 512 } : State).nodeSel.toNat ≤ 512 ∧
      ¬({ t3 with nodeSel := 513 } : State).nodeSel.toNat ≤ 512 ∧ ({ t3 with codeSel := 256 } : State).codeSel.toNat ≤ 256 ∧
      ¬({ t3 with codeSel := 257 } : State).codeSel.toNat ≤ 256 := by decide

theorem test_witness_ReservedAndReadOnlyIgnoreWrites :
    0x5C ≤ (0x5C : BitVec 8).toNat ∧ 0x5C ≤ (0xFC : BitVec 8).toNat ∧ Reg.offset .id = 0x00 ∧ Reg.offset .symCountHi = 0x58 := by
  decide

/-- A write of the register before CMD and of the last reserved offset; a read of the last register and of a reserved offset; a read
two bytes wide; a write at an odd offset. -/
theorem test_witness_HostAccessesReadOrAreRefused :
    ((hostState (.write 0x00 [1, 2, 3, 4]) t3).hostProg = .write 0x00 [1, 2, 3, 4] :: [] ∧ (0x00 : BitVec 8).toNat % 4 = 0 ∧
      (0x00 : BitVec 8) ≠ 0x04 ∧ (0xFC : BitVec 8).toNat % 4 = 0 ∧ (0xFC : BitVec 8) ≠ 0x04) ∧
    ((hostState (.read 0x58 4) t3).rst = false ∧ (hostState (.read 0x58 4) t3).turns = .host :: [] ∧
      (hostState (.read 0x58 4) t3).hostProg = .read 0x58 4 :: [] ∧ (0x58 : BitVec 8).toNat % 4 = 0 ∧
      Reg.offset .symCountHi = 0x58 ∧ t3.unspecified .symCountHi = false) ∧
    (∀ r : Reg, r.offset ≠ 0x5C) ∧
    (hostState (.read 0x08 2) t3).hostProg = .read 0x08 2 :: [] ∧
    (hostState (.write 0x09 [0, 0, 0, 0]) t3).hostProg = .write 0x09 [0, 0, 0, 0] :: [] ∧ (0x09 : BitVec 8).toNat % 4 ≠ 0 := by
  refine ⟨by decide, by decide, ?_, by decide⟩
  intro r
  cases r <;> decide

theorem test_witness_HostWaitsUntilIdle :
    (hostState .wait t3).rst = false ∧ (hostState .wait t3).turns = .host :: [] ∧ (hostState .wait t3).hostProg = .wait :: [] ∧
      ({ (hostState .wait t3) with hostProg := [] } : State).hostProg = [] := by decide

theorem test_witness_PartnersMoveTheirOwnEnds :
    ({ t3 with turns := [.byteSource (.offer .endOfSource)] } : State).turns = .byteSource (.offer .endOfSource) :: [] ∧
      ({ t3 with turns := [.bitSource (.offer .eof)] } : State).turns = .bitSource (.offer .eof) :: [] ∧
      ({ t3 with turns := [.byteSource .flush] } : State).turns = .byteSource .flush :: [] ∧
      ({ t3 with turns := [.bitSource .flush] } : State).turns = .bitSource .flush :: [] ∧
      ({ t3 with turns := [.bitSink true] } : State).turns = .bitSink true :: [] ∧
      ({ t3 with turns := [.byteSink true] } : State).turns = .byteSink true :: [] := by decide

theorem test_witness_BusyWindowReadsAreUnspecified :
    (running 1 0 t3).fsm = Config.fsmBuild ∧ (running 2 0 t3).fsm = Config.fsmDerive ∧
      Reg.root ∈ [Reg.leafCount, .nodeCount, .root, .nodeSym, .nodeChild, .nodeWeightLo, .nodeWeightHi, .codeLen, .codeWord] ∧
      Reg.status ∉ [Reg.leafCount, .nodeCount, .root, .nodeSym, .nodeChild, .nodeWeightLo, .nodeWeightHi, .codeLen, .codeWord] ∧
      Reg.codeWord ∈ [Reg.codeLen, .codeWord] ∧ Reg.root ∉ [Reg.codeLen, .codeWord] ∧
      t3.fsm ≠ Config.fsmBuild ∧ t3.fsm ≠ Config.fsmDerive := by decide

theorem test_witness_IrqFollowsDone : (0x00000002 : Word).getLsbD 1 = true := by decide

/-- Steps from states that meet the invariants: a command while idle, and the engine's step while ENCODE waits. -/
theorem test_witness_StepsKeepTheMachineInvariant :
    MachineInv (withSurroundings t3 (hostState (.write 0x04 [6, 0, 0, 0]) t3)) ∧
      ControlInv (withSurroundings t3 (hostState (.write 0x04 [6, 0, 0, 0]) t3)) ∧ SlotsLegal t3.node ∧
      ∃ t, step (withSurroundings t3 (hostState (.write 0x04 [6, 0, 0, 0]) t3)) = .next t ∧ t.treeValid = false :=
  ⟨t3_inv.surroundings _, t3_inv.control.surroundings _, t3_slots, _, rfl, rfl⟩

theorem test_witness_StepsKeepTheControlInvariant :
    ControlInv (withSurroundings t2 (hostState (.write 0x04 [4, 0, 0, 0]) t2)) ∧
      ∃ t, step (withSurroundings t2 (hostState (.write 0x04 [4, 0, 0, 0]) t2)) = .next t ∧ t.fsm = Config.fsmEncode :=
  ⟨t2_inv.control.surroundings _, _, rfl, rfl⟩

theorem test_witness_StepsKeepTheSlotsLegal :
    SlotsLegal (hostState (.write 0x04 [2, 0, 0, 0]) t3).node ∧
      ∃ t, step (hostState (.write 0x04 [2, 0, 0, 0]) t3) = .next t ∧ t.fsm = Config.fsmBuild := ⟨t3_slots, _, rfl, rfl⟩

theorem test_witness_SameTableSameTreeAndCodes :
    MachineInv t3 ∧ MachineInv (withSurroundings t3 { t3 with draws := 1 }) ∧ t3.treeValid = true ∧ t3.codesValid = true ∧
      t3.freq = (withSurroundings t3 { t3 with draws := 1 }).freq := ⟨t3_inv, t3_inv.surroundings _, rfl, rfl, rfl⟩

/-- The engine's step from a byte to its code, and the step that sends the EOS code's only bit. -/
theorem test_witness_EncoderSendsWhatItOwes :
    MachineInv (sendingEos true 0) ∧ (sendingEos true 0).fsm = Config.fsmEncode ∧
      (engineStep (sendingEos true 0)).err = 0 ∧ (engineStep (sendingEos true 0)).fsm = Config.fsmIdle ∧
      (engineStep (sendingEos false 0)).fsm = Config.fsmEncode := by
  have h : codeGet t3.code 256 = CodeEntry.ofPath [true] := by rw [t3_code]; decide
  refine ⟨{ t3_inv with
    control := ⟨rfl, rfl, rfl, fun _ => rfl, fun h => absurd h (by decide), fun h => absurd h (by decide), fun _ => rfl,
      fun h => absurd h (by decide), by decide⟩
    emptyWhileBuilding := fun h => absurd h (by decide)
    noCodesWhileDeriving := fun h => absurd h (by decide)
    encoder := fun _ => ⟨fun h => absurd h (by decide), fun _ => ⟨rfl, ?_⟩⟩
    decoder := fun h => absurd h (by decide) }, rfl, ?_, ?_, rfl⟩
  · show 0 < (codeGet t3.code 256).len.toNat
    rw [h]; decide
  all_goals
    have he : engineStep (sendingEos true 0) = encShiftEosStep (sendingEos true 0) := by
      rw [engineStep_encode rfl, encodeStep, if_neg (by decide), if_neg (by decide), if_pos (by decide)]
    rcases encShiftEosStep_cases (sendingEos true 0) with ⟨h1, _⟩ | ⟨_, h1, _⟩ | ⟨_, _, h1, _⟩ | ⟨_, _, _, h1⟩
    · exact absurd h1 (by decide)
    · exact absurd h1 (by decide)
    · exact absurd (by show (0 : CodeLen) + 1#9 = (codeGet t3.code 256).len; rw [h]; rfl) h1
    · rw [he, h1]; rfl

/-- The surroundings of a stream of one 'x': its source and its sinks. -/
def oneX : State :=
  { State.reset with
    symIn := byteStream [120] ++ [.byte 0], bitIn := [true, false, true].map BitItem.bit, bitOutReady := true, symOutReady := true }

theorem t3_payload (bytes : List Byte) (h : ∀ b, b ∈ bytes → b = 120) : (payload t3.code bytes).length = bytes.length + 1 := by
  have h1 : (codeGet t3.code 256).bits = [true] := by rw [t3_code]; decide
  have h2 : (codeGet t3.code 120).bits = [false] := by rw [t3_code]; decide
  induction bytes with
  | nil => simp [payload, h1]
  | cons b bs ih =>
    obtain rfl := h b (List.mem_cons_self ..)
    have h3 := ih fun b hb => h b (List.mem_cons_of_mem _ hb)
    have h4 : (120 : Byte).toNat = 120 := rfl
    simp only [payload, List.length_append, List.flatMap_cons, h1, h2, h4] at h3 ⊢
    simp at h3 ⊢
    omega

theorem t3_has_x : ∀ b, b ∈ [(120 : Byte)] → present t3.freq b.toNat = true := by
  intro b hb
  obtain rfl := List.mem_singleton.1 hb
  rw [t3_present]; decide

theorem test_witness_EncodeSendsThePayload :
    ∃ (s : State) (bytes : List Byte) (rest : List SymItem), MachineInv s ∧ s.fsm = Config.fsmIdle ∧ s.rst = false ∧
      s.codesValid = true ∧ s.bitOutReady = true ∧ s.symIn = byteStream bytes ++ rest ∧
      (∀ b, b ∈ bytes → present s.freq b.toNat = true) ∧ (payload s.code bytes).length < 2 ^ 64 := by
  refine ⟨withSurroundings t3 oneX, [120], [.byte 0], t3_inv.surroundings _, rfl, rfl, rfl, rfl, rfl, t3_has_x, ?_⟩
  show (payload t3.code [120]).length < 2 ^ 64
  rw [t3_payload [120] (by simp)]
  decide

theorem test_witness_DecodeRecoversThePayload :
    ∃ (e s : State) (bytes : List Byte) (rest : List BitItem), MachineInv e ∧ e.codesValid = true ∧ MachineInv s ∧
      e.freq = s.freq ∧ s.fsm = Config.fsmIdle ∧ s.rst = false ∧ s.treeValid = true ∧ s.symOutReady = true ∧
      (∀ b, b ∈ bytes → present s.freq b.toNat = true) ∧
      s.bitIn = (payload e.code bytes).map BitItem.bit ++ rest ∧ (payload e.code bytes).length < 2 ^ 64 := by
  refine ⟨t3, withSurroundings t3 { oneX with bitIn := (payload t3.code [120]).map BitItem.bit ++ [.bit true] }, [120], [.bit true],
    t3_inv, rfl, t3_inv.surroundings _, rfl, rfl, rfl, rfl, rfl, t3_has_x, rfl, ?_⟩
  rw [t3_payload [120] (by simp)]
  decide

/-- A queue of two slots of equal weight, the higher first, and the next slot the last of the arena. -/
theorem test_witness_MergePassJoinsTheTwoLeast :
    ({ node := t3.node, pq := [1, 0], next := 512 } : BuildWork).pq.Nodup ∧
      2 ≤ ({ node := t3.node, pq := [1, 0], next := 512 } : BuildWork).pq.length ∧
      ({ node := t3.node, pq := [1, 0], next := 512 } : BuildWork).next < 513 ∧
      ({ node := t3.node, pq := [2], next := 3 } : BuildWork).pq.length ≤ 1 := by decide

end Tests
end

section
/-! PROOF. The turns of the four partners (R70 to R74, R387). -/

namespace Sys2Proof.Machine

@[simp] theorem SourceAct.apply_offer {α : Type} (item : α) (items : List α) :
    (SourceAct.offer item).apply items = items ++ [item] := rfl

@[simp] theorem SourceAct.apply_flush {α : Type} (items : List α) : SourceAct.flush.apply items = [] := rfl

theorem step_byteSource {s : State} {act : SourceAct SymItem} {ts : List Turn} (h : s.turns = .byteSource act :: ts) :
    step s = .next { s with turns := ts, symIn := act.apply s.symIn } := by rw [step_turn h, agentStep]

theorem step_bitSource {s : State} {act : SourceAct BitItem} {ts : List Turn} (h : s.turns = .bitSource act :: ts) :
    step s = .next { s with turns := ts, bitIn := act.apply s.bitIn } := by rw [step_turn h, agentStep]

theorem step_bitSink {s : State} {ready : Bool} {ts : List Turn} (h : s.turns = .bitSink ready :: ts) :
    step s = .next { s with turns := ts, bitOutReady := ready } := by rw [step_turn h, agentStep]

theorem step_byteSink {s : State} {ready : Bool} {ts : List Turn} (h : s.turns = .byteSink ready :: ts) :
    step s = .next { s with turns := ts, symOutReady := ready } := by rw [step_turn h, agentStep]

/-- Settles O44: each clause is the step lemma of that partner's turn; a source's two clauses differ in its act only. -/
theorem partnersMoveTheirOwnEnds : Obligations.PartnersMoveTheirOwnEnds := by
  refine ⟨?byteOffer, ?bitOffer, ?byteFlush, ?bitFlush, ?bitReady, ?byteReady⟩
  case byteOffer => intro s ts item h; rw [step_byteSource h, SourceAct.apply_offer]
  case bitOffer => intro s ts item h; rw [step_bitSource h, SourceAct.apply_offer]
  case byteFlush => intro s ts h; rw [step_byteSource h, SourceAct.apply_flush]
  case bitFlush => intro s ts h; rw [step_bitSource h, SourceAct.apply_flush]
  case bitReady => intro s ts ready h; exact step_bitSink h
  case byteReady => intro s ts ready h; exact step_byteSink h

end Sys2Proof.Machine
end

section
/-! PROOF. The tree of R57: what its slots are, where its walks lead, and the one path to each slot (R213, R232). -/

namespace Sys2Proof.Machine

section Tree

variable {freq : Vector Count 257} {node : Vector Node 513} {n : Nat} {root : Slot}

/-! ## Leaves, internal slots and their children -/

/-- Slot `j` is the child of internal slot `k` that bit `x` reaches. -/
def IsChild (node : Vector Node 513) (n : Nat) (k : Nat) (x : Bool) (j : Slot) : Prop :=
  n ≤ k ∧ k < 2 * n - 1 ∧ (arenaGet node k).child x = j

theorem TreeInv.leaves_le (h : TreeInv freq node n root) : n ≤ 257 := by
  have hlen := congrArg List.length h.leafSyms
  have hle := presentSyms_length_le freq
  simp at hlen
  omega

/-- A leaf slot holds a symbol of the table (R57 (a)). -/
theorem TreeInv.leafSym_mem (h : TreeInv freq node n root) {i : Nat} (hi : i < n) :
    (arenaGet node i).sym.toNat ∈ presentSyms freq := by
  rw [← h.leafSyms]
  exact List.mem_map.2 ⟨i, List.mem_range.2 hi, rfl⟩

/-- Every symbol of the table has its leaf slot. -/
theorem TreeInv.leaf_of_present (h : TreeInv freq node n root) {sym : Nat} (hs : sym ∈ presentSyms freq) :
    ∃ i, i < n ∧ (arenaGet node i).sym.toNat = sym := by
  rw [← h.leafSyms] at hs
  simpa using hs

theorem TreeInv.leafSym_lt (h : TreeInv freq node n root) {i : Nat} (hi : i < n) : (arenaGet node i).sym.toNat < 257 :=
  ((mem_presentSyms _ _).1 (h.leafSym_mem hi)).1

/-- The leaf slots are the first `n` (R57 (a), (b)). -/
theorem TreeInv.isLeaf_iff (h : TreeInv freq node n root) {i : Nat} (hi : i < 2 * n - 1) :
    (arenaGet node i).isLeaf = true ↔ i < n := by
  constructor
  · intro hleaf
    by_contra hn
    have hnas := (h.internal i (by omega) hi).1
    simp [Node.isLeaf, hnas] at hleaf
  · intro hn
    rw [h.leaf i hn]
    exact leafNode_isLeaf freq (h.leafSym_lt hn)

theorem TreeInv.not_isLeaf_iff (h : TreeInv freq node n root) {i : Nat} (hi : i < 2 * n - 1) :
    (arenaGet node i).isLeaf = false ↔ n ≤ i := by
  rw [← Bool.not_eq_true, h.isLeaf_iff hi, Nat.not_lt]

theorem TreeInv.child_lt (h : TreeInv freq node n root) {k : Nat} (h1 : n ≤ k) (h2 : k < 2 * n - 1) (x : Bool) :
    ((arenaGet node k).child x).toNat < k := by
  obtain ⟨-, hzero, hone, -⟩ := h.internal k h1 h2
  cases x
  · exact hzero
  · exact hone

theorem TreeInv.root_lt (h : TreeInv freq node n root) : root.toNat < 2 * n - 1 := by
  have := h.root
  have := h.nonempty
  omega

/-- The list of children holds the two children of every internal slot. -/
theorem mem_childList {j : Slot} : j.toNat ∈ childList node n ↔ ∃ k x, IsChild node n k x j := by
  simp only [childList, List.mem_flatMap, List.mem_range'_1, List.mem_cons, List.not_mem_nil, or_false, IsChild]
  constructor
  · rintro ⟨k, ⟨h1, h2⟩, h | h⟩
    · exact ⟨k, false, h1, by omega, (BitVec.eq_of_toNat_eq h).symm⟩
    · exact ⟨k, true, h1, by omega, (BitVec.eq_of_toNat_eq h).symm⟩
  · rintro ⟨k, x, h1, h2, rfl⟩
    refine ⟨k, ⟨h1, by omega⟩, ?_⟩
    cases x
    · exact .inl rfl
    · exact .inr rfl

/-- Every slot below the root has a parent (R57 (d)). -/
theorem TreeInv.exists_parent (h : TreeInv freq node n root) {j : Slot} (hj : j.toNat < 2 * n - 2) :
    ∃ k x, IsChild node n k x j :=
  mem_childList.1 (h.childrenOnce.mem_iff.2 (List.mem_range.2 hj))

/-- No slot has two parents, and none is both children of one (R57 (d)). -/
theorem TreeInv.parent_unique (h : TreeInv freq node n root) {k k' : Nat} {x x' : Bool} {j : Slot}
    (hc : IsChild node n k x j) (hc' : IsChild node n k' x' j) : k = k' ∧ x = x' := by
  have hnd : (childList node n).Nodup := h.childrenOnce.nodup_iff.2 List.nodup_range
  obtain ⟨hpair, hdisj⟩ := List.nodup_flatMap.1 hnd
  obtain ⟨h1, h2, hj⟩ := hc
  obtain ⟨h1', h2', hj'⟩ := hc'
  have hk : k ∈ List.range' n (n - 1) := List.mem_range'_1.2 ⟨h1, by omega⟩
  have hk' : k' ∈ List.range' n (n - 1) := List.mem_range'_1.2 ⟨h1', by omega⟩
  have hmem : ∀ (m : Nat) (y : Bool), (arenaGet node m).child y = j →
      j.toNat ∈ [(arenaGet node m).zero.toNat, (arenaGet node m).one.toNat] := by
    rintro m y rfl
    cases y <;> simp [Node.child]
  have hkk : k = k' := by
    by_contra hne
    have : Std.Symm (Function.onFun List.Disjoint fun m => [(arenaGet node m).zero.toNat, (arenaGet node m).one.toNat]) :=
      ⟨fun _ _ hd => hd.symm⟩
    exact hdisj.forall hk hk' hne (hmem k x hj) (hmem k' x' hj')
  subst hkk
  have hne : (arenaGet node k).zero ≠ (arenaGet node k).one := by
    intro he
    simpa [he] using hpair k hk
  refine ⟨rfl, ?_⟩
  cases x <;> cases x'
  · rfl
  · exact absurd (hj.trans hj'.symm) hne
  · exact absurd (hj'.trans hj.symm) hne
  · rfl

/-! ## Walks -/

/-- The bit `x` after a walk that ends at an internal slot leads to that slot's child. -/
theorem walk_concat {i k : Slot} {p : List Bool} (h : walk node i p = some k) (hk : (arenaGet node k.toNat).isLeaf = false)
    (x : Bool) : walk node i (p ++ [x]) = some ((arenaGet node k.toNat).child x) := by
  simp [walk_append, h, walk, hk]

/-- The last step of a walk starts at a slot that is no leaf. -/
theorem walk_concat_inv {i j : Slot} {p : List Bool} {x : Bool} (h : walk node i (p ++ [x]) = some j) :
    ∃ k, walk node i p = some k ∧ (arenaGet node k.toNat).isLeaf = false ∧ (arenaGet node k.toNat).child x = j := by
  rw [walk_append] at h
  obtain ⟨k, hk, hj⟩ := Option.bind_eq_some_iff.1 h
  refine ⟨k, hk, ?_⟩
  simpa [walk] using hj

/-- A walk goes down in the arena by at least one slot a bit (R57 (b)). -/
theorem TreeInv.walk_length (h : TreeInv freq node n root) {p : List Bool} {i j : Slot} (hi : i.toNat < 2 * n - 1)
    (hw : walk node i p = some j) : p.length + j.toNat ≤ i.toNat := by
  induction p generalizing i with
  | nil =>
    obtain rfl : i = j := by simpa [walk] using hw
    simp
  | cons x p ih =>
    simp only [walk] at hw
    split at hw
    · simp at hw
    · rename_i hleaf
      have hn : n ≤ i.toNat := (h.not_isLeaf_iff hi).1 (by simpa using hleaf)
      have hlt := h.child_lt hn hi x
      have := ih (by omega) hw
      simp
      omega

theorem TreeInv.walk_lt (h : TreeInv freq node n root) {p : List Bool} {i j : Slot} (hi : i.toNat < 2 * n - 1)
    (hw : walk node i p = some j) : j.toNat < 2 * n - 1 := by
  have := h.walk_length hi hw
  omega

/-- The last step of a walk from the root is a step from a parent. -/
theorem TreeInv.walk_root_concat_inv (h : TreeInv freq node n root) {p : List Bool} {x : Bool} {j : Slot}
    (hw : walk node root (p ++ [x]) = some j) : ∃ k : Slot, walk node root p = some k ∧ IsChild node n k.toNat x j := by
  obtain ⟨k, hk, hleaf, hj⟩ := walk_concat_inv hw
  have hlt := h.walk_lt h.root_lt hk
  exact ⟨k, hk, (h.not_isLeaf_iff hlt).1 hleaf, hlt, hj⟩

/-- A path in the tree is at most as long as there are internal slots, so at most 256 bits (R238). -/
theorem TreeInv.path_length (h : TreeInv freq node n root) {p : List Bool} {j : Slot} (hw : walk node root p = some j) :
    p.length ≤ 256 := by
  have hn := h.leaves_le
  have hroot := h.root
  rcases List.eq_nil_or_concat' p with rfl | ⟨q, x, rfl⟩
  · simp
  · obtain ⟨k, hk, hchild⟩ := h.walk_root_concat_inv hw
    have hlen := h.walk_length h.root_lt hk
    have := hchild.1
    simp
    omega

/-- Every slot of the tree is reached from the root: its parent is, and it is one bit further (R57 (d)). -/
theorem TreeInv.exists_path (h : TreeInv freq node n root) (j : Slot) (hj : j.toNat < 2 * n - 1) :
    ∃ p, walk node root p = some j := by
  by_cases hroot : j.toNat = 2 * n - 2
  · exact ⟨[], congrArg some (BitVec.eq_of_toNat_eq (h.root.trans hroot.symm))⟩
  · obtain ⟨k, x, hchild⟩ := h.exists_parent (j := j) (by omega)
    obtain ⟨h1, h2, hx⟩ := hchild
    have hn := h.leaves_le
    have hlt : j.toNat < k := hx ▸ h.child_lt h1 h2 x
    have hk : (BitVec.ofNat 10 k).toNat = k := Nat.mod_eq_of_lt (by omega)
    obtain ⟨p, hp⟩ := h.exists_path (BitVec.ofNat 10 k) (by omega)
    refine ⟨p ++ [x], ?_⟩
    rw [walk_concat hp (by rw [hk]; exact (h.not_isLeaf_iff h2).2 h1), hk, hx]
termination_by 2 * n - j.toNat

/-- Two paths to one slot are the same: they come from the same parent by the same bit (R57 (d)). -/
theorem TreeInv.path_unique (h : TreeInv freq node n root) {p q : List Bool} {j : Slot} (hp : walk node root p = some j)
    (hq : walk node root q = some j) : p = q := by
  have hnotRoot : ∀ {r : List Bool} {x : Bool}, walk node root (r ++ [x]) ≠ some root := by
    intro r x hr
    have := h.walk_length h.root_lt hr
    simp at this
  induction p using List.reverseRecOn generalizing q j with
  | nil =>
    obtain rfl : root = j := by simpa [walk] using hp
    rcases List.eq_nil_or_concat' q with rfl | ⟨q, y, rfl⟩
    · rfl
    · exact absurd hq hnotRoot
  | append_singleton p x ih =>
    rcases List.eq_nil_or_concat' q with rfl | ⟨q, y, rfl⟩
    · obtain rfl : root = j := by simpa [walk] using hq
      exact absurd hp hnotRoot
    · obtain ⟨k, hk, hchild⟩ := h.walk_root_concat_inv hp
      obtain ⟨k', hk', hchild'⟩ := h.walk_root_concat_inv hq
      obtain ⟨hkk, rfl⟩ := h.parent_unique hchild hchild'
      obtain rfl : k = k' := BitVec.eq_of_toNat_eq hkk
      rw [ih hk hk']

end Tree

/-- Settles O18: a slot's path is its parent's and one bit more, and its parent and that bit are its only ones. -/
theorem everySlotHasOnePath : Obligations.EverySlotHasOnePath := by
  intro freq node n root h j hj
  obtain ⟨p, hp⟩ := h.exists_path j hj
  exact ⟨p, hp, fun q hq => h.path_unique hq hp⟩

end Sys2Proof.Machine
end

section
/-! PROOF. The walk of DERIVE_CODES ends over a tree of R57, with a code for every symbol present (R233 to R235). -/

namespace Sys2Proof.Machine

variable {freq : Vector Count 257} {node : Vector Node 513} {n : Nat} {root : Slot}

/-! ## How many slots a subtree has -/

/-- The slots of the subtree at slot `i`; the guard is R57 (b), without which there is no end to the recursion. -/
def subtreeSize (node : Vector Node 513) (i : Nat) : Nat :=
  if _h : (arenaGet node i).isLeaf = false ∧ (arenaGet node i).zero.toNat < i ∧ (arenaGet node i).one.toNat < i then
    1 + subtreeSize node (arenaGet node i).zero.toNat + subtreeSize node (arenaGet node i).one.toNat
  else 1
termination_by i

theorem subtreeSize_pos (node : Vector Node 513) (i : Nat) : 1 ≤ subtreeSize node i := by
  rw [subtreeSize]
  split <;> omega

theorem TreeInv.subtreeSize_leaf (h : TreeInv freq node n root) {i : Nat} (hi : i < n) : subtreeSize node i = 1 := by
  have hleaf := (h.isLeaf_iff (i := i) (by omega)).2 hi
  rw [subtreeSize, dif_neg (by simp [hleaf])]

theorem TreeInv.subtreeSize_internal (h : TreeInv freq node n root) {k : Nat} (h1 : n ≤ k) (h2 : k < 2 * n - 1) :
    subtreeSize node k =
      1 + subtreeSize node (arenaGet node k).zero.toNat + subtreeSize node (arenaGet node k).one.toNat := by
  rw [subtreeSize, dif_pos ⟨(h.not_isLeaf_iff h2).2 h1, h.child_lt h1 h2 false, h.child_lt h1 h2 true⟩]

/-- The sizes of all subtrees at internal slots count each of these slots once, and the subtrees at their children. -/
theorem TreeInv.sum_internal_sizes (h : TreeInv freq node n root) :
    ((List.range' n (n - 1)).map (subtreeSize node)).sum = (n - 1) + ((childList node n).map (subtreeSize node)).sum := by
  have key : ∀ l : List Nat, (∀ k, k ∈ l → n ≤ k ∧ k < 2 * n - 1) → (l.map (subtreeSize node)).sum = l.length +
      ((l.flatMap fun k => [(arenaGet node k).zero.toNat, (arenaGet node k).one.toNat]).map (subtreeSize node)).sum := by
    intro l hl
    induction l with
    | nil => rfl
    | cons k l ih =>
      obtain ⟨h1, h2⟩ := hl k (List.mem_cons_self ..)
      have := ih fun k hk => hl k (List.mem_cons_of_mem _ hk)
      have := h.subtreeSize_internal h1 h2
      simp
      omega
  have := key (List.range' n (n - 1)) (by
    intro k hk
    simp only [List.mem_range'_1] at hk
    omega)
  simpa [childList] using this

/-- The tree has 2n−1 slots (R57): each but the root is one child (R57 (d)), so the sizes of the children's subtrees are those of
all subtrees but the root's. -/
theorem TreeInv.subtreeSize_root (h : TreeInv freq node n root) : subtreeSize node root.toNat = 2 * n - 1 := by
  have hn := h.nonempty
  have hleaves : ((List.range n).map (subtreeSize node)).sum = n := by
    rw [List.map_congr_left (g := fun _ => 1) fun i hi => h.subtreeSize_leaf (List.mem_range.1 hi)]
    simp
  have hsplit : List.range (2 * n - 1) = List.range n ++ List.range' n (n - 1) := by
    rw [List.range_eq_range', List.range_eq_range', show 2 * n - 1 = n + (n - 1) by omega, ← List.range'_append_1]
    simp
  have hlast : List.range (2 * n - 1) = List.range (2 * n - 2) ++ [2 * n - 2] := by
    rw [show 2 * n - 1 = (2 * n - 2) + 1 by omega, List.range_succ]
  have hchildren := (h.childrenOnce.map (subtreeSize node)).sum_nat
  have hall := congrArg (fun l => (l.map (subtreeSize node)).sum) (hsplit.symm.trans hlast)
  simp only [List.map_append, List.sum_append, hleaves, h.sum_internal_sizes, hchildren, List.map_cons, List.map_nil,
    List.sum_cons, List.sum_nil] at hall
  rw [h.root]
  omega

/-! ## The walk -/

/-- The table holds a code of the symbol, 1 to 256 bits long (R59, R238). -/
def HasCode (node : Vector Node 513) (root : Slot) (code : Vector CodeEntry 257) (sym : Nat) : Prop :=
  ∃ p, IsCodeOf node root p sym ∧ 1 ≤ p.length ∧ p.length ≤ 256 ∧ codeGet code sym = CodeEntry.ofPath p

/-- A leaf of the symbol lies below a slot on the stack. -/
def IsDue (node : Vector Node 513) (stack : List (Slot × List Bool)) (sym : Nat) : Prop :=
  ∃ e q j, e ∈ stack ∧ walk node e.1 q = some j ∧ (arenaGet node j.toNat).isLeaf = true ∧ (arenaGet node j.toNat).sym.toNat = sym

/-- What holds between two passes of the loop of R233: the stack holds slots with their paths, and every symbol present has its code
or is still due. -/
structure DeriveInv (freq : Vector Count 257) (node : Vector Node 513) (root : Slot) (w : DeriveWork) : Prop where
  onPath : ∀ e, e ∈ w.stack → walk node root e.2 = some e.1
  absent : ∀ sym, present freq sym = false → codeGet w.code sym = CodeEntry.empty
  present : ∀ sym, present freq sym = true → HasCode node root w.code sym ∨ IsDue node w.stack sym

/-- The slots still to be visited. -/
def stackSize (node : Vector Node 513) (stack : List (Slot × List Bool)) : Nat :=
  (stack.map fun e => subtreeSize node e.1.toNat).sum

theorem deriveVisit_leaf {w : DeriveWork} {i : Slot} {p : List Bool} {rest : List (Slot × List Bool)}
    (hs : w.stack = (i, p) :: rest) (hi : (arenaGet node i.toNat).isLeaf = true) :
    deriveVisit node w =
      { code := codeSet w.code (arenaGet node i.toNat).sym.toNat (CodeEntry.ofPath p), stack := rest } := by
  simp [deriveVisit, hs, hi]

theorem deriveVisit_internal {w : DeriveWork} {i : Slot} {p : List Bool} {rest : List (Slot × List Bool)}
    (hs : w.stack = (i, p) :: rest) (hi : (arenaGet node i.toNat).isLeaf = false) :
    deriveVisit node w =
      { code := w.code,
        stack := ((arenaGet node i.toNat).zero, p ++ [false]) :: ((arenaGet node i.toNat).one, p ++ [true]) :: rest } := by
  simp [deriveVisit, hs, hi]

/-- Visiting a leaf gives its symbol the path, which is a code of it, and takes no other symbol's code (R233). -/
theorem DeriveInv.visit_leaf {w : DeriveWork} (h : DeriveInv freq node root w) (ht : TreeInv freq node n root)
    (hroot : (arenaGet node root.toNat).isLeaf = false) {i : Slot} {p : List Bool} {rest : List (Slot × List Bool)}
    (hs : w.stack = (i, p) :: rest) (hi : (arenaGet node i.toNat).isLeaf = true) :
    DeriveInv freq node root (deriveVisit node w) := by
  rw [deriveVisit_leaf hs hi]
  have hp : walk node root p = some i := h.onPath (i, p) (by simp [hs])
  have hlt : i.toNat < n := (ht.isLeaf_iff (ht.walk_lt ht.root_lt hp)).1 hi
  obtain ⟨hsym, hpres⟩ := (mem_presentSyms _ _).1 (ht.leafSym_mem hlt)
  have hne : p ≠ [] := by
    rintro rfl
    obtain rfl : root = i := by simpa [walk] using hp
    simp [hroot] at hi
  have hnew : ∀ sym, (arenaGet node i.toNat).sym.toNat = sym →
      HasCode node root (codeSet w.code (arenaGet node i.toNat).sym.toNat (CodeEntry.ofPath p)) sym := by
    rintro sym rfl
    refine ⟨p, ?_, List.length_pos_of_ne_nil hne, ht.path_length hp, by simp [codeGet_codeSet, hsym]⟩
    rw [IsCodeOf, if_neg (by simp [hroot])]
    exact ⟨i, hp, hi, rfl⟩
  constructor
  · intro e he
    exact h.onPath e (by simp [hs, he])
  · intro sym habs
    have : (arenaGet node i.toNat).sym.toNat ≠ sym := by
      rintro rfl
      rw [(present_iff _ _).2 hpres] at habs
      simp at habs
    simp [codeGet_codeSet, this, h.absent sym habs]
  · intro sym hsp
    by_cases hsame : (arenaGet node i.toNat).sym.toNat = sym
    · exact .inl (hnew sym hsame)
    · rcases h.present sym hsp with ⟨q, hq⟩ | ⟨e, q, j, he, hq, hj, hjs⟩
      · exact .inl ⟨q, by simpa [codeGet_codeSet, hsame] using hq⟩
      · rw [hs, List.mem_cons] at he
        rcases he with rfl | he
        · cases q with
          | nil =>
            obtain rfl : i = j := by simpa [walk] using hq
            exact absurd hjs hsame
          | cons x q => simp [walk_leaf hi] at hq
        · exact .inr ⟨e, q, j, he, hq, hj, hjs⟩

/-- Visiting an internal slot puts its children on the stack in its place, with their paths (R233). -/
theorem DeriveInv.visit_internal {w : DeriveWork} (h : DeriveInv freq node root w) {i : Slot} {p : List Bool}
    {rest : List (Slot × List Bool)} (hs : w.stack = (i, p) :: rest) (hi : (arenaGet node i.toNat).isLeaf = false) :
    DeriveInv freq node root (deriveVisit node w) := by
  rw [deriveVisit_internal hs hi]
  have hp : walk node root p = some i := h.onPath (i, p) (by simp [hs])
  constructor
  · intro e he
    simp only [List.mem_cons] at he
    rcases he with rfl | rfl | he
    · exact walk_concat hp hi false
    · exact walk_concat hp hi true
    · exact h.onPath e (by simp [hs, he])
  · exact h.absent
  · intro sym hsp
    refine (h.present sym hsp).imp_right ?_
    rintro ⟨e, q, j, he, hq, hj, hjs⟩
    rw [hs, List.mem_cons] at he
    rcases he with rfl | he
    · cases q with
      | nil =>
        obtain rfl : i = j := by simpa [walk] using hq
        simp [hi] at hj
      | cons x q =>
        have hq' : walk node ((arenaGet node i.toNat).child x) q = some j := by simpa [walk, hi] using hq
        cases x
        · exact ⟨_, q, j, List.mem_cons_self .., hq', hj, hjs⟩
        · exact ⟨_, q, j, List.mem_cons_of_mem _ (List.mem_cons_self ..), hq', hj, hjs⟩
    · exact ⟨e, q, j, by simp [he], hq, hj, hjs⟩

/-- Every pass keeps the loop's invariant and visits one slot (R233, R213). -/
theorem DeriveInv.visit {w : DeriveWork} (h : DeriveInv freq node root w) (ht : TreeInv freq node n root)
    (hroot : (arenaGet node root.toNat).isLeaf = false) (hne : w.stack ≠ []) :
    DeriveInv freq node root (deriveVisit node w) ∧
      stackSize node (deriveVisit node w).stack + 1 = stackSize node w.stack := by
  obtain ⟨⟨i, p⟩, rest, hs⟩ := List.exists_cons_of_ne_nil hne
  have hlt : i.toNat < 2 * n - 1 := ht.walk_lt ht.root_lt (h.onPath (i, p) (by simp [hs]))
  cases hi : (arenaGet node i.toNat).isLeaf with
  | true =>
    refine ⟨h.visit_leaf ht hroot hs hi, ?_⟩
    have := ht.subtreeSize_leaf ((ht.isLeaf_iff hlt).1 hi)
    simp [deriveVisit_leaf hs hi, stackSize, hs, this]
    omega
  | false =>
    refine ⟨h.visit_internal hs hi, ?_⟩
    have := ht.subtreeSize_internal ((ht.not_isLeaf_iff hlt).1 hi) hlt
    simp [deriveVisit_internal hs hi, stackSize, hs, this]
    omega

/-- The loop ends, and with an empty stack, when it is given a pass for every slot still to be visited. -/
theorem DeriveInv.loop {w : DeriveWork} (h : DeriveInv freq node root w) (ht : TreeInv freq node n root)
    (hroot : (arenaGet node root.toNat).isLeaf = false) {k : Nat} (hk : stackSize node w.stack ≤ k) :
    ∃ w', deriveLoop node k w = some w' ∧ DeriveInv freq node root w' ∧ w'.stack = [] := by
  induction k generalizing w with
  | zero =>
    have hnil : w.stack = [] := by
      cases hs : w.stack with
      | nil => rfl
      | cons e rest =>
        have := subtreeSize_pos node e.1.toNat
        simp [stackSize, hs] at hk
        omega
    exact ⟨w, by simp [deriveLoop, hnil], h, hnil⟩
  | succ k ih =>
    by_cases hnil : w.stack = []
    · exact ⟨w, by simp [deriveLoop, hnil], h, hnil⟩
    · obtain ⟨hv, hsize⟩ := h.visit ht hroot hnil
      obtain ⟨w', hw'⟩ := ih hv (by omega)
      exact ⟨w', by simpa [deriveLoop, hnil] using hw'⟩

/-- Before the first pass every symbol present is due below the root. -/
theorem TreeInv.deriveInv_start (ht : TreeInv freq node n root) :
    DeriveInv freq node root { code := Vector.replicate 257 CodeEntry.empty, stack := [(root, [])] } where
  onPath := by simp [walk]
  absent := by simp
  present := by
    intro sym hsp
    have hsyms : sym ∈ presentSyms freq := by
      refine (mem_presentSyms _ _).2 ⟨?_, (present_iff _ _).1 hsp⟩
      by_contra hge
      exact (present_iff _ _).1 hsp (freqGet_past _ (by omega))
    obtain ⟨i, hi, his⟩ := ht.leaf_of_present hsyms
    have hn := ht.leaves_le
    have hnat : (BitVec.ofNat 10 i).toNat = i := Nat.mod_eq_of_lt (by omega)
    obtain ⟨q, hq⟩ := ht.exists_path (BitVec.ofNat 10 i) (by omega)
    refine .inr ⟨(root, []), q, BitVec.ofNat 10 i, by simp, hq, ?_, by rw [hnat]; exact his⟩
    rw [hnat]
    exact (ht.isLeaf_iff (by omega)).2 hi

/-- The walk over a tree whose root is no leaf ends with the tree's codes (R233, R235). -/
theorem TreeInv.deriveLoop_codes (ht : TreeInv freq node n root) (hroot : (arenaGet node root.toNat).isLeaf = false) :
    ∃ w, deriveLoop node 513 { code := Vector.replicate 257 CodeEntry.empty, stack := [(root, [])] } = some w ∧
      CodesInv freq node root w.code := by
  have hn := ht.leaves_le
  have hsize : stackSize node [(root, [])] ≤ 513 := by
    simp [stackSize, ht.subtreeSize_root]
    omega
  obtain ⟨w, hw, hinv, hnil⟩ := ht.deriveInv_start.loop ht hroot hsize
  refine ⟨w, hw, fun sym _ => ⟨hinv.absent sym, fun hsp => ?_⟩⟩
  rcases hinv.present sym hsp with hcode | ⟨e, q, j, he, -⟩
  · exact hcode
  · simp [hnil] at he

/-- The code "0" of a lone leaf (R234). -/
theorem TreeInv.codes_loneLeaf (ht : TreeInv freq node n root) (hroot : (arenaGet node root.toNat).isLeaf = true) :
    CodesInv freq node root (codeSet (Vector.replicate 257 CodeEntry.empty) (arenaGet node root.toNat).sym.toNat
      (CodeEntry.ofPath [false])) := by
  have hone : n = 1 := by
    have := (ht.isLeaf_iff ht.root_lt).1 hroot
    have := ht.root
    have := ht.nonempty
    omega
  have hroot0 : root.toNat = 0 := by
    have := ht.root
    omega
  have hmem : ∀ sym, sym ∈ presentSyms freq ↔ (arenaGet node root.toNat).sym.toNat = sym := by
    intro sym
    rw [← ht.leafSyms, hone, hroot0]
    simp [eq_comm (a := sym)]
  intro sym hlt
  have hiff : present freq sym = true ↔ (arenaGet node root.toNat).sym.toNat = sym := by
    rw [← hmem, mem_presentSyms, present_iff]
    exact ⟨fun h => ⟨hlt, h⟩, fun h => h.2⟩
  constructor
  · intro habs
    have hne : (arenaGet node root.toNat).sym.toNat ≠ sym := by
      intro he
      simp [hiff.2 he] at habs
    simp [codeGet_codeSet, hne]
  · intro hsp
    have he := hiff.1 hsp
    refine ⟨[false], ?_, by simp, by simp, by simp [codeGet_codeSet, he, hlt]⟩
    rw [IsCodeOf, if_pos hroot]
    exact ⟨rfl, he⟩

end Sys2Proof.Machine
end

section
/-! PROOF. What the execution step of BUILD_TREE leaves in the arena: legal slots from any legal arena, and a tree of R57 from an
EMPTY one (R205, R208, R210). -/

namespace Sys2Proof.Machine

/-! ## Legal slots -/

/-- A slot with a symbol, EOS or NAS, and no children under a leaf (R54, R55). -/
def NodeLegal (n : Node) : Prop :=
  (n.sym.toNat ≤ 256 ∨ n.sym = Config.nas) ∧ (n.isLeaf = true → n.zero = Config.nil ∧ n.one = Config.nil)

theorem nodeLegal_empty : NodeLegal Node.empty := ⟨.inr rfl, fun _ => ⟨rfl, rfl⟩⟩

theorem nodeLegal_leafNode (freq : Vector Count 257) {sym : Nat} (h : sym < 257) : NodeLegal (leafNode freq sym) := by
  refine ⟨.inl ?_, fun _ => ⟨rfl, rfl⟩⟩
  simp only [leafNode, BitVec.toNat_ofNat]
  omega

theorem nodeLegal_internalNode (node : Vector Node 513) (a b : Slot) : NodeLegal (internalNode node a b) :=
  ⟨.inr rfl, fun h => absurd h (by simp [Node.isLeaf, internalNode])⟩

theorem slotsLegal_emptied : SlotsLegal (Vector.replicate 513 Node.empty) := by
  intro i _
  rw [arenaGet_emptied]
  exact nodeLegal_empty

theorem SlotsLegal.push {w : BuildWork} (h : SlotsLegal w.node) {n : Node} (hn : NodeLegal n) : SlotsLegal (w.push n).node := by
  intro i hi
  by_cases hnext : i = w.next
  · subst hnext
    rw [push_get_next hi]
    exact hn
  · rw [push_get hnext]
    exact h i hi

theorem SlotsLegal.insertLeaves {node : Vector Node 513} (h : SlotsLegal node) (freq : Vector Count 257) :
    SlotsLegal (insertLeaves freq node).node := by
  rw [insertLeaves_eq]
  refine List.foldlRecOn (motive := fun w : BuildWork => SlotsLegal w.node) (presentSyms freq) _ h ?_
  intro w hw sym hsym
  exact hw.push (nodeLegal_leafNode freq ((mem_presentSyms _ _).1 hsym).1)

theorem SlotsLegal.mergeStep {w : BuildWork} (h : SlotsLegal w.node) : SlotsLegal (mergeStep w).node := by
  unfold Machine.mergeStep
  split
  · exact h
  · split
    · exact h
    · exact SlotsLegal.push (w := { w with pq := _ }) h (nodeLegal_internalNode ..)

theorem SlotsLegal.mergeLoop {w : BuildWork} (h : SlotsLegal w.node) (k : Nat) : SlotsLegal (mergeLoop k w).node := by
  induction k generalizing w with
  | zero => exact h
  | succ k ih =>
    rw [Machine.mergeLoop]
    split
    · exact ih h.mergeStep
    · exact h

theorem SlotsLegal.buildStep {s : State} (h : SlotsLegal s.node) : SlotsLegal (buildStep s).node := by
  rcases buildStep_cases s with ⟨-, he⟩ | ⟨-, -, he⟩ | ⟨-, he⟩ <;> rw [he]
  · exact h
  · exact h
  · exact (h.insertLeaves s.freq).mergeLoop _

/-! ## The tree -/

/-- The merge loop keeps the builder's invariant and leaves one slot in the queue (R208, R209). -/
theorem BuildInv.mergeLoop {freq : Vector Count 257} {syms : List Nat} {w : BuildWork} (h : BuildInv freq syms w)
    (hpos : 1 ≤ w.pq.length) {k : Nat} (hk : w.pq.length ≤ k) :
    BuildInv freq syms (mergeLoop k w) ∧ (mergeLoop k w).pq.length = 1 := by
  induction k generalizing w with
  | zero => omega
  | succ k ih =>
    rw [Machine.mergeLoop]
    split
    · rename_i hq
      obtain ⟨hm, hnext⟩ := buildInv_mergeStep h hq
      have := h.queue_length
      have := hm.queue_length
      exact ih hm (by omega) (by omega)
    · exact ⟨h, by omega⟩

/-- A builder whose queue holds one slot has made a tree of R57 with that root. -/
theorem BuildInv.treeInv {freq : Vector Count 257} {w : BuildWork} (h : BuildInv freq (presentSyms freq) w) {root : Slot}
    (hq : w.pq = [root]) (heos : present freq 256 = true) : TreeInv freq w.node (presentSyms freq).length root := by
  have hmem : 256 ∈ presentSyms freq := (mem_presentSyms _ _).2 ⟨by omega, (present_iff _ _).1 heos⟩
  have hpos : 1 ≤ (presentSyms freq).length := List.length_pos_of_mem hmem
  have hnext : w.next = 2 * (presentSyms freq).length - 1 := by
    have := h.queue_length
    simp [hq] at this
    omega
  have hsymAt : ∀ i (hi : i < (presentSyms freq).length), (arenaGet w.node i).sym.toNat = (presentSyms freq)[i] := by
    intro i hi
    have := ((mem_presentSyms _ _).1 (List.getElem_mem hi)).1
    rw [h.leaf i hi]
    simp only [leafNode, BitVec.toNat_ofNat]
    omega
  have hchildren : childrenBelow w.node (presentSyms freq).length w.next = childList w.node (presentSyms freq).length := by
    rw [childrenBelow, childList, hnext]
    congr 2
    omega
  have hslots := h.slots
  rw [hchildren, hq, hnext, show 2 * (presentSyms freq).length - 1 = 2 * (presentSyms freq).length - 2 + 1 by omega,
    List.range_succ] at hslots
  have hroot : root.toNat = 2 * (presentSyms freq).length - 2 := by
    have hlast := hslots.mem_iff.2 (List.mem_append_right _ (List.mem_singleton_self _))
    rcases List.mem_append.1 hlast with hr | hc
    · simpa [eq_comm] using hr
    · simp only [childList, List.mem_flatMap, List.mem_range'_1, List.mem_cons, List.not_mem_nil, or_false] at hc
      obtain ⟨k, ⟨h1, h2⟩, hc⟩ := hc
      obtain ⟨-, hzero, hone, -⟩ := h.internal k h1 (by omega)
      omega
  refine
    { nonempty := hpos
      leafSyms := List.ext_getElem (by simp) fun i h1 h2 => by simp [hsymAt i h2]
      leaf := fun i hi => by rw [hsymAt i hi, h.leaf i hi]
      eosPresent := heos
      internal := fun k h1 h2 => h.internal k h1 (by omega)
      unused := fun k h1 h2 => h.unused k (by omega) h2
      root := hroot
      childrenOnce := ?_ }
  have hcons : ((2 * (presentSyms freq).length - 2) :: childList w.node (presentSyms freq).length).Perm
      ((2 * (presentSyms freq).length - 2) :: List.range (2 * (presentSyms freq).length - 2)) := by
    rw [← hroot]
    exact hslots.trans (hroot ▸ List.perm_append_singleton ..)
  exact hcons.cons_inv

/-- BUILD_TREE over a table with EOS makes a tree of R57 (R205, R208, R210). -/
theorem buildOf_tree {freq : Vector Count 257} (heos : present freq 256 = true) :
    ∃ root, (buildOf freq).pq = [root] ∧ TreeInv freq (buildOf freq).node (presentSyms freq).length root := by
  obtain ⟨hleaves, hnext⟩ := buildInv_insertLeaves freq
  have hmem : 256 ∈ presentSyms freq := (mem_presentSyms _ _).2 ⟨by omega, (present_iff _ _).1 heos⟩
  have hpos : 1 ≤ (presentSyms freq).length := List.length_pos_of_mem hmem
  have hqueue := hleaves.queue_length
  obtain ⟨hinv, hone⟩ := hleaves.mergeLoop (by omega) (Nat.le_refl _)
  obtain ⟨root, hroot⟩ := List.length_eq_one_iff.1 hone
  exact ⟨root, hroot, hinv.treeInv hroot heos⟩

end Sys2Proof.Machine
end

section
/-! PROOF. What a step does to the block: the surroundings set aside, five events are left. Who writes the tables (R50, R53, R59), and
the slots stay legal (R54, R55). -/

namespace Sys2Proof.Machine

/-! ## The events of the block -/

/-- What happens to the block in a step: nothing, a reset, the engine's step, a command, or a register write. -/
inductive BlockEvent (s t : State) : Prop where
  | none (h : t = withSurroundings s t)
  | reset (ts : List Turn) (hturn : s.turns = .rst true :: ts) (h : t = withSurroundings State.reset t)
  | engine (ts : List Turn) (hrst : s.rst = false) (hturn : s.turns = .engine :: ts) (h : t = setTurns ts (engineStep s))
  | command (ts : List Turn) (bytes : List Byte) (p : List HostOp) (i : Instr) (hrst : s.rst = false)
      (hturn : s.turns = .host :: ts) (hprog : s.hostProg = .write 0x04 bytes :: p) (hdec : Sys2Proof.decode bytes = .ok i)
      (h : exec i { s with turns := ts, hostProg := p } = .next t)
  | write (ts : List Turn) (off : BitVec 8) (v : Word) (p : List HostOp) (hrst : s.rst = false) (hturn : s.turns = .host :: ts)
      (h : t = memWrite off v { s with turns := ts, hostProg := p })

/-- A read moves no part of the block (R109). -/
theorem recordRead_surroundings (off : BitVec 8) (s : State) :
    recordRead (memRead off s) = withSurroundings s (recordRead (memRead off s)) := by
  rw [recordRead, memRead_state]
  rfl

theorem hostWait_surroundings (s : State) : hostWait s = withSurroundings s (hostWait s) := by
  have h := recordRead_surroundings Reg.status.offset s
  unfold hostWait
  rw [h]
  split <;> rfl

/-- Every step that has a next state is one of the block's events. -/
theorem step_blockEvent {s t : State} (h : step s = .next t) : BlockEvent s t := by
  rcases step_cases h with ⟨-, rfl⟩ | ⟨x, ts, s0, hturn, rfl, hx⟩
  · exact .none rfl
  rcases hx with ⟨-, -, rfl⟩ | ⟨rfl, hrst, ht⟩ | ⟨rfl, hrst, rfl⟩ | ⟨act, -, rfl⟩ | ⟨act, -, rfl⟩ | ⟨ready, -, rfl⟩ |
    ⟨ready, -, rfl⟩ | ⟨rfl, rfl⟩ | ⟨-, rfl⟩
  · exact .none rfl
  · rcases hostTurn_cases ht with ⟨-, rfl⟩ | ⟨off, p, -, -, rfl⟩ | ⟨bytes, p, i, hprog, hdec, he⟩ | ⟨off, bytes, p, v, -, -, -, rfl⟩ |
      ⟨p, -, rfl⟩
    · exact .none rfl
    · exact .none (recordRead_surroundings off _)
    · exact .command ts bytes p i hrst hturn hprog hdec he
    · exact .write ts off v p hrst hturn rfl
    · exact .none (hostWait_surroundings _)
  · exact .engine ts hrst hturn (engineStep_turns ts s)
  · exact .none rfl
  · exact .none rfl
  · exact .none rfl
  · exact .none rfl
  · exact .reset ts hturn rfl
  · exact .none rfl

/-! ## What an event writes -/

/-- The tables, the tree bookkeeping and the validity flags. -/
def State.tables (s : State) :
    Vector Count 257 × Vector Node 513 × BitVec 9 × Slot × Vector CodeEntry 257 × Bool × Bool :=
  (s.freq, s.node, s.leafCnt, s.rootIdx, s.code, s.treeValid, s.codesValid)

theorem freq_of_tables {s t : State} (h : t.tables = s.tables) : t.freq = s.freq := congrArg (fun x => x.1) h

theorem node_of_tables {s t : State} (h : t.tables = s.tables) : t.node = s.node := congrArg (fun x => x.2.1) h

theorem code_of_tables {s t : State} (h : t.tables = s.tables) : t.code = s.code := congrArg (fun x => x.2.2.2.2.1) h

/-- ENCODE's steps write no table, bookkeeping or flag (R260). -/
theorem encodeStep_tables (s : State) : (encodeStep s).tables = s.tables := by
  rcases encodeStep_cases s with ⟨-, he⟩ | ⟨-, he⟩ | ⟨-, he⟩ | he <;> rw [he]
  · rcases encWaitSymStep_cases s with ⟨-, he⟩ | ⟨b, r, -, ⟨-, he⟩ | ⟨-, -, he⟩ | ⟨-, -, he⟩⟩ | ⟨r, -, he⟩ <;> rw [he] <;> rfl
  · rcases encShiftStep_cases s with ⟨-, he⟩ | ⟨-, -, he⟩ | ⟨-, -, he⟩ <;> rw [he] <;> rfl
  · rcases encShiftEosStep_cases s with ⟨-, he⟩ | ⟨-, -, he⟩ | ⟨-, -, -, he⟩ | ⟨-, -, -, he⟩ <;> rw [he] <;> rfl

/-- A move of the decoder's pointer writes no table, bookkeeping or flag. -/
theorem arrive_tables (nxt : Slot) (s : State) : (arrive nxt s).tables = s.tables := by
  rcases arrive_cases nxt s with ⟨-, -, he⟩ | ⟨-, -, he⟩ | ⟨-, he⟩ <;> rw [he] <;> rfl

/-- DECODE's steps write no table, bookkeeping or flag (R280). -/
theorem decodeStep_tables (s : State) : (decodeStep s).tables = s.tables := by
  rcases decodeStep_cases s with ⟨-, he⟩ | ⟨-, he⟩ | he <;> rw [he]
  · rcases decWaitBitStep_cases s with ⟨-, he⟩ | ⟨r, -, he⟩ | ⟨x, r, -, ⟨-, he⟩ | ⟨-, -, he⟩ | ⟨-, n, -, he⟩⟩ <;> rw [he]
    · rfl
    · rfl
    · rfl
    · exact arrive_tables n _
  · rcases decEmitStep_cases s with ⟨-, he⟩ | ⟨-, -, he⟩ | ⟨-, -, he⟩ <;> rw [he] <;> rfl

/-- BUILD's step writes neither the frequency table nor the code table (R204). -/
theorem buildStep_freq_code (s : State) : (buildStep s).freq = s.freq ∧ (buildStep s).code = s.code := by
  rcases buildStep_cases s with ⟨-, he⟩ | ⟨-, -, he⟩ | ⟨-, he⟩ <;> rw [he] <;> exact ⟨rfl, rfl⟩

/-- DERIVE's step writes neither the frequency table nor the arena (R231). -/
theorem deriveStep_freq_node (s : State) : (deriveStep s).freq = s.freq ∧ (deriveStep s).node = s.node := by
  rcases deriveStep_cases s with ⟨-, he⟩ | ⟨-, w, -, he⟩ | ⟨-, -, he⟩ <;> rw [he] <;> exact ⟨rfl, rfl⟩

/-- The engine never writes the frequency table, the arena only while BUILD runs and the code table only while DERIVE runs. -/
theorem engineStep_tables (s : State) :
    (engineStep s).freq = s.freq ∧
      ((engineStep s).node = s.node ∨ s.fsm = Config.fsmBuild ∧ (engineStep s).node = (buildStep s).node) ∧
      ((engineStep s).code = s.code ∨ s.fsm = Config.fsmDerive) := by
  rcases engineStep_cases s with ⟨hf, he⟩ | ⟨hf, he⟩ | ⟨-, he⟩ | ⟨-, he⟩ | he <;> rw [he]
  · obtain ⟨hfreq, hcode⟩ := buildStep_freq_code s
    exact ⟨hfreq, .inr ⟨hf, rfl⟩, .inl hcode⟩
  · obtain ⟨hfreq, hnode⟩ := deriveStep_freq_node s
    exact ⟨hfreq, .inl hnode, .inr hf⟩
  · have h := encodeStep_tables s
    exact ⟨freq_of_tables h, .inl (node_of_tables h), .inl (code_of_tables h)⟩
  · have h := decodeStep_tables s
    exact ⟨freq_of_tables h, .inl (node_of_tables h), .inl (code_of_tables h)⟩
  · exact ⟨rfl, .inl rfl, .inl rfl⟩

theorem acceptDeriveCodes_cases (s : State) :
    (s.treeValid = true ∧ acceptDeriveCodes s = { s with
        code := Vector.replicate 257 CodeEntry.empty, codesValid := false, fsm := Config.fsmDerive, sub := 0 }) ∨
      (s.treeValid = false ∧ acceptDeriveCodes s = complete ErrCode.noTree.code (Sys2Proof.encode .deriveCodes) s) := by
  by_cases hv : s.treeValid = true
  · exact .inl ⟨hv, by rw [acceptDeriveCodes, if_pos hv]; rfl⟩
  · exact .inr ⟨by simpa using hv, by rw [acceptDeriveCodes, if_neg hv]; rfl⟩

theorem acceptEncode_cases (s : State) :
    (s.codesValid = true ∧ acceptEncode s = { s with
        bitCount := 0, symCount := 0, fsm := Config.fsmEncode, sub := Config.encWaitSym }) ∨
      (s.codesValid = false ∧ acceptEncode s = complete ErrCode.noCodes.code (Sys2Proof.encode .encode) s) := by
  by_cases hv : s.codesValid = true
  · exact .inl ⟨hv, by rw [acceptEncode, if_pos hv]; rfl⟩
  · exact .inr ⟨by simpa using hv, by rw [acceptEncode, if_neg hv]; rfl⟩

theorem acceptDecode_cases (s : State) :
    (s.treeValid = true ∧ acceptDecode s = { s with
        bitCount := 0, symCount := 0, decCur := s.rootIdx, fsm := Config.fsmDecode, sub := Config.decWaitBit }) ∨
      (s.treeValid = false ∧ acceptDecode s = complete ErrCode.noTree.code (Sys2Proof.encode .decode) s) := by
  by_cases hv : s.treeValid = true
  · exact .inl ⟨hv, by rw [acceptDecode, if_pos hv]; rfl⟩
  · exact .inr ⟨by simpa using hv, by rw [acceptDecode, if_neg hv]; rfl⟩

theorem acceptDeriveCodes_node (s : State) : (acceptDeriveCodes s).node = s.node := by
  rcases acceptDeriveCodes_cases s with ⟨-, he⟩ | ⟨-, he⟩
  · rw [he]
  · rw [he]; rfl

theorem acceptEncode_tables (s : State) : (acceptEncode s).tables = s.tables := by
  rcases acceptEncode_cases s with ⟨-, he⟩ | ⟨-, he⟩ <;> rw [he] <;> rfl

theorem acceptDecode_tables (s : State) : (acceptDecode s).tables = s.tables := by
  rcases acceptDecode_cases s with ⟨-, he⟩ | ⟨-, he⟩ <;> rw [he] <;> rfl

/-- The accepts write the arena only for BUILD_TREE and RELEASE, and only to empty it (R201, R311). -/
theorem acceptOf_node (i : Instr) (s : State) :
    (acceptOf i s).node = s.node ∨ (i = .buildTree ∨ i = .release) ∧ (acceptOf i s).node = Vector.replicate 513 Node.empty := by
  cases i with
  | buildTree => exact .inr ⟨.inl rfl, rfl⟩
  | release => exact .inr ⟨.inr rfl, rfl⟩
  | deriveCodes => exact .inl (acceptDeriveCodes_node s)
  | encode => exact .inl (node_of_tables (acceptEncode_tables s))
  | decode => exact .inl (node_of_tables (acceptDecode_tables s))
  | nop | clearFreq | abort | illegal => exact .inl rfl

/-- The accepts write the code table only for BUILD_TREE, RELEASE and DERIVE_CODES (R201, R311, R231). -/
theorem acceptOf_code (i : Instr) (s : State) :
    (acceptOf i s).code = s.code ∨ i = .buildTree ∨ i = .release ∨ i = .deriveCodes := by
  cases i with
  | buildTree => exact .inr (.inl rfl)
  | release => exact .inr (.inr (.inl rfl))
  | deriveCodes => exact .inr (.inr (.inr rfl))
  | encode => exact .inl (code_of_tables (acceptEncode_tables s))
  | decode => exact .inl (code_of_tables (acceptDecode_tables s))
  | nop | clearFreq | abort | illegal => exact .inl rfl

/-- The block of one state with the flags, enables and selectors of another that the host writes: DONE, OVERRUN, IRQ_EN and the four
selectors. -/
def withHostControls (s u : State) : State :=
  { s with
    done := u.done, overrun := u.overrun, irqEn := u.irqEn, freqSel := u.freqSel, nodeSel := u.nodeSel, codeSel := u.codeSel,
    codeWordSel := u.codeWordSel }

/-- A register write moves the host's controls, or is a FREQ_DATA write to the idle engine that changes an entry (R110, R182). -/
theorem memWrite_block (off : BitVec 8) (v : Word) (s : State) :
    memWrite off v s = withHostControls s (memWrite off v s) ∨
      (s.fsm = Config.fsmIdle ∧ memWrite off v s = { s with
        freq := freqSet s.freq s.freqSel.toNat v, treeValid := false, codesValid := false }) := by
  rcases memWrite_cases off v s with he | he | he | he | he | he | he | ⟨-, he⟩ <;> rw [he]
  rotate_left 7
  · rcases writeFreqData_cases v s with ⟨-, he⟩ | ⟨-, -, he⟩ | ⟨hidle, -, -, he⟩ <;> rw [he]
    · exact .inl rfl
    · exact .inl rfl
    · exact .inr ⟨hidle, rfl⟩
  all_goals exact .inl rfl

/-- A register write writes the frequency table only while the engine is idle (R182), and no other table. -/
theorem memWrite_tables (off : BitVec 8) (v : Word) (s : State) :
    ((memWrite off v s).freq = s.freq ∨ s.fsm = Config.fsmIdle) ∧ (memWrite off v s).node = s.node ∧
      (memWrite off v s).code = s.code := by
  rcases memWrite_block off v s with he | ⟨hidle, he⟩ <;> rw [he]
  · exact ⟨.inl rfl, rfl, rfl⟩
  · exact ⟨.inr hidle, rfl, rfl⟩

/-- Settles O35: each event of the block writes what its rule names. -/
theorem onlyTheNamedEventsWriteTables : Obligations.OnlyTheNamedEventsWriteTables := by
  intro s t h
  rcases step_blockEvent h with he | ⟨ts, hturn, -⟩ | ⟨ts, hrst, hturn, rfl⟩ | ⟨ts, bytes, p, i, hrst, hturn, hprog, hdec, he⟩ |
    ⟨ts, off, v, p, hrst, hturn, rfl⟩
  · rw [he]
    exact ⟨absurd rfl, absurd rfl, absurd rfl⟩
  · exact ⟨fun _ => .inl ⟨ts, hturn⟩, fun _ => .inl ⟨ts, hturn⟩, fun _ => .inl ⟨ts, hturn⟩⟩
  · obtain ⟨hfreq, hnode, hcode⟩ := engineStep_tables s
    refine ⟨absurd hfreq, fun hne => ?_, fun hne => ?_⟩
    · exact .inr (.inl ⟨hrst, (hnode.resolve_left hne).1, ts, hturn⟩)
    · exact .inr (.inl ⟨hrst, hcode.resolve_left hne, ts, hturn⟩)
  · rcases exec_cases he with ⟨hidle, rfl⟩ | ⟨-, -, rfl⟩ | ⟨-, rfl⟩
    · refine ⟨fun _ => .inr ⟨hrst, hidle, ts, hturn⟩, fun hne => ?_, fun hne => ?_⟩
      · exact .inr (.inr ⟨hrst, hidle, ts, bytes, p, i, hturn, hprog, hdec, ((acceptOf_node i _).resolve_left hne).1⟩)
      · exact .inr (.inr ⟨hrst, hidle, ts, bytes, p, i, hturn, hprog, hdec, (acceptOf_code i _).resolve_left hne⟩)
    · exact ⟨absurd rfl, absurd rfl, absurd rfl⟩
    · exact ⟨absurd rfl, absurd rfl, absurd rfl⟩
  · obtain ⟨hfreq, hnode, hcode⟩ := memWrite_tables off v { s with turns := ts, hostProg := p }
    exact ⟨fun hne => .inr ⟨hrst, hfreq.resolve_left hne, ts, hturn⟩, absurd hnode, absurd hcode⟩

/-- Settles O49: the arena is written only by a reset or an accept, which empty it, and by BUILD's step, which fills it with leaves and
internal nodes. -/
theorem stepsKeepTheSlotsLegal : Obligations.StepsKeepTheSlotsLegal := by
  intro s t hs h
  rcases step_blockEvent h with he | ⟨ts, -, he⟩ | ⟨ts, -, -, rfl⟩ | ⟨ts, bytes, p, i, -, -, -, -, he⟩ | ⟨ts, off, v, p, -, -, rfl⟩
  · rw [he]
    exact hs
  · rw [he]
    exact slotsLegal_emptied
  · change SlotsLegal (engineStep s).node
    rcases (engineStep_tables s).2.1 with hnode | ⟨-, hnode⟩ <;> rw [hnode]
    · exact hs
    · exact hs.buildStep
  · rcases exec_cases he with ⟨-, rfl⟩ | ⟨-, -, rfl⟩ | ⟨-, rfl⟩
    · rcases acceptOf_node i (beginAccept { s with turns := ts, hostProg := p }) with hnode | ⟨-, hnode⟩ <;> rw [hnode]
      · exact hs
      · exact slotsLegal_emptied
    · exact hs
    · exact hs
  · rw [(memWrite_tables off v _).2.1]
    exact hs

end Sys2Proof.Machine
end

section
/-! PROOF. Every step keeps the control invariant (R64, R61, R62, R38, R40, R168). -/

namespace Sys2Proof.Machine

/-! ## What the control invariant looks at -/

/-- The fields that the control invariant looks at, but for the sub-state. -/
def State.control (s : State) : Bool × Bool × BitVec 4 × BitVec 3 × List Slot × List (Slot × List Bool) :=
  (s.treeValid, s.codesValid, s.err, s.fsm, s.pq, s.stack)

/-- A step that moves at most the sub-state, to a listed one, keeps the control invariant. -/
theorem ControlInv.of_control {s t : State} (h : ControlInv s) (hl : t.legalEngine = true) (he : t.control = s.control) :
    ControlInv t := by
  simp only [State.control, Prod.mk.injEq] at he
  obtain ⟨htree, hcodes, herr, hfsm, hpq, hstack⟩ := he
  refine ⟨hl, ?_, ?_, ?_, ?_, ?_, ?_, ?_, ?_⟩ <;> simp only [htree, hcodes, herr, hfsm, hpq, hstack]
  · exact h.pqEmpty
  · exact h.stackEmpty
  · exact h.codesNeedTree
  · exact h.buildHasNoTree
  · exact h.deriveHasTree
  · exact h.encodeHasCodes
  · exact h.decodeHasTree
  · exact h.errListed

/-- An idle engine runs no command, so it has no prerequisite to keep. -/
theorem controlInv_idle {s : State} (hfsm : s.fsm = Config.fsmIdle) (hsub : s.sub = 0) (hpq : s.pq = []) (hstack : s.stack = [])
    (hflags : s.codesValid = true → s.treeValid = true) (herr : s.err.toNat ≤ 10) : ControlInv s where
  legal := by simp [State.legalEngine, hfsm, hsub]
  pqEmpty := hpq
  stackEmpty := hstack
  codesNeedTree := hflags
  buildHasNoTree := fun h => absurd (hfsm.symm.trans h) (by decide)
  deriveHasTree := fun h => absurd (hfsm.symm.trans h) (by decide)
  encodeHasCodes := fun h => absurd (hfsm.symm.trans h) (by decide)
  decodeHasTree := fun h => absurd (hfsm.symm.trans h) (by decide)
  errListed := herr

/-- A completion leaves the engine idle with its working state empty (R165). -/
theorem controlInv_complete {s : State} {e : BitVec 4} {info : Word} (he : e.toNat ≤ 10)
    (hflags : s.codesValid = true → s.treeValid = true) : ControlInv (complete e info s) :=
  controlInv_idle rfl rfl rfl rfl hflags he

/-- A completion that leaves the validity flags as a state that meets the control invariant has them. -/
theorem ControlInv.completed {s t : State} (h : ControlInv s) {e : BitVec 4} {info : Word} (he : e.toNat ≤ 10)
    (htree : t.treeValid = s.treeValid := by rfl) (hcodes : t.codesValid = s.codesValid := by rfl) :
    ControlInv (complete e info t) :=
  controlInv_complete he fun hc => htree.trans (h.codesNeedTree (hcodes.symm.trans hc))

/-- The codes of R330 are 1 to 10. -/
theorem errCode_le (e : ErrCode) : e.code.toNat ≤ 10 := by cases e <;> decide

/-- The sub-states of ENCODE (R64). -/
theorem legalEngine_encode {s : State} (hf : s.fsm = Config.fsmEncode) :
    s.legalEngine = true ↔ s.sub = Config.encWaitSym ∨ s.sub = Config.encShift ∨ s.sub = Config.encShiftEos := by
  simp [State.legalEngine, hf, Config.fsmIdle, Config.fsmBuild, Config.fsmDerive, Config.fsmEncode]

/-- The sub-states of DECODE (R64). -/
theorem legalEngine_decode {s : State} (hf : s.fsm = Config.fsmDecode) :
    s.legalEngine = true ↔ s.sub = Config.decWaitBit ∨ s.sub = Config.decEmit := by
  simp [State.legalEngine, hf, Config.fsmIdle, Config.fsmBuild, Config.fsmDerive, Config.fsmEncode, Config.fsmDecode]

/-! ## The accepts -/

theorem ControlInv.beginAccept {s : State} (h : ControlInv s) : ControlInv (beginAccept s) :=
  ⟨h.legal, h.pqEmpty, h.stackEmpty, h.codesNeedTree, h.buildHasNoTree, h.deriveHasTree, h.encodeHasCodes, h.decodeHasTree,
    Nat.zero_le _⟩

theorem ControlInv.acceptBuildTree {s : State} (h : ControlInv s) : ControlInv (acceptBuildTree s) where
  legal := rfl
  pqEmpty := h.pqEmpty
  stackEmpty := h.stackEmpty
  codesNeedTree := fun hc => absurd hc Bool.false_ne_true
  buildHasNoTree := fun _ => rfl
  deriveHasTree := fun hf => absurd hf (by decide : Config.fsmBuild ≠ Config.fsmDerive)
  encodeHasCodes := fun hf => absurd hf (by decide : Config.fsmBuild ≠ Config.fsmEncode)
  decodeHasTree := fun hf => absurd hf (by decide : Config.fsmBuild ≠ Config.fsmDecode)
  errListed := h.errListed

theorem ControlInv.acceptDeriveCodes {s : State} (h : ControlInv s) : ControlInv (acceptDeriveCodes s) := by
  rcases acceptDeriveCodes_cases s with ⟨htree, he⟩ | ⟨-, he⟩ <;> rw [he]
  · exact
      { legal := rfl
        pqEmpty := h.pqEmpty
        stackEmpty := h.stackEmpty
        codesNeedTree := fun _ => htree
        buildHasNoTree := fun hf => absurd hf (by decide : Config.fsmDerive ≠ Config.fsmBuild)
        deriveHasTree := fun _ => ⟨htree, rfl⟩
        encodeHasCodes := fun hf => absurd hf (by decide : Config.fsmDerive ≠ Config.fsmEncode)
        decodeHasTree := fun _ => htree
        errListed := h.errListed }
  · exact h.completed (errCode_le _)

theorem ControlInv.acceptEncode {s : State} (h : ControlInv s) : ControlInv (acceptEncode s) := by
  rcases acceptEncode_cases s with ⟨hcodes, he⟩ | ⟨-, he⟩ <;> rw [he]
  · exact
      { legal := rfl
        pqEmpty := h.pqEmpty
        stackEmpty := h.stackEmpty
        codesNeedTree := h.codesNeedTree
        buildHasNoTree := fun hf => absurd hf (by decide : Config.fsmEncode ≠ Config.fsmBuild)
        deriveHasTree := fun hf => absurd hf (by decide : Config.fsmEncode ≠ Config.fsmDerive)
        encodeHasCodes := fun _ => hcodes
        decodeHasTree := fun _ => h.codesNeedTree hcodes
        errListed := h.errListed }
  · exact h.completed (errCode_le _)

theorem ControlInv.acceptDecode {s : State} (h : ControlInv s) : ControlInv (acceptDecode s) := by
  rcases acceptDecode_cases s with ⟨htree, he⟩ | ⟨-, he⟩ <;> rw [he]
  · exact
      { legal := rfl
        pqEmpty := h.pqEmpty
        stackEmpty := h.stackEmpty
        codesNeedTree := h.codesNeedTree
        buildHasNoTree := fun hf => absurd hf (by decide : Config.fsmDecode ≠ Config.fsmBuild)
        deriveHasTree := fun hf => absurd hf (by decide : Config.fsmDecode ≠ Config.fsmDerive)
        encodeHasCodes := fun hf => absurd hf (by decide : Config.fsmDecode ≠ Config.fsmEncode)
        decodeHasTree := fun _ => htree
        errListed := h.errListed }
  · exact h.completed (errCode_le _)

/-- The accept of every command keeps the control invariant (R160 to R162, R168). -/
theorem ControlInv.acceptOf {s : State} (h : ControlInv s) (i : Instr) : ControlInv (acceptOf i s) := by
  cases i with
  | buildTree => exact h.acceptBuildTree
  | deriveCodes => exact h.acceptDeriveCodes
  | encode => exact h.acceptEncode
  | decode => exact h.acceptDecode
  | clearFreq | release => exact controlInv_complete (by decide) fun hc => absurd hc Bool.false_ne_true
  | nop | abort => exact h.completed (by decide)
  | illegal w => exact h.completed (errCode_le _)

/-- A CMD write keeps the control invariant. -/
theorem ControlInv.exec {i : Instr} {s t : State} (h : ControlInv s) (he : exec i s = .next t) : ControlInv t := by
  rcases exec_cases he with ⟨-, rfl⟩ | ⟨-, -, rfl⟩ | ⟨-, rfl⟩
  · exact h.beginAccept.acceptOf i
  · exact h.completed (errCode_le _)
  · exact h.of_control h.legal rfl

/-- A register write keeps the control invariant. -/
theorem ControlInv.memWrite {s : State} (h : ControlInv s) (off : BitVec 8) (v : Word) : ControlInv (memWrite off v s) := by
  rcases memWrite_block off v s with he | ⟨hidle, he⟩ <;> rw [he]
  · exact h.of_control h.legal rfl
  · have hsub : s.sub = 0 := by simpa [State.legalEngine, hidle] using h.legal
    exact controlInv_idle hidle hsub h.pqEmpty h.stackEmpty (fun hc => absurd hc Bool.false_ne_true) h.errListed

/-! ## The engine -/

theorem ControlInv.buildStep {s : State} (h : ControlInv s) : ControlInv (buildStep s) := by
  rcases buildStep_cases s with ⟨-, he⟩ | ⟨-, -, he⟩ | ⟨-, he⟩ <;> rw [he]
  · exact h.completed (errCode_le _)
  · exact h.completed (errCode_le _)
  · exact controlInv_complete (by decide) fun _ => rfl

theorem ControlInv.deriveStep {s : State} (h : ControlInv s) (hf : s.fsm = Config.fsmDerive) : ControlInv (deriveStep s) := by
  have htree := (h.deriveHasTree hf).1
  rcases deriveStep_cases s with ⟨-, he⟩ | ⟨-, w, -, he⟩ | ⟨-, -, he⟩ <;> rw [he]
  · exact controlInv_complete (by decide) fun _ => htree
  · exact controlInv_complete (by decide) fun _ => htree
  · exact h

theorem ControlInv.encodeStep {s : State} (h : ControlInv s) (hf : s.fsm = Config.fsmEncode) : ControlInv (encodeStep s) := by
  have hsub := (legalEngine_encode hf).1 h.legal
  have move : ∀ {t : State}, t.control = s.control →
      (t.sub = Config.encWaitSym ∨ t.sub = Config.encShift ∨ t.sub = Config.encShiftEos) → ControlInv t := by
    intro t hc ht
    have hft : t.fsm = Config.fsmEncode := (congrArg (fun x => x.2.2.2.1) hc).trans hf
    exact h.of_control ((legalEngine_encode hft).2 ht) hc
  rcases encodeStep_cases s with ⟨-, he⟩ | ⟨-, he⟩ | ⟨-, he⟩ | he <;> rw [he]
  · rcases encWaitSymStep_cases s with ⟨-, he⟩ | ⟨b, r, -, ⟨-, he⟩ | ⟨-, -, he⟩ | ⟨-, -, he⟩⟩ | ⟨r, -, he⟩ <;> rw [he]
    · exact h
    · exact h.completed (errCode_le _)
    · exact h.completed (errCode_le _)
    · exact move rfl (.inr (.inl rfl))
    · exact move rfl (.inr (.inr rfl))
  · rcases encShiftStep_cases s with ⟨-, he⟩ | ⟨-, -, he⟩ | ⟨-, -, he⟩ <;> rw [he]
    · exact h
    · exact h.completed (errCode_le _)
    · refine move rfl ?_
      dsimp only
      split
      · exact .inl rfl
      · exact hsub
  · rcases encShiftEosStep_cases s with ⟨-, he⟩ | ⟨-, -, he⟩ | ⟨-, -, -, he⟩ | ⟨-, -, -, he⟩ <;> rw [he]
    · exact h
    · exact h.completed (errCode_le _)
    · exact move rfl hsub
    · exact h.completed (by decide)
  · exact h

theorem ControlInv.decodeStep {s : State} (h : ControlInv s) (hf : s.fsm = Config.fsmDecode) : ControlInv (decodeStep s) := by
  have hsub := (legalEngine_decode hf).1 h.legal
  have move : ∀ {t : State}, t.control = s.control → (t.sub = Config.decWaitBit ∨ t.sub = Config.decEmit) → ControlInv t := by
    intro t hc ht
    have hft : t.fsm = Config.fsmDecode := (congrArg (fun x => x.2.2.2.1) hc).trans hf
    exact h.of_control ((legalEngine_decode hft).2 ht) hc
  rcases decodeStep_cases s with ⟨-, he⟩ | ⟨-, he⟩ | he <;> rw [he]
  · rcases decWaitBitStep_cases s with ⟨-, he⟩ | ⟨r, -, he⟩ | ⟨x, r, -, ⟨-, he⟩ | ⟨-, -, he⟩ | ⟨-, n, -, he⟩⟩ <;> rw [he]
    · exact h
    · exact h.completed (errCode_le _)
    · exact h.completed (errCode_le _)
    · exact h.completed (errCode_le _)
    · rcases arrive_cases n { s with bitIn := r, bitCount := s.bitCount + 1#64 } with ⟨-, -, he⟩ | ⟨-, -, he⟩ | ⟨-, he⟩ <;> rw [he]
      · exact h.completed (by decide)
      · exact move rfl (.inr rfl)
      · exact move rfl hsub
  · rcases decEmitStep_cases s with ⟨-, he⟩ | ⟨-, -, he⟩ | ⟨-, -, he⟩ <;> rw [he]
    · exact h
    · exact h.completed (errCode_le _)
    · exact move rfl (.inl rfl)
  · exact h

theorem ControlInv.engineStep {s : State} (h : ControlInv s) : ControlInv (engineStep s) := by
  rcases engineStep_cases s with ⟨-, he⟩ | ⟨hf, he⟩ | ⟨hf, he⟩ | ⟨hf, he⟩ | he <;> rw [he]
  · exact h.buildStep
  · exact h.deriveStep hf
  · exact h.encodeStep hf
  · exact h.decodeStep hf
  · exact h

theorem controlInv_reset : ControlInv State.reset := controlInv_idle rfl rfl rfl rfl (fun hc => absurd hc Bool.false_ne_true) (by decide)

/-- Settles O48: each event of the block keeps the control invariant. -/
theorem stepsKeepTheControlInvariant : Obligations.StepsKeepTheControlInvariant := by
  intro s t hs h
  rcases step_blockEvent h with he | ⟨ts, -, he⟩ | ⟨ts, -, -, rfl⟩ | ⟨ts, bytes, p, i, -, -, -, -, he⟩ | ⟨ts, off, v, p, -, -, rfl⟩
  · rw [he]
    exact hs.surroundings t
  · rw [he]
    exact controlInv_reset.surroundings t
  · exact hs.engineStep.surroundings (setTurns ts (engineStep s))
  · exact ControlInv.exec (hs.surroundings { s with turns := ts, hostProg := p }) he
  · exact ControlInv.memWrite (hs.surroundings { s with turns := ts, hostProg := p }) off v

end Sys2Proof.Machine
end

section
/-! PROOF. Every step keeps the whole invariant: the tree, the codes, the control state and the running command's state (R57 to R59,
R183). -/

namespace Sys2Proof.Machine

/-! ## What the invariant asks of an engine state -/

theorem encoderInv_of_ne {s : State} (hf : s.fsm ≠ Config.fsmEncode) : EncoderInv s := fun h => absurd h hf

theorem decoderInv_of_ne {s : State} (hf : s.fsm ≠ Config.fsmDecode) : DecoderInv s := fun h => absurd h hf

theorem codesLegal_emptied : CodesLegal (Vector.replicate 257 CodeEntry.empty) :=
  fun sym _ => ⟨[], by simp, by rw [codeGet_emptied, ofPath_nil]⟩

/-- With no valid tree nothing but BUILD can run, and there are no codes (R168, R38). -/
theorem machineInv_noTree {s : State} (hctl : ControlInv s) (hslots : SlotsLegal s.node) (hentries : CodesLegal s.code)
    (htree : s.treeValid = false)
    (hbuild : s.fsm = Config.fsmBuild → s.node = Vector.replicate 513 Node.empty ∧
      s.code = Vector.replicate 257 CodeEntry.empty ∧ s.leafCnt = 0 ∧ s.rootIdx = Config.nil) : MachineInv s := by
  have hnoTree : s.treeValid ≠ true := by simp [htree]
  exact
    { control := hctl
      slots := hslots
      entries := hentries
      tree := fun h => absurd h hnoTree
      built := fun h => absurd h hnoTree
      codes := fun h => absurd (hctl.codesNeedTree h) hnoTree
      emptyWhileBuilding := hbuild
      noCodesWhileDeriving := fun h => absurd (hctl.deriveHasTree h).1 hnoTree
      encoder := fun h => absurd (hctl.codesNeedTree (hctl.encodeHasCodes h)) hnoTree
      decoder := fun h => absurd (hctl.decodeHasTree h) hnoTree }

/-- The idle engine has only the tables to keep. -/
theorem machineInv_idle {s : State} (hf : s.fsm = Config.fsmIdle) (hctl : ControlInv s) (hslots : SlotsLegal s.node)
    (hentries : CodesLegal s.code) (htree : s.treeValid = true → TreeInv s.freq s.node s.leafCnt.toNat s.rootIdx)
    (hbuilt : s.treeValid = true → s.node = (buildOf s.freq).node ∧ s.leafCnt.toNat = (presentSyms s.freq).length ∧
      s.rootIdx = (buildOf s.freq).pq.headD Config.nil)
    (hcodes : s.codesValid = true → CodesInv s.freq s.node s.rootIdx s.code) : MachineInv s where
  control := hctl
  slots := hslots
  entries := hentries
  tree := htree
  built := hbuilt
  codes := hcodes
  emptyWhileBuilding := fun h => absurd (hf.symm.trans h) (by decide)
  noCodesWhileDeriving := fun h => absurd (hf.symm.trans h) (by decide)
  encoder := encoderInv_of_ne (by rw [hf]; decide)
  decoder := decoderInv_of_ne (by rw [hf]; decide)

/-- A step that writes no table and starts neither BUILD nor DERIVE keeps the invariant when it keeps what the stream commands ask. -/
theorem MachineInv.of_tables {s t : State} (h : MachineInv s) (he : t.tables = s.tables) (hctl : ControlInv t)
    (hbuild : t.fsm = Config.fsmBuild → s.fsm = Config.fsmBuild) (hderive : t.fsm = Config.fsmDerive → s.fsm = Config.fsmDerive)
    (henc : EncoderInv t) (hdec : DecoderInv t) : MachineInv t := by
  simp only [State.tables, Prod.mk.injEq] at he
  obtain ⟨hfreq, hnode, hleaf, hroot, hcode, htree, hcodes⟩ := he
  refine ⟨hctl, ?_, ?_, ?_, ?_, ?_, fun hf => ?_, fun hf => ?_, henc, hdec⟩ <;>
    simp only [hfreq, hnode, hleaf, hroot, hcode, htree, hcodes]
  · exact h.slots
  · exact h.entries
  · exact h.tree
  · exact h.built
  · exact h.codes
  · exact h.emptyWhileBuilding (hbuild hf)
  · exact h.noCodesWhileDeriving (hderive hf)

/-- A completion that leaves the tables as a state that meets the invariant has them. -/
theorem MachineInv.completed {s t : State} (h : MachineInv s) {e : BitVec 4} {info : Word} (he : e.toNat ≤ 10)
    (htab : t.tables = s.tables := by rfl) : MachineInv (complete e info t) := by
  have htab' := htab
  simp only [State.tables, Prod.mk.injEq] at htab'
  obtain ⟨-, -, -, -, -, htree, hcodes⟩ := htab'
  exact h.of_tables htab (h.control.completed he htree hcodes)
    (fun hf => absurd hf (by decide : Config.fsmIdle ≠ Config.fsmBuild))
    (fun hf => absurd hf (by decide : Config.fsmIdle ≠ Config.fsmDerive))
    (encoderInv_of_ne (by decide : Config.fsmIdle ≠ Config.fsmEncode))
    (decoderInv_of_ne (by decide : Config.fsmIdle ≠ Config.fsmDecode))

/-- A step that leaves `fsm` and the tables alone. -/
theorem MachineInv.moved {s t : State} (h : MachineInv s) (hctl : ControlInv t) (henc : EncoderInv t) (hdec : DecoderInv t)
    (htab : t.tables = s.tables := by rfl) (hfsm : t.fsm = s.fsm := by rfl) : MachineInv t :=
  h.of_tables htab hctl (fun hf => hfsm.symm.trans hf) (fun hf => hfsm.symm.trans hf) henc hdec

/-! ## The accepts and the register writes -/

theorem MachineInv.beginAccept {s : State} (h : MachineInv s) : MachineInv (beginAccept s) :=
  h.moved h.control.beginAccept h.encoder h.decoder

theorem MachineInv.acceptDeriveCodes {s : State} (h : MachineInv s) : MachineInv (acceptDeriveCodes s) := by
  have hctl := h.control.acceptDeriveCodes
  rcases acceptDeriveCodes_cases s with ⟨-, he⟩ | ⟨-, he⟩ <;> rw [he] at hctl ⊢
  · exact
      { control := hctl
        slots := h.slots
        entries := codesLegal_emptied
        tree := h.tree
        built := h.built
        codes := fun hc => absurd hc Bool.false_ne_true
        emptyWhileBuilding := fun hf => absurd hf (by decide : Config.fsmDerive ≠ Config.fsmBuild)
        noCodesWhileDeriving := fun _ => rfl
        encoder := encoderInv_of_ne (by decide : Config.fsmDerive ≠ Config.fsmEncode)
        decoder := decoderInv_of_ne (by decide : Config.fsmDerive ≠ Config.fsmDecode) }
  · exact h.completed (errCode_le _)

theorem MachineInv.acceptEncode {s : State} (h : MachineInv s) : MachineInv (acceptEncode s) := by
  have hctl := h.control.acceptEncode
  rcases acceptEncode_cases s with ⟨-, he⟩ | ⟨-, he⟩ <;> rw [he] at hctl ⊢
  · exact h.of_tables rfl hctl (fun hf => absurd hf (by decide : Config.fsmEncode ≠ Config.fsmBuild))
      (fun hf => absurd hf (by decide : Config.fsmEncode ≠ Config.fsmDerive))
      (fun _ => ⟨fun hs => absurd hs (by decide : Config.encWaitSym ≠ Config.encShift),
        fun hs => absurd hs (by decide : Config.encWaitSym ≠ Config.encShiftEos)⟩)
      (decoderInv_of_ne (by decide : Config.fsmEncode ≠ Config.fsmDecode))
  · exact h.completed (errCode_le _)

theorem MachineInv.acceptDecode {s : State} (h : MachineInv s) : MachineInv (acceptDecode s) := by
  have hctl := h.control.acceptDecode
  rcases acceptDecode_cases s with ⟨-, he⟩ | ⟨-, he⟩ <;> rw [he] at hctl ⊢
  · exact h.of_tables rfl hctl (fun hf => absurd hf (by decide : Config.fsmDecode ≠ Config.fsmBuild))
      (fun hf => absurd hf (by decide : Config.fsmDecode ≠ Config.fsmDerive)) (encoderInv_of_ne (by decide : Config.fsmDecode ≠ Config.fsmEncode))
      (fun _ => ⟨fun _ => .inl rfl, fun hs => absurd hs (by decide : Config.decWaitBit ≠ Config.decEmit)⟩)
  · exact h.completed (errCode_le _)

/-- The accept of every command keeps the invariant: CLEAR_FREQ, BUILD_TREE and RELEASE leave no valid tree, the others leave the
tree as it is. -/
theorem MachineInv.acceptOf {s : State} (h : MachineInv s) (i : Instr) : MachineInv (acceptOf i s) := by
  have hctl := h.control.acceptOf i
  cases i with
  | buildTree => exact machineInv_noTree hctl slotsLegal_emptied codesLegal_emptied rfl fun _ => ⟨rfl, rfl, rfl, rfl⟩
  | release =>
    exact machineInv_noTree hctl slotsLegal_emptied codesLegal_emptied rfl
      fun hf => absurd hf (by decide : Config.fsmIdle ≠ Config.fsmBuild)
  | clearFreq =>
    exact machineInv_noTree hctl h.slots h.entries rfl fun hf => absurd hf (by decide : Config.fsmIdle ≠ Config.fsmBuild)
  | deriveCodes => exact h.acceptDeriveCodes
  | encode => exact h.acceptEncode
  | decode => exact h.acceptDecode
  | nop | abort => exact h.completed (by decide)
  | illegal w => exact h.completed (errCode_le _)

/-- A CMD write keeps the invariant. -/
theorem MachineInv.exec {i : Instr} {s t : State} (h : MachineInv s) (he : exec i s = .next t) : MachineInv t := by
  rcases exec_cases he with ⟨-, rfl⟩ | ⟨-, -, rfl⟩ | ⟨-, rfl⟩
  · exact h.beginAccept.acceptOf i
  · exact h.completed (errCode_le _)
  · exact h.moved (h.control.of_control h.control.legal rfl) h.encoder h.decoder

/-- A register write keeps the invariant: a changed frequency table invalidates the tree (R183). -/
theorem MachineInv.memWrite {s : State} (h : MachineInv s) (off : BitVec 8) (v : Word) : MachineInv (memWrite off v s) := by
  have hctl := h.control.memWrite off v
  rcases memWrite_block off v s with he | ⟨hidle, he⟩ <;> rw [he] at hctl ⊢
  · exact h.moved hctl h.encoder h.decoder
  · exact machineInv_noTree hctl h.slots h.entries rfl fun hf => absurd (hidle.symm.trans hf) (by decide)

/-! ## The execution steps of BUILD and DERIVE -/

/-- A successful build makes `buildOf` of the table (R210). -/
theorem buildStep_of_eos {s : State} (hnode : s.node = Vector.replicate 513 Node.empty) (heos : s.freqAt Config.eos ≠ 0) :
    buildStep s = complete 0 0 { s with
      node := (buildOf s.freq).node, pq := (buildOf s.freq).pq, rootIdx := (buildOf s.freq).pq.headD Config.nil,
      leafCnt := BitVec.ofNat 9 (presentSyms s.freq).length, treeValid := true } := by
  rcases buildStep_cases s with ⟨hnone, -⟩ | ⟨-, h0, -⟩ | ⟨-, he⟩
  · have hmem : 256 ∈ presentSyms s.freq := (mem_presentSyms _ _).2 ⟨by omega, heos⟩
    rw [List.eq_nil_of_length_eq_zero hnone] at hmem
    simp at hmem
  · exact absurd h0 heos
  · rw [he, hnode, (buildInv_insertLeaves s.freq).2]
    rfl

theorem MachineInv.buildStep {s : State} (h : MachineInv s) (hf : s.fsm = Config.fsmBuild) : MachineInv (buildStep s) := by
  have hctl := h.control.buildStep
  have hslots := h.slots.buildStep
  have hnode := (h.emptyWhileBuilding hf).1
  have hnoCodes : s.codesValid ≠ true := fun hc => by
    simpa [h.control.buildHasNoTree hf] using h.control.codesNeedTree hc
  rcases buildStep_cases s with ⟨-, he⟩ | ⟨-, -, he⟩ | ⟨heos, -⟩
  · rw [he]
    exact h.completed (errCode_le _)
  · rw [he]
    exact h.completed (errCode_le _)
  · obtain ⟨root, hroot, htree⟩ := buildOf_tree (freq := s.freq) ((present_iff _ _).2 heos)
    have hleaf : (BitVec.ofNat 9 (presentSyms s.freq).length).toNat = (presentSyms s.freq).length :=
      Nat.mod_eq_of_lt (by have := presentSyms_length_le s.freq; omega)
    rw [buildStep_of_eos hnode heos] at hctl hslots ⊢
    refine machineInv_idle rfl hctl hslots h.entries (fun _ => ?_) (fun _ => ⟨rfl, hleaf, rfl⟩) (fun hc => absurd hc hnoCodes)
    change TreeInv s.freq (buildOf s.freq).node (BitVec.ofNat 9 _).toNat ((buildOf s.freq).pq.headD Config.nil)
    rw [hleaf, hroot]
    exact htree

theorem MachineInv.deriveStep {s : State} (h : MachineInv s) (hf : s.fsm = Config.fsmDerive) : MachineInv (deriveStep s) := by
  have hctl := h.control.deriveStep hf
  have htree := h.tree (h.control.deriveHasTree hf).1
  have hempty := h.noCodesWhileDeriving hf
  rcases deriveStep_cases s with ⟨hleaf, he⟩ | ⟨hleaf, w, hw, he⟩ | ⟨-, -, he⟩ <;> rw [he] at hctl ⊢
  · have hcodes := htree.codes_loneLeaf hleaf
    rw [← hempty] at hcodes
    exact machineInv_idle rfl hctl h.slots (codesLegal_of_inv hcodes) h.tree h.built fun _ => hcodes
  · obtain ⟨w', hw', hcodes⟩ := htree.deriveLoop_codes hleaf
    obtain rfl : w' = w := by
      rw [hempty, hw'] at hw
      simpa using hw
    exact machineInv_idle rfl hctl h.slots (codesLegal_of_inv hcodes) h.tree h.built fun _ => hcodes
  · exact h

/-! ## The stream steps -/

/-- While the codes are valid EOS has one (R59, R235). -/
theorem MachineInv.eosCode_pos {s : State} (h : MachineInv s) (hcodes : s.codesValid = true) :
    0 < (s.codeAt Config.eos).len.toNat := by
  have htree := h.tree (h.control.codesNeedTree hcodes)
  obtain ⟨p, -, hpos, hle, hp⟩ := ((h.codes hcodes) 256 (by omega)).2 htree.eosPresent
  change 0 < (codeGet s.code 256).len.toNat
  rw [hp, ofPath_len hle]
  exact hpos

/-- An index into a code that is not at its last bit stays inside it. -/
theorem nextIndex_lt {k len : CodeLen} (h : k.toNat < len.toNat) (hne : k + 1#9 ≠ len) : (k + 1#9).toNat < len.toNat := by
  have hk : (k + 1#9).toNat = k.toNat + 1 := by
    have := len.isLt
    simp [BitVec.toNat_add]
    omega
  have : (k + 1#9).toNat ≠ len.toNat := fun he => hne (BitVec.eq_of_toNat_eq he)
  omega

theorem MachineInv.encWaitSymStep {s : State} (h : MachineInv s) (hf : s.fsm = Config.fsmEncode)
    (hctl : ControlInv (encWaitSymStep s)) : MachineInv (encWaitSymStep s) := by
  have hdec : s.fsm ≠ Config.fsmDecode := by rw [hf]; decide
  rcases encWaitSymStep_cases s with ⟨-, he⟩ | ⟨b, r, -, ⟨-, he⟩ | ⟨-, -, he⟩ | ⟨hlen, -, he⟩⟩ | ⟨r, -, he⟩ <;> rw [he] at hctl ⊢
  · exact h
  · exact h.completed (errCode_le _)
  · exact h.completed (errCode_le _)
  · have hsym : (b.setWidth 9 : Sym).toNat < 256 := by
      have := b.isLt
      simp
      omega
    have hpos : 0 < (s.codeAt (b.setWidth 9)).len.toNat :=
      Nat.pos_of_ne_zero fun h0 => hlen (BitVec.eq_of_toNat_eq h0)
    exact h.moved hctl
      (fun _ => ⟨fun _ => ⟨hsym, hpos⟩, fun hs => absurd hs (by decide : Config.encShift ≠ Config.encShiftEos)⟩) (decoderInv_of_ne hdec)
  · have hpos := h.eosCode_pos (h.control.encodeHasCodes hf)
    exact h.moved hctl
      (fun _ => ⟨fun hs => absurd hs (by decide : Config.encShiftEos ≠ Config.encShift), fun _ => ⟨rfl, hpos⟩⟩) (decoderInv_of_ne hdec)

theorem MachineInv.encShiftStep {s : State} (h : MachineInv s) (hf : s.fsm = Config.fsmEncode) (hs : s.sub = Config.encShift)
    (hctl : ControlInv (encShiftStep s)) : MachineInv (encShiftStep s) := by
  obtain ⟨hsym, hk⟩ := (h.encoder hf).1 hs
  rcases encShiftStep_cases s with ⟨-, he⟩ | ⟨-, -, he⟩ | ⟨-, -, he⟩ <;> rw [he] at hctl ⊢
  · exact h
  · exact h.completed (errCode_le _)
  · refine h.moved hctl (fun _ => ?_) (decoderInv_of_ne (by dsimp only; rw [hf]; decide))
    dsimp only
    split
    · exact ⟨fun hs' => absurd hs' (by decide), fun hs' => absurd hs' (by decide)⟩
    · rename_i hlast
      exact ⟨fun _ => ⟨hsym, nextIndex_lt hk hlast⟩, fun hs' => absurd (hs.symm.trans hs') (by decide)⟩

theorem MachineInv.encShiftEosStep {s : State} (h : MachineInv s) (hf : s.fsm = Config.fsmEncode) (hs : s.sub = Config.encShiftEos)
    (hctl : ControlInv (encShiftEosStep s)) : MachineInv (encShiftEosStep s) := by
  obtain ⟨hsym, hk⟩ := (h.encoder hf).2 hs
  rcases encShiftEosStep_cases s with ⟨-, he⟩ | ⟨-, -, he⟩ | ⟨-, -, hlast, he⟩ | ⟨-, -, -, he⟩ <;> rw [he] at hctl ⊢
  · exact h
  · exact h.completed (errCode_le _)
  · exact h.moved hctl
      (fun _ => ⟨fun hs' => absurd (hs.symm.trans hs') (by decide), fun _ => ⟨hsym, nextIndex_lt hk hlast⟩⟩)
      (decoderInv_of_ne (by dsimp only; rw [hf]; decide))
  · exact h.completed (by decide)

theorem MachineInv.encodeStep {s : State} (h : MachineInv s) (hf : s.fsm = Config.fsmEncode) : MachineInv (encodeStep s) := by
  have hctl := h.control.encodeStep hf
  rcases encodeStep_cases s with ⟨-, he⟩ | ⟨hs, he⟩ | ⟨hs, he⟩ | he <;> rw [he] at hctl ⊢
  · exact h.encWaitSymStep hf hctl
  · exact h.encShiftStep hf hs hctl
  · exact h.encShiftEosStep hf hs hctl
  · exact h

/-- A bit moves the pointer from a slot of the tree to a slot of the tree (R286, R287). -/
theorem TreeInv.nextSlot_lt {freq : Vector Count 257} {node : Vector Node 513} {n : Nat} {root : Slot}
    (h : TreeInv freq node n root) {cur nxt : Slot} {x : Bool} (hcur : cur.toNat < 2 * n - 1)
    (hnext : nextSlot node cur x = some nxt) : nxt.toNat < 2 * n - 1 := by
  unfold nextSlot at hnext
  dsimp only at hnext
  split at hnext
  · split at hnext
    · simp at hnext
    · obtain rfl : cur = nxt := by simpa using hnext
      exact hcur
  · rename_i hleaf
    split at hnext
    · simp at hnext
    · obtain rfl : (arenaGet node cur.toNat).child x = nxt := by simpa using hnext
      have := h.child_lt ((h.not_isLeaf_iff hcur).1 (by simpa using hleaf)) hcur x
      omega

theorem MachineInv.decWaitBitStep {s : State} (h : MachineInv s) (hf : s.fsm = Config.fsmDecode) (hs : s.sub = Config.decWaitBit)
    (hctl : ControlInv (decWaitBitStep s)) : MachineInv (decWaitBitStep s) := by
  have htree := h.tree (h.control.decodeHasTree hf)
  have hcur : s.decCur.toNat < 2 * s.leafCnt.toNat - 1 := by
    rcases (h.decoder hf).1 hs with hroot | ⟨-, hlt⟩
    · rw [hroot]
      exact htree.root_lt
    · exact hlt
  have henc : s.fsm ≠ Config.fsmEncode := by rw [hf]; decide
  rcases decWaitBitStep_cases s with ⟨-, he⟩ | ⟨r, -, he⟩ | ⟨x, r, -, ⟨-, he⟩ | ⟨-, -, he⟩ | ⟨-, nxt, hnext, he⟩⟩ <;>
    rw [he] at hctl ⊢
  · exact h
  · exact h.completed (errCode_le _)
  · exact h.completed (errCode_le _)
  · exact h.completed (errCode_le _)
  have hlt := htree.nextSlot_lt hcur hnext
  rcases arrive_cases nxt { s with bitIn := r, bitCount := s.bitCount + 1#64 } with ⟨-, -, he⟩ | ⟨hleaf, heos, he⟩ | ⟨hleaf, he⟩ <;>
    rw [he] at hctl ⊢
  · exact h.completed (by decide)
  · have hn : nxt.toNat < s.leafCnt.toNat := (htree.isLeaf_iff hlt).1 hleaf
    have hsym : (arenaGet s.node nxt.toNat).sym.toNat = ((arenaGet s.node nxt.toNat).sym.setWidth 8).toNat := by
      have h257 := htree.leafSym_lt hn
      have hne : (arenaGet s.node nxt.toNat).sym.toNat ≠ 256 := fun he => heos (BitVec.eq_of_toNat_eq he)
      rw [BitVec.toNat_setWidth]
      omega
    exact h.moved hctl (encoderInv_of_ne henc)
      fun _ => ⟨fun hs' => absurd hs' (by decide : Config.decEmit ≠ Config.decWaitBit), fun _ => ⟨hn, hsym⟩⟩
  · have hn : s.leafCnt.toNat ≤ nxt.toNat := (htree.not_isLeaf_iff hlt).1 hleaf
    exact h.moved hctl (encoderInv_of_ne henc)
      fun _ => ⟨fun _ => .inr ⟨hn, hlt⟩, fun hs' => absurd (hs.symm.trans hs') (by decide)⟩

theorem MachineInv.decEmitStep {s : State} (h : MachineInv s) (hf : s.fsm = Config.fsmDecode) (hctl : ControlInv (decEmitStep s)) :
    MachineInv (decEmitStep s) := by
  rcases decEmitStep_cases s with ⟨-, he⟩ | ⟨-, -, he⟩ | ⟨-, -, he⟩ <;> rw [he] at hctl ⊢
  · exact h
  · exact h.completed (errCode_le _)
  · exact h.moved hctl (encoderInv_of_ne (by dsimp only; rw [hf]; decide))
      fun _ => ⟨fun _ => .inl rfl, fun hs => absurd hs (by decide : Config.decWaitBit ≠ Config.decEmit)⟩

theorem MachineInv.decodeStep {s : State} (h : MachineInv s) (hf : s.fsm = Config.fsmDecode) : MachineInv (decodeStep s) := by
  have hctl := h.control.decodeStep hf
  rcases decodeStep_cases s with ⟨hs, he⟩ | ⟨-, he⟩ | he <;> rw [he] at hctl ⊢
  · exact h.decWaitBitStep hf hs hctl
  · exact h.decEmitStep hf hctl
  · exact h

theorem MachineInv.engineStep {s : State} (h : MachineInv s) : MachineInv (engineStep s) := by
  rcases engineStep_cases s with ⟨hf, he⟩ | ⟨hf, he⟩ | ⟨hf, he⟩ | ⟨hf, he⟩ | he <;> rw [he]
  · exact h.buildStep hf
  · exact h.deriveStep hf
  · exact h.encodeStep hf
  · exact h.decodeStep hf
  · exact h

/-! ## Reset and the step -/

theorem machineInv_reset : MachineInv State.reset :=
  machineInv_noTree controlInv_reset slotsLegal_emptied codesLegal_emptied rfl
    fun hf => absurd hf (by decide : Config.fsmIdle ≠ Config.fsmBuild)

/-- Settles O47: after reset the engine is idle and there is no tree. -/
theorem resetMeetsTheInvariants : Obligations.ResetMeetsTheInvariants := ⟨controlInv_reset, machineInv_reset⟩

/-- Settles O50: each event of the block keeps the invariant; BUILD's step makes a tree of R57, DERIVE's step ends with its codes, and
the stream steps stay inside it. -/
theorem stepsKeepTheMachineInvariant : Obligations.StepsKeepTheMachineInvariant := by
  intro s t hs h
  rcases step_blockEvent h with he | ⟨ts, -, he⟩ | ⟨ts, -, -, rfl⟩ | ⟨ts, bytes, p, i, -, -, -, -, he⟩ | ⟨ts, off, v, p, -, -, rfl⟩
  · rw [he]
    exact hs.surroundings t
  · rw [he]
    exact machineInv_reset.surroundings t
  · exact hs.engineStep.surroundings (setTurns ts (engineStep s))
  · exact MachineInv.exec (hs.surroundings { s with turns := ts, hostProg := p }) he
  · exact MachineInv.memWrite (hs.surroundings { s with turns := ts, hostProg := p }) off v

end Sys2Proof.Machine
end

section
/-! PROOF. What the engine's steps move on the ports, and what they count (R72, R73, R253, R283). -/

namespace Sys2Proof.Machine

/-! ## Counting -/

theorem counter_full_iff (c : Counter) : c = Config.counterMax ↔ c.toNat = 2 ^ 64 - 1 :=
  ⟨fun h => by rw [h]; rfl, fun h => BitVec.eq_of_toNat_eq h⟩

/-- A counter that is not full does not wrap (R338). -/
theorem counter_succ {c : Counter} (h : c ≠ Config.counterMax) : (c + 1#64).toNat = c.toNat + 1 := by
  have hc : c.toNat ≠ 2 ^ 64 - 1 := fun he => h ((counter_full_iff c).2 he)
  have := c.isLt
  rw [BitVec.toNat_add, BitVec.toNat_ofNat]
  omega

theorem codeAt_byte (s : State) (b : Byte) : s.codeAt (b.setWidth 9) = codeGet s.code b.toNat := by
  rw [State.codeAt, BitVec.toNat_setWidth, Nat.mod_eq_of_lt (by have := b.isLt; omega)]

/-! ## What each engine step leaves outside the block -/

theorem buildStep_outside (s : State) : buildStep s = withSurroundings (buildStep s) s := by
  rcases buildStep_cases s with ⟨-, he⟩ | ⟨-, -, he⟩ | ⟨-, he⟩ <;> rw [he] <;> rfl

theorem deriveStep_outside (s : State) : deriveStep s = withSurroundings (deriveStep s) s := by
  rcases deriveStep_cases s with ⟨-, he⟩ | ⟨-, w, -, he⟩ | ⟨-, -, he⟩ <;> rw [he] <;> rfl

theorem encWaitSymStep_outside (s : State) :
    encWaitSymStep s = withSurroundings (encWaitSymStep s) { s with symIn := (encWaitSymStep s).symIn } := by
  rcases encWaitSymStep_cases s with ⟨-, he⟩ | ⟨b, r, -, ⟨-, he⟩ | ⟨-, -, he⟩ | ⟨-, -, he⟩⟩ | ⟨r, -, he⟩ <;> rw [he] <;> rfl

theorem encShiftStep_outside (s : State) :
    encShiftStep s = withSurroundings (encShiftStep s) { s with bitOut := (encShiftStep s).bitOut } := by
  rcases encShiftStep_cases s with ⟨-, he⟩ | ⟨-, -, he⟩ | ⟨-, -, he⟩ <;> rw [he] <;> rfl

theorem encShiftEosStep_outside (s : State) :
    encShiftEosStep s = withSurroundings (encShiftEosStep s) { s with bitOut := (encShiftEosStep s).bitOut } := by
  rcases encShiftEosStep_cases s with ⟨-, he⟩ | ⟨-, -, he⟩ | ⟨-, -, -, he⟩ | ⟨-, -, -, he⟩ <;> rw [he] <;> rfl

theorem arrive_outside (nxt : Slot) (s : State) : arrive nxt s = withSurroundings (arrive nxt s) s := by
  rcases arrive_cases nxt s with ⟨-, -, he⟩ | ⟨-, -, he⟩ | ⟨-, he⟩ <;> rw [he] <;> rfl

theorem decWaitBitStep_outside (s : State) :
    decWaitBitStep s = withSurroundings (decWaitBitStep s) { s with bitIn := (decWaitBitStep s).bitIn } := by
  rcases decWaitBitStep_cases s with ⟨-, he⟩ | ⟨r, -, he⟩ | ⟨x, r, -, ⟨-, he⟩ | ⟨-, -, he⟩ | ⟨-, n, -, he⟩⟩ <;> rw [he]
  · rfl
  · rfl
  · rfl
  · rfl
  · rw [arrive_outside]
    rfl

theorem decEmitStep_outside (s : State) :
    decEmitStep s = withSurroundings (decEmitStep s) { s with symOut := (decEmitStep s).symOut } := by
  rcases decEmitStep_cases s with ⟨-, he⟩ | ⟨-, -, he⟩ | ⟨-, -, he⟩ <;> rw [he] <;> rfl

/-- What an engine step moves outside the block: one port's stream, by the step of the sub-state that waits on that port, or nothing
(R73). -/
inductive PortEvent (s : State) : Prop where
  | none (h : engineStep s = withSurroundings (engineStep s) s)
  | symIn (hf : s.fsm = Config.fsmEncode) (hs : s.sub = Config.encWaitSym) (h : engineStep s = encWaitSymStep s)
  | bitOut (hf : s.fsm = Config.fsmEncode) (hs : s.sub = Config.encShift) (h : engineStep s = encShiftStep s)
  | bitOutEos (hf : s.fsm = Config.fsmEncode) (hs : s.sub = Config.encShiftEos) (h : engineStep s = encShiftEosStep s)
  | bitIn (hf : s.fsm = Config.fsmDecode) (hs : s.sub = Config.decWaitBit) (h : engineStep s = decWaitBitStep s)
  | symOut (hf : s.fsm = Config.fsmDecode) (hs : s.sub = Config.decEmit) (h : engineStep s = decEmitStep s)

theorem engineStep_portEvent (s : State) : PortEvent s := by
  rcases engineStep_cases s with ⟨-, he⟩ | ⟨-, he⟩ | ⟨hf, he⟩ | ⟨hf, he⟩ | he
  · exact .none (by rw [he]; exact buildStep_outside s)
  · exact .none (by rw [he]; exact deriveStep_outside s)
  · rcases encodeStep_cases s with ⟨hs, h⟩ | ⟨hs, h⟩ | ⟨hs, h⟩ | h
    · exact .symIn hf hs (he.trans h)
    · exact .bitOut hf hs (he.trans h)
    · exact .bitOutEos hf hs (he.trans h)
    · exact .none (by rw [he, h]; rfl)
  · rcases decodeStep_cases s with ⟨hs, h⟩ | ⟨hs, h⟩ | h
    · exact .bitIn hf hs (he.trans h)
    · exact .symOut hf hs (he.trans h)
    · exact .none (by rw [he, h]; rfl)
  · exact .none (by rw [he]; rfl)

/-! ## The transfers -/

/-- ENC_WAIT_SYM takes the head of SYM_IN and counts a `Byte` with a code while SYM_COUNT is not full (R254, R255). -/
theorem encWaitSymStep_takes (s : State) :
    (encWaitSymStep s).symIn = s.symIn ∨
      (∃ b, s.symIn = .byte b :: (encWaitSymStep s).symIn ∧ (encWaitSymStep s).symCount.toNat = s.symCount.toNat +
        if (codeGet s.code b.toNat).len ≠ 0 ∧ s.symCount.toNat ≠ 2 ^ 64 - 1 then 1 else 0) ∨
      (s.symIn = .endOfSource :: (encWaitSymStep s).symIn ∧ (encWaitSymStep s).symCount = s.symCount) := by
  rcases encWaitSymStep_cases s with ⟨-, he⟩ | ⟨b, r, hq, h⟩ | ⟨r, hq, he⟩
  · exact .inl (by rw [he])
  · refine .inr (.inl ⟨b, ?_⟩)
    rw [codeAt_byte, ne_eq s.symCount, counter_full_iff] at h
    rcases h with ⟨hlen, he⟩ | ⟨hlen, hfull, he⟩ | ⟨hlen, hfull, he⟩ <;> rw [he]
    · exact ⟨hq, by simp [hlen]⟩
    · exact ⟨hq, by simp [hfull]⟩
    · refine ⟨hq, ?_⟩
      rw [if_pos ⟨hlen, hfull⟩]
      exact counter_succ fun h => hfull ((counter_full_iff _).1 h)
  · exact .inr (.inr (by rw [he]; exact ⟨hq, rfl⟩))

/-- A move of the decoder's pointer counts nothing. -/
theorem arrive_bitCount (nxt : Slot) (s : State) : (arrive nxt s).bitCount = s.bitCount := by
  rcases arrive_cases nxt s with ⟨-, -, he⟩ | ⟨-, -, he⟩ | ⟨-, he⟩ <;> simp [he]

/-- DEC_WAIT_BIT takes the head of BIT_IN and counts a `Bit` while BIT_COUNT is not full (R284). -/
theorem decWaitBitStep_takes (s : State) :
    (decWaitBitStep s).bitIn = s.bitIn ∨
      (∃ x, s.bitIn = .bit x :: (decWaitBitStep s).bitIn ∧
        (decWaitBitStep s).bitCount.toNat = s.bitCount.toNat + if s.bitCount.toNat ≠ 2 ^ 64 - 1 then 1 else 0) ∨
      (s.bitIn = .eof :: (decWaitBitStep s).bitIn ∧ (decWaitBitStep s).bitCount = s.bitCount) := by
  rcases decWaitBitStep_cases s with ⟨-, he⟩ | ⟨r, hq, he⟩ | ⟨x, r, hq, h⟩
  · exact .inl (by rw [he])
  · exact .inr (.inr (by rw [he]; exact ⟨hq, rfl⟩))
  · refine .inr (.inl ⟨x, ?_⟩)
    rcases h with ⟨hfull, he⟩ | ⟨hfull, -, he⟩ | ⟨hfull, nxt, -, he⟩ <;> rw [he]
    · exact ⟨hq, by simp [(counter_full_iff _).1 hfull]⟩
    · rw [ne_eq, counter_full_iff] at hfull
      rw [if_pos hfull]
      exact ⟨hq, counter_succ fun h => hfull ((counter_full_iff _).1 h)⟩
    · rw [arrive_bitCount, arrive_outside, if_pos fun h => hfull ((counter_full_iff _).2 h)]
      exact ⟨hq, counter_succ hfull⟩

/-- ENC_SHIFT sends one bit of the symbol's code to a sink that accepts, and counts it (R256). -/
theorem encShiftStep_sends (s : State) :
    (encShiftStep s).bitOut = s.bitOut ∨
      (s.bitOutReady = true ∧ (encShiftStep s).bitOut = s.bitOut ++ [(s.codeAt s.encSym).bit s.encK.toNat] ∧
        (encShiftStep s).bitCount.toNat = s.bitCount.toNat + 1) := by
  rcases encShiftStep_cases s with ⟨-, he⟩ | ⟨-, -, he⟩ | ⟨hready, hfull, he⟩ <;> rw [he]
  · exact .inl rfl
  · exact .inl rfl
  · exact .inr ⟨hready, rfl, counter_succ hfull⟩

/-- ENC_SHIFT_EOS sends one bit of the EOS code to a sink that accepts, and counts it (R258). -/
theorem encShiftEosStep_sends (s : State) :
    (encShiftEosStep s).bitOut = s.bitOut ∨
      (s.bitOutReady = true ∧ (encShiftEosStep s).bitOut = s.bitOut ++ [(s.codeAt Config.eos).bit s.encK.toNat] ∧
        (encShiftEosStep s).bitCount.toNat = s.bitCount.toNat + 1) := by
  rcases encShiftEosStep_cases s with ⟨-, he⟩ | ⟨-, -, he⟩ | ⟨hready, hfull, -, he⟩ | ⟨hready, hfull, -, he⟩ <;> rw [he]
  · exact .inl rfl
  · exact .inl rfl
  · exact .inr ⟨hready, rfl, counter_succ hfull⟩
  · exact .inr ⟨hready, rfl, counter_succ hfull⟩

/-- DEC_EMIT sends the byte to a sink that accepts, and counts it (R290). -/
theorem decEmitStep_sends (s : State) :
    (decEmitStep s).symOut = s.symOut ∨
      (s.symOutReady = true ∧ (decEmitStep s).symOut = s.symOut ++ [s.symOutData] ∧
        (decEmitStep s).symCount.toNat = s.symCount.toNat + 1) := by
  rcases decEmitStep_cases s with ⟨-, he⟩ | ⟨-, -, he⟩ | ⟨hready, hfull, he⟩ <;> rw [he]
  · exact .inl rfl
  · exact .inl rfl
  · exact .inr ⟨hready, rfl, counter_succ hfull⟩

/-- Settles O32: an engine step is one port's transfer, or moves nothing outside the block. -/
theorem portsTransferOneItemInOrder : Obligations.PortsTransferOneItemInOrder := by
  intro s
  rcases engineStep_portEvent s with h | ⟨hf, hs, h⟩ | ⟨hf, hs, h⟩ | ⟨hf, hs, h⟩ | ⟨hf, hs, h⟩ | ⟨hf, hs, h⟩
  · rw [h]
    exact ⟨.inl rfl, .inl rfl, .inl rfl, .inl rfl, rfl, rfl, rfl, rfl, rfl, rfl, rfl⟩
  all_goals rw [h]
  · have htake := encWaitSymStep_takes s
    have hin : s.symInReady = true := by simp [State.symInReady, hf, hs]
    rw [encWaitSymStep_outside]
    refine ⟨?_, .inl rfl, .inl rfl, .inl rfl, rfl, rfl, rfl, rfl, rfl, rfl, rfl⟩
    rcases htake with hq | ⟨b, hq, hcount⟩ | ⟨hq, hcount⟩
    · exact .inl hq
    · exact .inr ⟨hin, .byte b, hq, hcount⟩
    · exact .inr ⟨hin, .endOfSource, hq, congrArg BitVec.toNat hcount⟩
  · have hsend := encShiftStep_sends s
    have hout : s.bitOutValid = true := by simp [State.bitOutValid, hf, hs]
    have hdata : s.bitOutData = (s.codeAt s.encSym).bit s.encK.toNat := by
      simp [State.bitOutData, State.sendSym, hs, Config.encShift, Config.encShiftEos]
    rw [← hdata] at hsend
    rw [encShiftStep_outside]
    exact ⟨.inl rfl, .inl rfl, hsend.imp_right fun h => ⟨hout, h⟩, .inl rfl, rfl, rfl, rfl, rfl, rfl, rfl, rfl⟩
  · have hsend := encShiftEosStep_sends s
    have hout : s.bitOutValid = true := by simp [State.bitOutValid, hf, hs]
    have hdata : s.bitOutData = (s.codeAt Config.eos).bit s.encK.toNat := by simp [State.bitOutData, State.sendSym, hs]
    rw [← hdata] at hsend
    rw [encShiftEosStep_outside]
    exact ⟨.inl rfl, .inl rfl, hsend.imp_right fun h => ⟨hout, h⟩, .inl rfl, rfl, rfl, rfl, rfl, rfl, rfl, rfl⟩
  · have htake := decWaitBitStep_takes s
    have hin : s.bitInReady = true := by simp [State.bitInReady, hf, hs]
    rw [decWaitBitStep_outside]
    refine ⟨.inl rfl, ?_, .inl rfl, .inl rfl, rfl, rfl, rfl, rfl, rfl, rfl, rfl⟩
    rcases htake with hq | ⟨x, hq, hcount⟩ | ⟨hq, hcount⟩
    · exact .inl hq
    · exact .inr ⟨hin, .bit x, hq, hcount⟩
    · exact .inr ⟨hin, .eof, hq, congrArg BitVec.toNat hcount⟩
  · have hsend := decEmitStep_sends s
    have hout : s.symOutValid = true := by simp [State.symOutValid, hf, hs]
    rw [decEmitStep_outside]
    exact ⟨.inl rfl, .inl rfl, .inl rfl, hsend.imp_right fun h => ⟨hout, h⟩, rfl, rfl, rfl, rfl, rfl, rfl, rfl⟩

end Sys2Proof.Machine
end

section
/-! PROOF. The register window: what each register reads and what each write keeps (R31 to R49, R66, R75, R76). -/

namespace Sys2Proof.Machine

/-- Settles O6: every piece of the reset state is the value R76 lists for it. -/
theorem resetValues : Obligations.ResetValues := by
  have hfreq : ∀ sym, freqGet State.reset.freq sym = 0 := freqGet_cleared
  have hnode : ∀ i, arenaGet State.reset.node i = Node.empty := arenaGet_emptied
  have hcode : ∀ sym, codeGet State.reset.code sym = CodeEntry.empty := codeGet_emptied
  have hshown : State.reset.shownNode = Node.empty := hnode 0
  have hsym : readReg State.reset .nodeSym = 0x1FF := by rw [readReg, hshown]; rfl
  have hchild : readReg State.reset .nodeChild = 0x03FF03FF := by rw [readReg, hshown]; rfl
  exact ⟨rfl, rfl, rfl, rfl, rfl, rfl, rfl, rfl, rfl, rfl, rfl, rfl, fun sym _ => hfreq sym, fun i _ => hnode i, rfl, rfl,
    fun sym _ => hcode sym, rfl, rfl, rfl, rfl, rfl, rfl, rfl, rfl, rfl, rfl, rfl, rfl, rfl, rfl, rfl, fun _ => rfl, rfl, hsym, hchild⟩

/-! ## Register writes -/

/-- A write at a register's offset is that register's write. -/
theorem memWrite_offset (r : Reg) (v : Word) (s : State) : memWrite r.offset v s = writeReg r v s := by
  simp [memWrite]

/-- The low `k` bits of a word, as a register that keeps them reads them back. -/
theorem lowBits_eq_and (v : Word) {k : Nat} : (v.extractLsb' 0 k).setWidth 32 = v &&& BitVec.ofNat 32 (2 ^ k - 1) := by
  apply BitVec.eq_of_getLsbD_eq
  intro i hi
  rw [BitVec.getLsbD_setWidth, BitVec.getLsbD_extractLsb', BitVec.getLsbD_and, BitVec.getLsbD_ofNat, Nat.testBit_two_pow_sub_one]
  simp [hi, Bool.and_comm]

theorem ofBool_lowBit (v : Word) : BitVec.ofBool (v.getLsbD 0) = v.extractLsb' 0 1 := by
  apply BitVec.eq_of_getLsbD_eq
  intro i hi
  obtain rfl : i = 0 := by omega
  simp

/-- Settles O38: each write keeps its register's low bits, which the register then reads. -/
theorem controlWritesTakeEffect : Obligations.ControlWritesTakeEffect := by
  intro s v
  have hctrl : memWrite 0x0C v s = writeCtrl v s := memWrite_offset .ctrl v s
  have hfreq : memWrite 0x14 v s = writeFreqSel v s := memWrite_offset .freqSel v s
  have hnode : memWrite 0x28 v s = writeNodeSel v s := memWrite_offset .nodeSel v s
  have hcode : memWrite 0x3C v s = writeCodeSel v s := memWrite_offset .codeSel v s
  have hword : memWrite 0x44 v s = writeCodeWordSel v s := memWrite_offset .codeWordSel v s
  rw [hctrl, hfreq, hnode, hcode, hword]
  refine ⟨rfl, rfl, rfl, rfl, rfl, ?_, lowBits_eq_and v, lowBits_eq_and v, lowBits_eq_and v, lowBits_eq_and v⟩
  change (BitVec.ofBool (v.getLsbD 0)).setWidth 32 = v &&& 1
  rw [ofBool_lowBit]
  exact lowBits_eq_and v

/-- Settles O46: IRQ_EN and DONE after each of the operations. -/
theorem irqFollowsDone : Obligations.IrqFollowsDone := by
  intro s
  have hstatus : ∀ v, memWrite 0x08 v s = writeStatus v s := fun v => memWrite_offset .status v s
  have hctrl : ∀ v, memWrite 0x0C v s = writeCtrl v s := fun v => memWrite_offset .ctrl v s
  refine ⟨rfl, ?_, rfl, fun v hv => ?_, fun v => ?_, fun e info => ?_⟩
  · simp [State.irq]
  · rw [hstatus]
    simp [State.irq, hv]
  · rw [hctrl]
    rfl
  · simp [State.irq]

/-! ## Register reads -/

/-- Settles O45: the windows that R66 lists are the unspecified reads. -/
theorem busyWindowReadsAreUnspecified : Obligations.BusyWindowReadsAreUnspecified := by
  have hbuild : ∀ (s : State) (r : Reg), s.fsm = Config.fsmBuild → s.unspecified r =
      decide (r ∈ [Reg.leafCount, .nodeCount, .root, .nodeSym, .nodeChild, .nodeWeightLo, .nodeWeightHi, .codeLen, .codeWord]) := by
    intro s r hf
    rw [State.unspecified, hf]
    cases r <;> rfl
  have hderive : ∀ (s : State) (r : Reg), s.fsm = Config.fsmDerive → s.unspecified r = decide (r ∈ [Reg.codeLen, .codeWord]) := by
    intro s r hf
    rw [State.unspecified, hf]
    cases r <;> rfl
  refine ⟨?_, ?_, ?_, ?_, ?_⟩
  · intro s r hf hr
    exact memRead_unspecified (by rw [hbuild s r hf]; exact decide_eq_true hr)
  · intro s r hf hr
    exact memRead_unspecified (by rw [hderive s r hf]; exact decide_eq_true hr)
  · intro s r hf hr
    exact memRead_exact (by rw [hbuild s r hf]; exact decide_eq_false hr)
  · intro s r hf hr
    exact memRead_exact (by rw [hderive s r hf]; exact decide_eq_false hr)
  · intro s r hb hd
    exact memRead_exact (by simp [State.unspecified, hb, hd])

end Sys2Proof.Machine
end

section
/-! PROOF. STATUS field by field, and the read-only views (R34, R43, R46 to R49). -/

namespace Sys2Proof.Machine

/-! ## STATUS -/

theorem status_getLsbD (s : State) (i : Nat) : (readReg s .status).getLsbD i =
    (0#8 ++ s.sub ++ 0#1 ++ s.fsm ++ 0#4 ++ s.err ++ 0#3 ++ BitVec.ofBool s.overrun ++ BitVec.ofBool s.codesValid ++
      BitVec.ofBool s.treeValid ++ BitVec.ofBool s.done ++ BitVec.ofBool s.busy).getLsbD i := rfl

theorem status_extractLsb' (s : State) (i k : Nat) : (readReg s .status).extractLsb' i k =
    (0#8 ++ s.sub ++ 0#1 ++ s.fsm ++ 0#4 ++ s.err ++ 0#3 ++ BitVec.ofBool s.overrun ++ BitVec.ofBool s.codesValid ++
      BitVec.ofBool s.treeValid ++ BitVec.ofBool s.done ++ BitVec.ofBool s.busy).extractLsb' i k := rfl

theorem and_not_eq_ite (a b : Bool) : (a && !b) = if b then false else a := by cases b <;> simp

/-- Settles O37: STATUS is the concatenation of its fields, and its write clears the two flags. -/
theorem statusReadsAndClearsItsFields : Obligations.StatusReadsAndClearsItsFields := by
  refine ⟨fun s => ?_, rfl, fun s v => ?_⟩
  · refine ⟨?busy, ?done, ?tree, ?codes, ?overrun, ?rsvd5, ?err, ?rsvd12, ?fsm, ?rsvd19, ?sub, ?rsvd24⟩
    case busy | done | tree | codes | overrun | rsvd19 =>
      rw [status_getLsbD]
      simp only [BitVec.getLsbD_append]
      simp [State.busy]
    case rsvd5 | err | rsvd12 | fsm | sub | rsvd24 =>
      rw [status_extractLsb']
      simp (disch := omega) only [BitVec.extractLsb'_append_eq_of_le, BitVec.extractLsb'_append_eq_of_add_le]
      simp
  · have hstatus : memWrite 0x08 v s = writeStatus v s := memWrite_offset .status v s
    rw [hstatus, writeStatus, and_not_eq_ite, and_not_eq_ite]

/-! ## The views -/

/-- A value in two registers, the low 32 bits in one and the rest in the other (R48, R49). -/
theorem halves_toNat {w : Nat} (x : BitVec w) {k : Nat} (hk : w ≤ 32 + k) :
    (x.extractLsb' 0 32).toNat + 2 ^ 32 * (x.extractLsb' 32 k).toNat = x.toNat := by
  have hx : x.toNat / 2 ^ 32 < 2 ^ k := by
    rw [Nat.div_lt_iff_lt_mul (by decide), ← Nat.pow_add, Nat.add_comm k]
    exact Nat.lt_of_lt_of_le x.isLt (Nat.pow_le_pow_right (by decide) hk)
  rw [BitVec.extractLsb'_toNat, BitVec.extractLsb'_toNat, Nat.shiftRight_zero, Nat.shiftRight_eq_div_pow, Nat.mod_eq_of_lt hx]
  exact Nat.mod_add_div _ _

/-- CODE_WORD bit by bit (R48). -/
theorem codeSlice_getLsbD (e : CodeEntry) (sel : BitVec 3) {j : Nat} (hj : j < 32) :
    (codeSlice e sel).getLsbD j =
      (decide (32 * sel.toNat + j < e.len.toNat) && e.bit (32 * sel.toNat + j)) := by
  rw [codeSlice, BitVec.getLsbD_ofNat, pathValue_testBit]
  simp [hj]

/-- The node window over an arena slot, or past the arena (R47). -/
theorem shownNode_eq (s : State) : s.shownNode = if s.nodeSel.toNat ≤ 512 then arenaGet s.node s.nodeSel.toNat
    else { sym := 0x1FF, weight := 0, zero := 0x3FF, one := 0x3FF } := by
  split
  · rfl
  · exact arenaGet_past _ (by omega)

/-- The code window over a code entry, or past the table (R48). -/
theorem shownCode_eq (s : State) :
    s.shownCode = if s.codeSel.toNat ≤ 256 then codeGet s.code s.codeSel.toNat else { len := 0, cells := 0 } := by
  split
  · rfl
  · exact codeGet_past _ (by omega)

/-- NODE_CHILD bit by bit (R47): the zero child from bit 0, the one child from bit 16. -/
theorem nodeChild_getLsbD (one zero : Slot) {i : Nat} (hi : i < 32) :
    (one.setWidth 32 <<< 16 ||| zero.setWidth 32 : Word).getLsbD i =
      if i < 16 then zero.getLsbD i else one.getLsbD (i - 16) := by
  rw [BitVec.getLsbD_or, BitVec.getLsbD_shiftLeft, BitVec.getLsbD_setWidth, BitVec.getLsbD_setWidth]
  split
  next hlow => simp [hi, hlow]
  next hhigh => simp [hi, hhigh, BitVec.getLsbD_of_ge zero i (by omega), show i - 16 < 32 by omega]

/-- NODE_CHILD field by field: the two children in bits 9:0 and 25:16, zeros in the rest (R47). -/
theorem nodeChild_fields (one zero : Slot) :
    ((one.setWidth 32 <<< 16 ||| zero.setWidth 32 : Word).extractLsb' 0 10 = zero) ∧
      ((one.setWidth 32 <<< 16 ||| zero.setWidth 32 : Word).extractLsb' 16 10 = one) ∧
      ((one.setWidth 32 <<< 16 ||| zero.setWidth 32 : Word).extractLsb' 10 6 = 0) ∧
      ((one.setWidth 32 <<< 16 ||| zero.setWidth 32 : Word).extractLsb' 26 6 = 0) := by
  refine ⟨?zero, ?one, ?gap, ?top⟩
  all_goals
    apply BitVec.eq_of_getLsbD_eq
    intro i hi
    rw [BitVec.getLsbD_extractLsb', nodeChild_getLsbD one zero (by omega)]
  case zero => simp [hi, show i < 16 by omega]
  case one => simp [hi]
  case gap => simp [show 10 + i < 16 by omega]
  case top => simp [show ¬26 + i < 16 by omega, BitVec.getLsbD_of_ge one (26 + i - 16) (by omega)]

/-- Settles O40: each view is the field of the selected entry. -/
theorem viewsReadTheTables : Obligations.ViewsReadTheTables := by
  intro s
  refine ⟨rfl, rfl, fun h => ?_, fun h => ?_, ?_, ?_, halves_toNat s.bitCount (by decide), halves_toNat s.symCount (by decide)⟩
  · simp [readReg, h]
  · simp [readReg, h, Config.nil]
  · rintro n hn
    rw [← shownNode_eq] at hn
    subst hn
    obtain ⟨hzero, hone, hgap, htop⟩ := nodeChild_fields s.shownNode.one s.shownNode.zero
    refine ⟨rfl, hzero, hone, hgap, htop, ?_⟩
    have hhi : (readReg s .nodeWeightHi).toNat = (s.shownNode.weight.extractLsb' 32 9).toNat := by
      rw [readReg, BitVec.toNat_setWidth]
      omega
    rw [hhi]
    exact halves_toNat s.shownNode.weight (by decide)
  · rintro e he
    rw [← shownCode_eq] at he
    subst he
    exact ⟨rfl, fun j hj => codeSlice_getLsbD _ _ hj⟩

end Sys2Proof.Machine
end

section
/-! PROOF. The host's accesses: its turn, the register writes and reads, and the refusals (R100 to R110, R115). -/

namespace Sys2Proof.Machine

/-! ## The host's turn -/

theorem step_host {s : State} {ts : List Turn} (hrst : s.rst = false) (hturn : s.turns = .host :: ts) :
    step s = hostTurn { s with turns := ts } := by simp [step_turn hturn, agentStep, hrst]

theorem step_hostRead {s : State} {ts : List Turn} {p : List HostOp} {off : BitVec 8} {width : Nat} (hrst : s.rst = false)
    (hturn : s.turns = .host :: ts) (hprog : s.hostProg = .read off width :: p) :
    step s = hostRead off width { s with turns := ts, hostProg := p } := by
  rw [step_host hrst hturn]
  simp only [hostTurn, hprog]

theorem step_hostWrite {s : State} {ts : List Turn} {p : List HostOp} {off : BitVec 8} {bytes : List Byte} (hrst : s.rst = false)
    (hturn : s.turns = .host :: ts) (hprog : s.hostProg = .write off bytes :: p) :
    step s = hostWrite off bytes { s with turns := ts, hostProg := p } := by
  rw [step_host hrst hturn]
  simp only [hostTurn, hprog]

/-! ## Which accesses are defined -/

theorem accessOk_four {off : BitVec 8} (h : off.toNat % 4 = 0) : accessOk off 4 = true := decide_eq_true ⟨rfl, h⟩

theorem accessOk_undefined {off : BitVec 8} {width : Nat} (h : width ≠ 4 ∨ off.toNat % 4 ≠ 0) : accessOk off width = false :=
  decide_eq_false fun ⟨hwidth, hoff⟩ => h.elim (· hwidth) (· hoff)

theorem hostRead_defined {off : BitVec 8} (h : off.toNat % 4 = 0) (s : State) :
    hostRead off 4 s = .next (recordRead (memRead off s)) := by simp [hostRead, accessOk_four h]

theorem hostRead_undefined {off : BitVec 8} {width : Nat} (h : width ≠ 4 ∨ off.toNat % 4 ≠ 0) (s : State) :
    hostRead off width s = .refused (.undefinedAccess off width) := by simp [hostRead, accessOk_undefined h]

theorem hostWrite_undefined {off : BitVec 8} {bytes : List Byte} (h : bytes.length ≠ 4 ∨ off.toNat % 4 ≠ 0) (s : State) :
    hostWrite off bytes s = .refused (.undefinedAccess off bytes.length) := by simp [hostWrite, accessOk_undefined h]

/-! ## Writes -/

/-- Bytes that decode are four, so a write of them to CMD is defined, and it runs their command. -/
theorem hostWrite_cmd {bytes : List Byte} {i : Instr} (h : Sys2Proof.decode bytes = .ok i) (s : State) :
    hostWrite 0x04 bytes s = exec i s := by
  have hok : accessOk 0x04 bytes.length = true := by rw [decode_length h]; exact accessOk_four (by decide)
  rcases hostWrite_cases 0x04 bytes s with ⟨-, -, j, hj, he⟩ | ⟨-, hne, -⟩ | ⟨hbad, -⟩
  · obtain rfl : i = j := by simpa [h] using hj
    exact he
  · exact absurd rfl hne
  · exact absurd (hok.symm.trans hbad) (by decide)

/-- A defined write elsewhere is the register write of the word of its bytes. -/
theorem hostWrite_register {off : BitVec 8} {bytes : List Byte} {v : Word} (halign : off.toNat % 4 = 0) (hcmd : off ≠ 0x04)
    (hword : wordOfBytes bytes = some v) (s : State) : hostWrite off bytes s = .next (memWrite off v s) := by
  have hok : accessOk off bytes.length = true := by rw [wordOfBytes_length hword]; exact accessOk_four halign
  rcases hostWrite_cases off bytes s with ⟨-, hoff, -⟩ | ⟨-, -, w, hw, he⟩ | ⟨hbad, -⟩
  · exact absurd hoff hcmd
  · obtain rfl : v = w := by simpa [hword] using hw
    exact he
  · exact absurd (hok.symm.trans hbad) (by decide)

/-- Settles O4: the host's turn is its write of CMD, which runs the command that the bytes decode to. -/
theorem stepRunsTheDecodedCommand : Obligations.StepRunsTheDecodedCommand := by
  intro s ts p bytes i hrst hturn hprog hdec
  rw [step_hostWrite hrst hturn hprog, hostWrite_cmd hdec]

/-! ## Reserved offsets -/

theorem offset_lt_reserved (r : Reg) : r.offset.toNat < 0x5C := by cases r <;> decide

theorem regAt_reserved {off : BitVec 8} (h : ∀ r : Reg, r.offset ≠ off) : Reg.at? off = none :=
  Option.eq_none_iff_forall_ne_some.2 fun r hr => h r (offset_of_regAt hr)

theorem memRead_reserved {off : BitVec 8} (h : ∀ r : Reg, r.offset ≠ off) (s : State) : memRead off s = (0, s) := by
  simp [memRead, regAt_reserved h]

theorem memWrite_reserved {off : BitVec 8} (h : ∀ r : Reg, r.offset ≠ off) (v : Word) (s : State) : memWrite off v s = s := by
  simp [memWrite, regAt_reserved h]

/-- Settles O41: no register stands at an offset from 0x5C on, and the write of a read-only register is nothing. -/
theorem reservedAndReadOnlyIgnoreWrites : Obligations.ReservedAndReadOnlyIgnoreWrites := by
  intro s v off
  refine ⟨fun hoff => ?reserved, ?readOnly⟩
  case reserved =>
    have hnone : ∀ r : Reg, r.offset ≠ off := by
      rintro r rfl
      exact absurd (offset_lt_reserved r) (Nat.not_lt.2 hoff)
    exact ⟨memWrite_reserved hnone v s, memRead_reserved hnone s⟩
  case readOnly =>
    rintro r rfl hr
    rw [memWrite_offset]
    rcases hr with rfl | rfl | rfl | rfl | rfl | rfl | rfl | rfl | rfl | rfl | rfl | rfl | rfl | rfl | rfl <;> rfl

/-! ## The accesses together -/

/-- A read looks neither at the schedule nor at the host's accesses still to come. -/
theorem memRead_schedule (off : BitVec 8) (s : State) (ts : List Turn) (p : List HostOp) :
    memRead off { s with turns := ts, hostProg := p } =
      ((memRead off s).1, { s with turns := ts, hostProg := p, draws := (memRead off s).2.draws }) := by
  cases hr : Reg.at? off with
  | none => simp only [memRead, hr]
  | some r =>
    obtain rfl := offset_of_regAt hr
    cases hu : s.unspecified r with
    | false =>
      rw [memRead_exact hu]
      exact memRead_exact hu
    | true =>
      rw [memRead_unspecified hu]
      exact memRead_unspecified hu

/-- A defined read gives the host its value, and nothing else moves but the count of draws (R100, R109). -/
theorem step_hostRead_defined {s : State} {ts : List Turn} {p : List HostOp} {off : BitVec 8} (hrst : s.rst = false)
    (hturn : s.turns = .host :: ts) (hprog : s.hostProg = .read off 4 :: p) (halign : off.toNat % 4 = 0) :
    step s = .next { s with
      turns := ts, hostProg := p, hostReads := s.hostReads ++ [(memRead off s).1], draws := (memRead off s).2.draws } := by
  rw [step_hostRead hrst hturn hprog, hostRead_defined halign, memRead_schedule, recordRead]

/-- Settles O42: the host's turn is its access, taken by the access's offset and width. -/
theorem hostAccessesReadOrAreRefused : Obligations.HostAccessesReadOrAreRefused := by
  refine ⟨?write, ?read, ?badRead, ?badWrite⟩
  case write =>
    intro s ts p off b0 b1 b2 b3 hrst hturn hprog halign hcmd
    rw [step_hostWrite hrst hturn hprog, hostWrite_register halign hcmd rfl]
  case read =>
    intro s ts p off hrst hturn hprog halign
    refine ⟨(memRead off s).1, (memRead off s).2.draws, step_hostRead_defined hrst hturn hprog halign, ?exact, ?reserved⟩
    case exact =>
      rintro r rfl hexact
      rw [memRead_exact hexact]
      exact ⟨rfl, rfl⟩
    case reserved =>
      intro hreserved
      rw [memRead_reserved hreserved]
      exact ⟨rfl, rfl⟩
  case badRead =>
    intro s ts p off width hrst hturn hprog hbad
    rw [step_hostRead hrst hturn hprog, hostRead_undefined hbad]
  case badWrite =>
    intro s ts p off bytes hrst hturn hprog hbad
    rw [step_hostWrite hrst hturn hprog, hostWrite_undefined hbad]

end Sys2Proof.Machine
end

section
/-! PROOF. Command words: which are illegal, and that decoding and encoding undo each other (R130 to R133). -/

namespace Sys2Proof

/-! ## Illegal words and rows -/

/-- The words of R133 are those over which `illegal` is well-formed. -/
theorem illegal_wf_iff (w : Word) : (Instr.illegal w).wf = true ↔ rsvdField w ≠ 0 ∨ 8 ≤ (opField w).toNat := by
  rw [Instr.wf, Bool.or_eq_true, decide_eq_true_iff, decide_eq_true_iff]
  rfl

/-- A word of R133 matches no row. -/
theorem decodeWord_of_illegal_wf {w : Word} (h : (Instr.illegal w).wf = true) : decodeWord w = .illegal w := by
  rw [decodeWord]
  split
  · rfl
  · rename_i hrsvd
    have hop : 8 ≤ (opField w).toNat := ((illegal_wf_iff w).1 h).resolve_left hrsvd
    split
    case h_9 => rfl
    all_goals omega

/-- RSVD and OP make up the word (R130). -/
theorem toNat_eq_fields (w : Word) : w.toNat = 16 * (rsvdField w).toNat + (opField w).toNat := by
  have hw := w.isLt
  rw [rsvdField, opField, BitVec.extractLsb'_toNat, BitVec.extractLsb'_toNat, Nat.shiftRight_zero, Nat.shiftRight_eq_div_pow]
  omega

/-- A word that is not of R133 is one of the eight rows' (R131). -/
theorem word_of_not_illegal_wf {w : Word} (h : (Instr.illegal w).wf ≠ true) : ∃ op : Fin 8, w = BitVec.ofNat 32 op := by
  rw [ne_eq, illegal_wf_iff, not_or, not_not, not_le] at h
  obtain ⟨hrsvd, hop⟩ := h
  have hlt : w.toNat < 8 := by rw [toNat_eq_fields, hrsvd]; simpa using hop
  exact ⟨⟨w.toNat, hlt⟩, by simp⟩

theorem decodeWord_row : ∀ op : Fin 8,
    (decodeWord (BitVec.ofNat 32 op)).wf = true ∧ encode (decodeWord (BitVec.ofNat 32 op)) = BitVec.ofNat 32 op := by decide

/-! ## Decoding and encoding -/

/-- What a word decodes to is well-formed and encodes to it: a word of R133 decodes to `illegal` of itself, any other to its row. -/
theorem decodeWord_wf_encode (w : Word) : (decodeWord w).wf = true ∧ encode (decodeWord w) = w := by
  by_cases h : (Instr.illegal w).wf = true
  · rw [decodeWord_of_illegal_wf h]
    exact ⟨h, rfl⟩
  · obtain ⟨op, rfl⟩ := word_of_not_illegal_wf h
    exact decodeWord_row op

theorem decodeWord_encode {i : Instr} (h : i.wf = true) : decodeWord (encode i) = i := by
  cases i
  case illegal w => exact decodeWord_of_illegal_wf h
  all_goals rfl

/-- `decode` answers `illegal` exactly for the words of R133. -/
theorem decodeWord_eq_illegal_iff (w : Word) :
    decodeWord w = .illegal w ↔ rsvdField w ≠ 0 ∨ 8 ≤ (opField w).toNat := by
  rw [← illegal_wf_iff]
  exact ⟨fun h => h ▸ (decodeWord_wf_encode w).1, decodeWord_of_illegal_wf⟩

/-- Nothing but four bytes is a command (R130). -/
theorem decode_isOk_iff_length (bytes : List Byte) : (∃ i, decode bytes = .ok i) ↔ bytes.length = 4 := by
  constructor
  · rintro ⟨i, h⟩
    exact decode_length h
  · intro h
    obtain ⟨w, hw⟩ := Machine.wordOfBytes_isSome h
    exact ⟨decodeWord w, by rw [decode, hw]⟩

/-- Settles O2: the bytes make the word again, and the word of a well-formed command decodes to it. -/
theorem decodeOfEncodeIsTheCommand : Obligations.DecodeOfEncodeIsTheCommand := by
  intro i h
  rw [encodeBytes, decode_bytesOfWord, decodeWord_encode h]

/-- Settles O3: the words of R133 decode to `illegal` of themselves, and the eight others to the rows of R131. -/
theorem everyWordIsOneCommand : Obligations.EveryWordIsOneCommand :=
  ⟨decodeWord_wf_encode, decodeWord_eq_illegal_iff, decode_isOk_iff_length⟩

/-- Settles O1: each sample is the bytes of a well-formed command, and so decodes to it. -/
theorem sampleWordsDecode : Obligations.SampleWordsDecode := by
  have sample : ∀ i : Instr, i.wf = true → decode (encodeBytes i) = .ok i := decodeOfEncodeIsTheCommand
  exact ⟨sample .nop rfl, sample .clearFreq rfl, sample .buildTree rfl, sample .deriveCodes rfl, sample .encode rfl,
    sample .decode rfl, sample .release rfl, sample .abort rfl, sample (.illegal 0x08) rfl, sample (.illegal 0x12) rfl⟩

end Sys2Proof
end

section
/-! PROOF. The host's turn when it waits or has no access to make (R138, R114). -/

namespace Sys2Proof.Machine

theorem step_hostWait {s : State} {ts : List Turn} {p : List HostOp} (hrst : s.rst = false) (hturn : s.turns = .host :: ts)
    (hprog : s.hostProg = .wait :: p) : step s = .next (hostWait { s with turns := ts, hostProg := p }) := by
  rw [step_host hrst hturn]
  simp only [hostTurn, hprog]

theorem step_hostDone {s : State} {ts : List Turn} (hrst : s.rst = false) (hturn : s.turns = .host :: ts)
    (hprog : s.hostProg = []) : step s = .next { s with turns := ts } := by
  rw [step_host hrst hturn]
  simp only [hostTurn, hprog]

/-- STATUS stands in no window of R66. -/
theorem unspecified_status (s : State) : s.unspecified .status = false := by
  simp [State.unspecified, Reg.isTreeView, Reg.isNodeWindow, Reg.isCodeWindow]

theorem status_busyBit (s : State) : (readReg s .status).getLsbD 0 = decide (s.fsm ≠ Config.fsmIdle) := by
  obtain ⟨hfields, -, -⟩ := statusReadsAndClearsItsFields
  exact (hfields s).1

/-- A pass of WAIT gives the host STATUS, and leaves WAIT the next access unless the engine is idle (R138, R35). -/
theorem hostWait_eq (s : State) : hostWait s = { s with
    hostProg := if s.fsm = Config.fsmIdle then s.hostProg else .wait :: s.hostProg,
    hostReads := s.hostReads ++ [readReg s .status] } := by
  rw [hostWait, memRead_exact (unspecified_status s), recordRead, status_busyBit]
  by_cases hidle : s.fsm = Config.fsmIdle <;> simp [hidle]

/-- Settles O43: the host's turn is the pass of WAIT, which reads STATUS whatever the schedule and the later accesses are. -/
theorem hostWaitsUntilIdle : Obligations.HostWaitsUntilIdle := by
  refine ⟨?wait, ?done⟩
  case wait =>
    intro s ts p hrst hturn hprog
    rw [step_hostWait hrst hturn hprog, hostWait_eq]
    rfl
  case done =>
    intro s ts hrst hturn hprog
    exact step_hostDone hrst hturn hprog

end Sys2Proof.Machine
end

section
/-! PROOF. The command protocol: the engine's turn, the completion, the dropped commands, and what raises the STATUS flags (R36 to R39,
R163 to R166). -/

namespace Sys2Proof.Machine

/-- Settles O5: the turn is the engine's step with the turn taken off the schedule, and an idle engine is at rest. -/
theorem engineTurnIsTheEngineStep : Obligations.EngineTurnIsTheEngineStep :=
  ⟨fun _ _ hrst hturn => step_engine hturn hrst, fun _ hturns => step_noTurns hturns, fun _ hidle => engineStep_idle hidle⟩

/-- Settles O8: BUSY and the two offers are functions of `fsm`, which `complete` returns to IDLE. -/
theorem completionWritesTheReport : Obligations.CompletionWritesTheReport := by
  refine ⟨fun e info s => ⟨rfl, ?_, ?_, ?_⟩, fun s => rfl, fun e info s => rfl, rfl⟩
  · simp [State.busy]
  · simp [State.bitOutValid, Config.fsmIdle, Config.fsmEncode]
  · simp [State.symOutValid, Config.fsmIdle, Config.fsmDecode]

/-- Settles O9: the condition says that the write is no honoured ABORT, and every other one is dropped. -/
theorem busyCommandsAreDropped : Obligations.BusyCommandsAreDropped := by
  intro i s hbusy hdropped
  exact exec_busy i hbusy fun ⟨habort, hstream⟩ =>
    hdropped.elim (· habort) fun ⟨hencode, hdecode⟩ => hstream.elim hencode hdecode

/-! ## The validity flags -/

/-- Neither validity flag rises from `s` to `t` (R37, R38). -/
def NoValidityRises (s t : State) : Prop :=
  (t.treeValid = true → s.treeValid = true) ∧ (t.codesValid = true → s.codesValid = true)

theorem treeValid_of_tables {s t : State} (h : t.tables = s.tables) : t.treeValid = s.treeValid :=
  congrArg (fun x => x.2.2.2.2.2.1) h

theorem codesValid_of_tables {s t : State} (h : t.tables = s.tables) : t.codesValid = s.codesValid :=
  congrArg (fun x => x.2.2.2.2.2.2) h

theorem noValidityRises_of_tables {s t : State} (h : t.tables = s.tables) : NoValidityRises s t :=
  ⟨(treeValid_of_tables h).symm.trans, (codesValid_of_tables h).symm.trans⟩

theorem noValidityRises_cleared {s t : State} (htree : t.treeValid = false) (hcodes : t.codesValid = false) :
    NoValidityRises s t := by simp [NoValidityRises, htree, hcodes]

/-- No accept raises a validity flag: CLEAR_FREQ, BUILD_TREE, DERIVE_CODES and RELEASE clear, the others keep (R181, R201, R231,
R311). -/
theorem acceptOf_noValidityRises (i : Instr) (s : State) : NoValidityRises s (acceptOf i s) := by
  cases i with
  | clearFreq | buildTree | release => exact noValidityRises_cleared rfl rfl
  | deriveCodes =>
    rcases acceptDeriveCodes_cases s with ⟨-, he⟩ | ⟨-, he⟩ <;> rw [acceptOf, he]
    · exact ⟨id, fun hcodes => absurd hcodes Bool.false_ne_true⟩
    · exact ⟨id, id⟩
  | encode => exact noValidityRises_of_tables (acceptEncode_tables s)
  | decode => exact noValidityRises_of_tables (acceptDecode_tables s)
  | nop | abort | illegal => exact ⟨id, id⟩

theorem exec_noValidityRises {i : Instr} {s t : State} (h : exec i s = .next t) : NoValidityRises s t := by
  rcases exec_cases h with ⟨-, rfl⟩ | ⟨-, -, rfl⟩ | ⟨-, rfl⟩
  · exact acceptOf_noValidityRises i (beginAccept s)
  · exact ⟨id, id⟩
  · exact ⟨id, id⟩

theorem memWrite_noValidityRises (off : BitVec 8) (v : Word) (s : State) : NoValidityRises s (memWrite off v s) := by
  rcases memWrite_block off v s with he | ⟨-, he⟩ <;> rw [he]
  · exact ⟨id, id⟩
  · exact noValidityRises_cleared rfl rfl

/-- Outside the engine's step no validity flag rises. -/
theorem step_validity {s t : State} (h : step s = .next t) :
    NoValidityRises s t ∨ ∃ ts, s.rst = false ∧ s.turns = .engine :: ts ∧ t = setTurns ts (engineStep s) := by
  rcases step_blockEvent h with he | ⟨ts, -, he⟩ | ⟨ts, hrst, hturn, he⟩ | ⟨ts, bytes, p, i, -, -, -, -, he⟩ |
    ⟨ts, off, v, p, -, -, rfl⟩
  · rw [he]
    exact .inl ⟨id, id⟩
  · rw [he]
    exact .inl (noValidityRises_cleared rfl rfl)
  · exact .inr ⟨ts, hrst, hturn, he⟩
  · exact .inl (exec_noValidityRises he :)
  · exact .inl (memWrite_noValidityRises off v { s with turns := ts, hostProg := p })

/-- The engine writes TREE_VALID only in BUILD's successful completion (R37, R210). -/
theorem engineStep_treeValid (s : State) :
    (engineStep s).treeValid = s.treeValid ∨ s.fsm = Config.fsmBuild ∧ ∃ u, engineStep s = complete 0 0 u := by
  rcases engineStep_cases s with ⟨hf, he⟩ | ⟨-, he⟩ | ⟨-, he⟩ | ⟨-, he⟩ | he <;> rw [he]
  · rcases buildStep_cases s with ⟨-, he⟩ | ⟨-, -, he⟩ | ⟨-, he⟩ <;> rw [he]
    · exact .inl rfl
    · exact .inl rfl
    · exact .inr ⟨hf, _, rfl⟩
  · rcases deriveStep_cases s with ⟨-, he⟩ | ⟨-, w, -, he⟩ | ⟨-, -, he⟩ <;> rw [he] <;> exact .inl rfl
  · exact .inl (treeValid_of_tables (encodeStep_tables s))
  · exact .inl (treeValid_of_tables (decodeStep_tables s))
  · exact .inl rfl

/-- The engine writes CODES_VALID only in DERIVE's completion (R38, R236). -/
theorem engineStep_codesValid (s : State) :
    (engineStep s).codesValid = s.codesValid ∨ s.fsm = Config.fsmDerive ∧ ∃ u, engineStep s = complete 0 0 u := by
  rcases engineStep_cases s with ⟨-, he⟩ | ⟨hf, he⟩ | ⟨-, he⟩ | ⟨-, he⟩ | he <;> rw [he]
  · rcases buildStep_cases s with ⟨-, he⟩ | ⟨-, -, he⟩ | ⟨-, he⟩ <;> rw [he] <;> exact .inl rfl
  · rcases deriveStep_cases s with ⟨-, he⟩ | ⟨-, w, -, he⟩ | ⟨-, -, he⟩ <;> rw [he]
    · exact .inr ⟨hf, _, rfl⟩
    · exact .inr ⟨hf, _, rfl⟩
    · exact .inl rfl
  · exact .inl (codesValid_of_tables (encodeStep_tables s))
  · exact .inl (codesValid_of_tables (decodeStep_tables s))
  · exact .inl rfl

/-- TREE_VALID rises only in a completion of BUILD with no error (R37). -/
theorem step_treeValid_rises {s t : State} (h : step s = .next t) (hs : s.treeValid = false) (ht : t.treeValid = true) :
    s.rst = false ∧ s.fsm = Config.fsmBuild ∧ (∃ ts, s.turns = .engine :: ts) ∧ t.fsm = Config.fsmIdle ∧ t.done = true ∧
      t.err = 0 := by
  rcases step_validity h with ⟨htree, -⟩ | ⟨ts, hrst, hturn, rfl⟩
  · exact absurd (hs.symm.trans (htree ht)) Bool.false_ne_true
  rcases engineStep_treeValid s with hkept | ⟨hf, u, he⟩
  · exact absurd (hs.symm.trans (hkept.symm.trans ht)) Bool.false_ne_true
  · exact ⟨hrst, hf, ⟨ts, hturn⟩, by rw [he]; exact ⟨rfl, rfl, rfl⟩⟩

/-- CODES_VALID rises only in a completion of DERIVE with no error (R38). -/
theorem step_codesValid_rises {s t : State} (h : step s = .next t) (hs : s.codesValid = false) (ht : t.codesValid = true) :
    s.rst = false ∧ s.fsm = Config.fsmDerive ∧ (∃ ts, s.turns = .engine :: ts) ∧ t.fsm = Config.fsmIdle ∧ t.done = true ∧
      t.err = 0 := by
  rcases step_validity h with ⟨-, hcodes⟩ | ⟨ts, hrst, hturn, rfl⟩
  · exact absurd (hs.symm.trans (hcodes ht)) Bool.false_ne_true
  rcases engineStep_codesValid s with hkept | ⟨hf, u, he⟩
  · exact absurd (hs.symm.trans (hkept.symm.trans ht)) Bool.false_ne_true
  · exact ⟨hrst, hf, ⟨ts, hturn⟩, by rw [he]; exact ⟨rfl, rfl, rfl⟩⟩

/-! ## DONE and OVERRUN -/

/-- From `s` to `t` OVERRUN stays, and DONE stays or the command completes (R36, R165). -/
inductive KeepsOrCompletes (s t : State) : Prop where
  | keeps (hdone : t.done = s.done) (hoverrun : t.overrun = s.overrun)
  | completes (e : BitVec 4) (info : Word) (u : State) (hoverrun : u.overrun = s.overrun) (h : t = complete e info u)

theorem KeepsOrCompletes.overrun {s t : State} (h : KeepsOrCompletes s t) : t.overrun = s.overrun := by
  rcases h with ⟨-, ho⟩ | ⟨e, info, u, ho, rfl⟩
  · exact ho
  · exact ho

/-- A DONE that rises stands in an idle engine (R36, R165). -/
theorem KeepsOrCompletes.idle_of_done {s t : State} (h : KeepsOrCompletes s t) (hs : s.done = false) (ht : t.done = true) :
    t.fsm = Config.fsmIdle ∧ t.sub = 0 := by
  rcases h with ⟨hdone, -⟩ | ⟨e, info, u, -, rfl⟩
  · exact absurd (hs.symm.trans (hdone.symm.trans ht)) Bool.false_ne_true
  · exact ⟨rfl, rfl⟩

theorem KeepsOrCompletes.refl (s : State) : KeepsOrCompletes s s := .keeps rfl rfl

/-- A completion of a state that has the OVERRUN of `s`. -/
theorem keepsOrCompletes_complete {s u : State} (e : BitVec 4) (info : Word) (h : u.overrun = s.overrun := by rfl) :
    KeepsOrCompletes s (complete e info u) := .completes e info u h rfl

theorem buildStep_keepsOrCompletes (s : State) : KeepsOrCompletes s (buildStep s) := by
  rcases buildStep_cases s with ⟨-, he⟩ | ⟨-, -, he⟩ | ⟨-, he⟩ <;> rw [he] <;> exact keepsOrCompletes_complete _ _

theorem deriveStep_keepsOrCompletes (s : State) : KeepsOrCompletes s (deriveStep s) := by
  rcases deriveStep_cases s with ⟨-, he⟩ | ⟨-, w, -, he⟩ | ⟨-, -, he⟩ <;> rw [he]
  · exact keepsOrCompletes_complete _ _
  · exact keepsOrCompletes_complete _ _
  · exact .refl s

theorem encodeStep_keepsOrCompletes (s : State) : KeepsOrCompletes s (encodeStep s) := by
  rcases encodeStep_cases s with ⟨-, he⟩ | ⟨-, he⟩ | ⟨-, he⟩ | he <;> rw [he]
  · rcases encWaitSymStep_cases s with ⟨-, he⟩ | ⟨b, r, -, ⟨-, he⟩ | ⟨-, -, he⟩ | ⟨-, -, he⟩⟩ | ⟨r, -, he⟩ <;> rw [he]
    · exact .refl s
    · exact keepsOrCompletes_complete _ _
    · exact keepsOrCompletes_complete _ _
    · exact .keeps rfl rfl
    · exact .keeps rfl rfl
  · rcases encShiftStep_cases s with ⟨-, he⟩ | ⟨-, -, he⟩ | ⟨-, -, he⟩ <;> rw [he]
    · exact .refl s
    · exact keepsOrCompletes_complete _ _
    · exact .keeps rfl rfl
  · rcases encShiftEosStep_cases s with ⟨-, he⟩ | ⟨-, -, he⟩ | ⟨-, -, -, he⟩ | ⟨-, -, -, he⟩ <;> rw [he]
    · exact .refl s
    · exact keepsOrCompletes_complete _ _
    · exact .keeps rfl rfl
    · exact keepsOrCompletes_complete _ _
  · exact .refl s

theorem arrive_keepsOrCompletes {s u : State} (nxt : Slot) (hdone : u.done = s.done) (hoverrun : u.overrun = s.overrun) :
    KeepsOrCompletes s (arrive nxt u) := by
  rcases arrive_cases nxt u with ⟨-, -, he⟩ | ⟨-, -, he⟩ | ⟨-, he⟩ <;> rw [he]
  · exact keepsOrCompletes_complete _ _ hoverrun
  · exact .keeps hdone hoverrun
  · exact .keeps hdone hoverrun

theorem decodeStep_keepsOrCompletes (s : State) : KeepsOrCompletes s (decodeStep s) := by
  rcases decodeStep_cases s with ⟨-, he⟩ | ⟨-, he⟩ | he <;> rw [he]
  · rcases decWaitBitStep_cases s with ⟨-, he⟩ | ⟨r, -, he⟩ | ⟨x, r, -, ⟨-, he⟩ | ⟨-, -, he⟩ | ⟨-, n, -, he⟩⟩ <;> rw [he]
    · exact .refl s
    · exact keepsOrCompletes_complete _ _
    · exact keepsOrCompletes_complete _ _
    · exact keepsOrCompletes_complete _ _
    · exact arrive_keepsOrCompletes n rfl rfl
  · rcases decEmitStep_cases s with ⟨-, he⟩ | ⟨-, -, he⟩ | ⟨-, -, he⟩ <;> rw [he]
    · exact .refl s
    · exact keepsOrCompletes_complete _ _
    · exact .keeps rfl rfl
  · exact .refl s

theorem engineStep_keepsOrCompletes (s : State) : KeepsOrCompletes s (engineStep s) := by
  rcases engineStep_cases s with ⟨-, he⟩ | ⟨-, he⟩ | ⟨-, he⟩ | ⟨-, he⟩ | he <;> rw [he]
  · exact buildStep_keepsOrCompletes s
  · exact deriveStep_keepsOrCompletes s
  · exact encodeStep_keepsOrCompletes s
  · exact decodeStep_keepsOrCompletes s
  · exact .refl s

/-- An accept starts a command, which moves neither flag, or completes one (R161, R162). -/
theorem acceptOf_keepsOrCompletes (i : Instr) (s : State) : KeepsOrCompletes s (acceptOf i s) := by
  cases i with
  | nop | clearFreq | release | abort | illegal => exact keepsOrCompletes_complete _ _
  | buildTree => exact .keeps rfl rfl
  | deriveCodes =>
    rcases acceptDeriveCodes_cases s with ⟨-, he⟩ | ⟨-, he⟩ <;> rw [acceptOf, he]
    · exact .keeps rfl rfl
    · exact keepsOrCompletes_complete _ _
  | encode =>
    rcases acceptEncode_cases s with ⟨-, he⟩ | ⟨-, he⟩ <;> rw [acceptOf, he]
    · exact .keeps rfl rfl
    · exact keepsOrCompletes_complete _ _
  | decode =>
    rcases acceptDecode_cases s with ⟨-, he⟩ | ⟨-, he⟩ <;> rw [acceptOf, he]
    · exact .keeps rfl rfl
    · exact keepsOrCompletes_complete _ _

/-- A command that raises DONE leaves the engine idle: it completed at once, or it was an honoured ABORT (R162, R313). -/
theorem exec_idle_of_done {i : Instr} {s t : State} (h : exec i s = .next t) (hs : s.done = false) (ht : t.done = true) :
    t.fsm = Config.fsmIdle ∧ t.sub = 0 := by
  rcases exec_cases h with ⟨-, rfl⟩ | ⟨-, -, rfl⟩ | ⟨-, rfl⟩
  · exact (acceptOf_keepsOrCompletes i (beginAccept s)).idle_of_done rfl ht
  · exact ⟨rfl, rfl⟩
  · exact absurd (hs.symm.trans ht) Bool.false_ne_true

/-- A command raises OVERRUN only when it is dropped (R163, R39). -/
theorem exec_dropped_of_overrun {i : Instr} {s t : State} (h : exec i s = .next t) (hs : s.overrun = false)
    (ht : t.overrun = true) :
    s.fsm ≠ Config.fsmIdle ∧ (i ≠ .abort ∨ (s.fsm ≠ Config.fsmEncode ∧ s.fsm ≠ Config.fsmDecode)) := by
  have hne : t.overrun ≠ s.overrun := by simp [hs, ht]
  rcases exec_cases h with ⟨-, rfl⟩ | ⟨-, -, rfl⟩ | ⟨hbusy, rfl⟩
  · exact absurd (acceptOf_keepsOrCompletes i (beginAccept s)).overrun hne
  · exact absurd rfl hne
  · refine ⟨hbusy, not_and_or.1 (mt ?_ hne) |>.imp_right not_or.1⟩
    rintro ⟨rfl, hstream⟩
    rw [exec_abort_running hstream, Host.Outcome.next.injEq] at h
    rw [← h]
    rfl

/-- No register write raises DONE (R34). -/
theorem memWrite_done {off : BitVec 8} {v : Word} {s : State} (h : (memWrite off v s).done = true) : s.done = true := by
  rcases memWrite_cases off v s with he | he | he | he | he | he | he | ⟨-, he⟩ <;> rw [he] at h
  case inr.inl => exact (Bool.and_eq_true_iff.1 h).1
  case inr.inr.inr.inr.inr.inr.inr =>
    rcases writeFreqData_cases v s with ⟨-, he⟩ | ⟨-, -, he⟩ | ⟨-, -, -, he⟩ <;> rw [he] at h <;> exact h
  all_goals exact h

/-- A register write raises OVERRUN only at FREQ_DATA while the engine is busy (R182, R39). -/
theorem memWrite_freqData_of_overrun {off : BitVec 8} {v : Word} {s : State} (hs : s.overrun = false)
    (ht : (memWrite off v s).overrun = true) : s.fsm ≠ Config.fsmIdle ∧ off = 0x18 := by
  have hne : (memWrite off v s).overrun ≠ s.overrun := by simp [hs, ht]
  rcases memWrite_cases off v s with he | he | he | he | he | he | he | ⟨hoff, he⟩ <;> rw [he] at hne ht
  case inr.inl => exact absurd (hs.symm.trans (Bool.and_eq_true_iff.1 ht).1) Bool.false_ne_true
  case inr.inr.inr.inr.inr.inr.inr =>
    rcases writeFreqData_cases v s with ⟨hbusy, -⟩ | ⟨-, -, he⟩ | ⟨-, -, -, he⟩
    · exact ⟨hbusy, hoff⟩
    · exact absurd (congrArg State.overrun he) hne
    · exact absurd (congrArg State.overrun he) hne
  all_goals exact absurd rfl hne

/-- A host's turn raises OVERRUN only in a dropped command or a write of FREQ_DATA to the busy engine (R39). -/
theorem hostTurn_write_of_overrun {s t : State} (h : hostTurn s = .next t) (hs : s.overrun = false) (ht : t.overrun = true) :
    s.fsm ≠ Config.fsmIdle ∧ ∃ bytes p,
      (s.hostProg = .write 0x04 bytes :: p ∧ ∃ i, Sys2Proof.decode bytes = .ok i ∧
          (i ≠ .abort ∨ (s.fsm ≠ Config.fsmEncode ∧ s.fsm ≠ Config.fsmDecode))) ∨
        (s.hostProg = .write 0x18 bytes :: p ∧ bytes.length = 4) := by
  have hne : t.overrun ≠ s.overrun := by simp [hs, ht]
  rcases hostTurn_cases h with ⟨-, rfl⟩ | ⟨off, p, -, -, rfl⟩ | ⟨bytes, p, i, hprog, hdec, he⟩ |
    ⟨off, bytes, p, v, hprog, -, hword, rfl⟩ | ⟨p, -, rfl⟩
  · exact absurd rfl hne
  · exact absurd (congrArg State.overrun (recordRead_surroundings off { s with hostProg := p })) hne
  · obtain ⟨hbusy, hdropped⟩ := exec_dropped_of_overrun he hs ht
    exact ⟨hbusy, bytes, p, .inl ⟨hprog, i, hdec, hdropped⟩⟩
  · obtain ⟨hbusy, rfl⟩ := memWrite_freqData_of_overrun (s := { s with hostProg := p }) hs ht
    exact ⟨hbusy, bytes, p, .inr ⟨hprog, wordOfBytes_length hword⟩⟩
  · exact absurd (congrArg State.overrun (hostWait_surroundings { s with hostProg := p })) hne

/-- OVERRUN rises only in the host's turn: the engine's step never raises it. -/
theorem step_host_of_overrun {s t : State} (h : step s = .next t) (hs : s.overrun = false) (ht : t.overrun = true) :
    s.rst = false ∧ ∃ ts, s.turns = .host :: ts := by
  have hne : t.overrun ≠ s.overrun := by simp [hs, ht]
  rcases step_blockEvent h with he | ⟨ts, -, he⟩ | ⟨ts, -, -, rfl⟩ | ⟨ts, -, -, -, hrst, hturn, -⟩ | ⟨ts, -, -, -, hrst, hturn, -⟩
  · exact absurd (congrArg State.overrun he) hne
  · exact absurd ((congrArg State.overrun he).symm.trans ht) Bool.false_ne_true
  · exact absurd (engineStep_keepsOrCompletes s).overrun hne
  · exact ⟨hrst, ts, hturn⟩
  · exact ⟨hrst, ts, hturn⟩

/-- The host's turn that raises OVERRUN writes to a busy engine (R39). -/
theorem step_overrun_rises {s t : State} (h : step s = .next t) (hs : s.overrun = false) (ht : t.overrun = true) :
    s.rst = false ∧ s.fsm ≠ Config.fsmIdle ∧ ∃ ts bytes p, s.turns = .host :: ts ∧
      ((s.hostProg = .write 0x04 bytes :: p ∧ ∃ i, Sys2Proof.decode bytes = .ok i ∧
          (i ≠ .abort ∨ (s.fsm ≠ Config.fsmEncode ∧ s.fsm ≠ Config.fsmDecode))) ∨
        (s.hostProg = .write 0x18 bytes :: p ∧ bytes.length = 4)) := by
  obtain ⟨hrst, ts, hturn⟩ := step_host_of_overrun h hs ht
  obtain ⟨hbusy, bytes, p, hwrite⟩ := hostTurn_write_of_overrun ((step_host hrst hturn).symm.trans h) hs ht
  exact ⟨hrst, hbusy, ts, bytes, p, hturn, hwrite⟩

/-- DONE rises only in a completion, in a step of the busy engine or in a command (R36). -/
theorem step_done_rises {s t : State} (h : step s = .next t) (hs : s.done = false) (ht : t.done = true) :
    s.rst = false ∧ t.fsm = Config.fsmIdle ∧ t.sub = 0 ∧
      ((s.fsm ≠ Config.fsmIdle ∧ ∃ ts, s.turns = .engine :: ts) ∨
        ∃ ts bytes p i, s.turns = .host :: ts ∧ s.hostProg = .write 0x04 bytes :: p ∧ Sys2Proof.decode bytes = .ok i) := by
  have hne : t.done ≠ s.done := by simp [hs, ht]
  rcases step_blockEvent h with he | ⟨ts, -, he⟩ | ⟨ts, hrst, hturn, rfl⟩ | ⟨ts, bytes, p, i, hrst, hturn, hprog, hdec, he⟩ |
    ⟨ts, off, v, p, -, -, rfl⟩
  · exact absurd (congrArg State.done he) hne
  · exact absurd ((congrArg State.done he).symm.trans ht) Bool.false_ne_true
  · have hbusy : s.fsm ≠ Config.fsmIdle := fun hidle => hne (congrArg State.done (engineStep_idle hidle) :)
    obtain ⟨hfsm, hsub⟩ := (engineStep_keepsOrCompletes s).idle_of_done hs ht
    exact ⟨hrst, hfsm, hsub, .inl ⟨hbusy, ts, hturn⟩⟩
  · obtain ⟨hfsm, hsub⟩ := exec_idle_of_done he hs ht
    exact ⟨hrst, hfsm, hsub, .inr ⟨ts, bytes, p, i, hturn, hprog, hdec⟩⟩
  · exact absurd (hs.symm.trans (memWrite_done (s := { s with turns := ts, hostProg := p }) ht)) Bool.false_ne_true

/-- Settles O36: no event of the block raises a flag but those named for it. -/
theorem flagsRiseOnlyAtTheirEvents : Obligations.FlagsRiseOnlyAtTheirEvents :=
  fun _ _ h => ⟨step_treeValid_rises h, step_codesValid_rises h, step_overrun_rises h, step_done_rises h⟩

end Sys2Proof.Machine
end

section
/-! PROOF. Loading the frequency table: CLEAR_FREQ and the FREQ_DATA write (R45, R180 to R183). -/

namespace Sys2Proof.Machine

/-! ## CLEAR_FREQ -/

/-- Settles O11: the accept is an exact record; its emptied table reads 0 everywhere, and TREE_VALID 0 fixes the tree views (R46). -/
theorem clearFreqEmptiesTheTable : Obligations.ClearFreqEmptiesTheTable := by
  refine ⟨rfl, fun s hidle => ⟨acceptClearFreq (beginAccept s), exec_idle .clearFreq hidle, rfl, freqGet_cleared, rfl, rfl, rfl⟩, ?_⟩
  intro s hbusy
  exact exec_busy .clearFreq hbusy (by simp)

/-! ## FREQ_DATA -/

theorem writeFreqData_busy {s : State} (v : Word) (hbusy : s.fsm ≠ Config.fsmIdle) : writeFreqData v s = dropWrite s := by
  simp [writeFreqData, hbusy]

theorem writeFreqData_unselected {s : State} (v : Word) (hidle : s.fsm = Config.fsmIdle) (hsel : 256 < s.freqSel.toNat) :
    writeFreqData v s = s := by simp [writeFreqData, hidle, hsel]

theorem writeFreqData_held {s : State} {v : Word} (hidle : s.fsm = Config.fsmIdle) (hheld : s.freqAt s.freqSel = v) :
    writeFreqData v s = s := by simp [writeFreqData, hidle, hheld]

theorem writeFreqData_changed {s : State} {v : Word} (hidle : s.fsm = Config.fsmIdle) (hsel : s.freqSel.toNat ≤ 256)
    (hnew : s.freqAt s.freqSel ≠ v) :
    writeFreqData v s =
      { s with freq := freqSet s.freq s.freqSel.toNat v, treeValid := false, codesValid := false } := by
  simp [writeFreqData, hidle, Nat.not_lt.2 hsel, hnew, invalidate]

/-- The read of FREQ_DATA is that of the selected entry, or 0 past the table (R45). -/
theorem readReg_freqData (s : State) :
    readReg s .freqData = if s.freqSel.toNat ≤ 256 then freqGet s.freq s.freqSel.toNat else 0 := by
  split
  · rfl
  · exact freqGet_past _ (by omega)

/-- The selected entry reads back the value written, whether it held it before or not. -/
theorem readReg_freqData_writeFreqData {s : State} (v : Word) (hidle : s.fsm = Config.fsmIdle) (hsel : s.freqSel.toNat ≤ 256) :
    readReg (writeFreqData v s) .freqData = v := by
  by_cases hheld : s.freqAt s.freqSel = v
  · rw [writeFreqData_held hidle hheld]
    exact hheld
  · rw [writeFreqData_changed hidle hsel hheld]
    change freqGet (freqSet s.freq s.freqSel.toNat v) s.freqSel.toNat = v
    rw [freqGet_freqSet, if_pos ⟨rfl, by omega⟩]

/-- Settles O39: a clause for each branch of the write, then the two reads. -/
theorem freqDataWriteSetsTheEntry : Obligations.FreqDataWriteSetsTheEntry := by
  intro s v
  have hwrite : memWrite 0x18 v s = writeFreqData v s := memWrite_offset .freqData v s
  rw [hwrite]
  refine ⟨writeFreqData_busy v, writeFreqData_unselected v, fun hidle _ => writeFreqData_held hidle, fun hidle hsel hnew => ?_,
    readReg_freqData_writeFreqData v, readReg_freqData s⟩
  rw [writeFreqData_changed hidle hsel hnew]
  refine ⟨rfl, fun sym hsym => ?_⟩
  change freqGet (freqSet s.freq s.freqSel.toNat v) sym = _
  simp [freqGet_freqSet, hsym, eq_comm]

end Sys2Proof.Machine
end

section
/-! PROOF. The priority queue: `popmin` takes the least key, and a pass of the merge loop joins the two slots that it takes (R206 to
R208). -/

namespace Sys2Proof.Machine

/-! ## The least key -/

/-- The key of a slot (R207), in the lexicographic order of the pairs. -/
def slotKey (node : Vector Node 513) (i : Slot) : ℕ ×ₗ ℕ := toLex ((arenaGet node i.toNat).weight.toNat, i.toNat)

theorem slotKey_lt_iff (node : Vector Node 513) (i j : Slot) : slotKey node i < slotKey node j ↔
    (arenaGet node i.toNat).weight.toNat < (arenaGet node j.toNat).weight.toNat ∨
      ((arenaGet node i.toNat).weight.toNat = (arenaGet node j.toNat).weight.toNat ∧ i.toNat < j.toNat) :=
  Prod.Lex.toLex_lt_toLex

theorem keyLt_iff (node : Vector Node 513) (i j : Slot) : keyLt node i j = true ↔ slotKey node i < slotKey node j := by
  rw [slotKey_lt_iff, keyLt, decide_eq_true_iff, BitVec.lt_def, BitVec.lt_def, BitVec.toNat_inj]

/-- Keys are distinct because slot indices are (R207). -/
theorem slotKey_injective (node : Vector Node 513) : Function.Injective (slotKey node) := fun _ _ h =>
  BitVec.eq_of_toNat_eq (congrArg (fun key => (ofLex key).2) h)

/-- One comparison of the scan keeps the slot of lesser key. -/
theorem slotKey_keyLt_ite (node : Vector Node 513) (i m : Slot) :
    slotKey node (if keyLt node i m then i else m) = min (slotKey node i) (slotKey node m) := by
  split
  next h => exact (min_eq_left ((keyLt_iff ..).1 h).le).symm
  next h => exact (min_eq_right (not_lt.1 (mt (keyLt_iff ..).2 h))).symm

theorem minSlot_le (node : Vector Node 513) (m : Slot) (q : List Slot) :
    ∀ j ∈ m :: q, slotKey node (minSlot node m q) ≤ slotKey node j := by
  induction q generalizing m with
  | nil => simp [minSlot]
  | cons i rest ih =>
    obtain ⟨hkept, hrest⟩ := List.forall_mem_cons.1 (ih (if keyLt node i m then i else m))
    rw [slotKey_keyLt_ite] at hkept
    exact List.forall_mem_cons.2
      ⟨hkept.trans (min_le_right ..), List.forall_mem_cons.2 ⟨hkept.trans (min_le_left ..), hrest⟩⟩

/-! ## popmin -/

variable {node : Vector Node 513} {q q' : List Slot} {m : Slot}

/-- `popmin` answers whenever the queue has a slot in it. -/
theorem exists_popMin (node : Vector Node 513) (hne : q ≠ []) : ∃ m q', popMin node q = some (m, q') := by
  obtain ⟨m, -, hpop⟩ := popMin_some node hne
  exact ⟨m, _, hpop⟩

/-- What `popmin` answers is a slot of the queue, and the queue without it. -/
theorem popMin_mem (h : popMin node q = some (m, q')) : m ∈ q ∧ ∀ j, j ∈ q' ↔ j ∈ q ∧ j ≠ m := by
  have hne : q ≠ [] := by
    rintro rfl
    simp [popMin] at h
  obtain ⟨m', hmem, hpop⟩ := popMin_some node hne
  obtain ⟨rfl, rfl⟩ := Prod.mk.inj (Option.some.inj (hpop.symm.trans h))
  exact ⟨hmem, fun j => by simp⟩

/-- A queue is a set (R61), so `popmin` makes it one slot shorter. -/
theorem popMin_nodup (hnd : q.Nodup) (h : popMin node q = some (m, q')) : q'.Nodup ∧ q'.length + 1 = q.length := by
  obtain ⟨m', q'', hpop, hperm⟩ := popMin_perm node (List.ne_nil_of_mem (popMin_mem h).1) hnd
  obtain ⟨rfl, rfl⟩ := Prod.mk.inj (Option.some.inj (hpop.symm.trans h))
  exact ⟨(List.nodup_cons.1 (hperm.nodup_iff.1 hnd)).2, hperm.length_eq.symm⟩

/-- Every other slot of the queue has a greater key than the one that `popmin` answers (R207). -/
theorem popMin_least (h : popMin node q = some (m, q')) {j : Slot} (hj : j ∈ q) (hne : j ≠ m) :
    slotKey node m < slotKey node j := by
  have hle : slotKey node m ≤ slotKey node j := by
    cases q with
    | nil => simp at hj
    | cons i rest =>
      obtain ⟨rfl, -⟩ := Prod.mk.inj (Option.some.inj h)
      exact minSlot_le node i rest j hj
  exact lt_of_le_of_ne hle fun he => hne (slotKey_injective node he).symm

/-- Settles O15: the scan keeps the lesser of two keys, and the keys are distinct. -/
theorem popMinTakesTheLeastKey : Obligations.PopMinTakesTheLeastKey := by
  refine ⟨fun node q => exists_popMin node, fun node q q' m h => ?_⟩
  obtain ⟨hmem, hrest⟩ := popMin_mem h
  exact ⟨hmem, hrest, fun j hj hne => (slotKey_lt_iff ..).1 (popMin_least h hj hne)⟩

/-! ## A pass of the merge loop -/

/-- A pass over two slots or more is two pops and a push (R208). -/
theorem mergeStep_pops {w : BuildWork} (hnd : w.pq.Nodup) (hlen : 2 ≤ w.pq.length) :
    ∃ a b qa qb, popMin w.node w.pq = some (a, qa) ∧ popMin w.node qa = some (b, qb) ∧ qb.length + 2 = w.pq.length ∧
      mergeStep w = BuildWork.push { w with pq := qb } (internalNode w.node a b) := by
  obtain ⟨a, qa, ha⟩ := exists_popMin w.node (q := w.pq) (List.ne_nil_of_length_pos (by omega))
  obtain ⟨hnda, hlena⟩ := popMin_nodup hnd ha
  obtain ⟨b, qb, hb⟩ := exists_popMin w.node (q := qa) (List.ne_nil_of_length_pos (by omega))
  obtain ⟨-, hlenb⟩ := popMin_nodup hnda hb
  exact ⟨a, b, qa, qb, ha, hb, by omega, by simp only [mergeStep, ha, hb]⟩

theorem mergeLoop_pass {w : BuildWork} (k : Nat) (hlen : 2 ≤ w.pq.length) : mergeLoop (k + 1) w = mergeLoop k (mergeStep w) :=
  if_pos hlen

theorem mergeLoop_done {w : BuildWork} (k : Nat) (hlen : w.pq.length ≤ 1) : mergeLoop k w = w := by
  cases k with
  | zero => rfl
  | succ k => exact if_neg (Nat.not_lt.2 hlen)

/-! ## Leaf insertion and the merge loop -/

/-- Pushing nodes appends their slots to the queue, in order. -/
theorem pushLeaves_pq (freq : Vector Count 257) (syms : List Nat) (w : BuildWork) :
    (syms.foldl (fun w sym => w.push (leafNode freq sym)) w).pq =
      w.pq ++ (List.range' w.next syms.length).map (BitVec.ofNat 10) := by
  induction syms generalizing w with
  | nil => simp
  | cons sym syms ih =>
    rw [List.foldl_cons, ih]
    simp [BuildWork.push, List.range'_succ]

/-- Leaf insertion queues the slots of the leaves, in order (R205). -/
theorem insertLeaves_pq (freq : Vector Count 257) (node : Vector Node 513) :
    (insertLeaves freq node).pq = (List.range (presentSyms freq).length).map (BitVec.ofNat 10) := by
  rw [insertLeaves_eq, pushLeaves_pq, List.range_eq_range']
  rfl

theorem insertLeaves_pq_length (freq : Vector Count 257) (node : Vector Node 513) :
    (insertLeaves freq node).pq.length = (presentSyms freq).length := by simp [insertLeaves_pq]

/-- The last slot filled is in the queue: every child lies below its parent (R57 (b)), so it is no child. -/
theorem BuildInv.last_mem_queue {freq : Vector Count 257} {syms : List Nat} {w : BuildWork} (h : BuildInv freq syms w)
    (hpos : 0 < w.next) : w.next - 1 ∈ w.pq.map BitVec.toNat := by
  have hmem := h.slots.mem_iff.2 (List.mem_range.2 (by omega : w.next - 1 < w.next))
  refine (List.mem_append.1 hmem).resolve_right fun hchild => ?_
  simp only [childrenBelow, List.mem_flatMap, List.mem_range'_1, List.mem_cons, List.not_mem_nil, or_false] at hchild
  obtain ⟨k, ⟨hlo, hhi⟩, hchild⟩ := hchild
  obtain ⟨-, hzero, hone, -⟩ := h.internal k hlo (by omega)
  omega

/-- `buildOf` keeps the builder's invariant and ends with one slot in the queue (R205, R208, R209). -/
theorem buildOf_inv {freq : Vector Count 257} (hpos : 1 ≤ (presentSyms freq).length) :
    BuildInv freq (presentSyms freq) (buildOf freq) ∧ (buildOf freq).pq.length = 1 :=
  (buildInv_insertLeaves freq).1.mergeLoop (by rwa [insertLeaves_pq_length]) (Nat.le_refl _)

/-- Settles O16: the queue and the slots filled count 2n together (R209), so one slot in the queue leaves 2n−1 filled, and the last
of them is in the queue. -/
theorem mergeLoopLeavesOneRoot : Obligations.MergeLoopLeavesOneRoot := by
  rintro freq n rfl hpos
  obtain ⟨hinv, hone⟩ := buildOf_inv hpos
  have hfilled : (buildOf freq).next = 2 * (presentSyms freq).length - 1 := by
    have := hinv.queue_length
    omega
  obtain ⟨root, hroot⟩ := List.length_eq_one_iff.1 hone
  have hlast := hinv.last_mem_queue (by omega)
  rw [hroot, hfilled, List.map_singleton, List.mem_singleton] at hlast
  refine ⟨insertLeaves_pq .., (buildInv_insertLeaves freq).2, ?_, hfilled⟩
  rw [hroot, show 2 * (presentSyms freq).length - 2 = root.toNat by omega, BitVec.ofNat_toNat, BitVec.setWidth_eq]

/-- Settles O55: the two pops of a pass are of the least key in the queue and of the least key among the rest, and its push writes
the one slot `next`. -/
theorem mergePassJoinsTheTwoLeast : Obligations.MergePassJoinsTheTwoLeast := by
  refine ⟨fun w hnd hlen hnext => ?_, fun freq => ?_, fun k w => mergeLoop_pass k, fun k w => mergeLoop_done k⟩
  · obtain ⟨a, b, qa, qb, ha, hb, hlenb, hstep⟩ := mergeStep_pops hnd hlen
    obtain ⟨hamem, hqa⟩ := popMin_mem ha
    obtain ⟨hbmem, hqb⟩ := popMin_mem hb
    obtain ⟨hbq, hba⟩ := (hqa b).1 hbmem
    rw [hstep]
    refine ⟨a, b, hamem, hbq, hba.symm, fun j hj hja => (slotKey_lt_iff ..).1 (popMin_least ha hj hja),
      fun j hj hja hjb => (slotKey_lt_iff ..).1 (popMin_least hb ((hqa j).2 ⟨hj, hja⟩) hjb),
      push_get_next (w := { w with pq := qb }) hnext, fun i => push_get (w := { w with pq := qb }), fun j => ?_, ?_, rfl⟩
    · simp [BuildWork.push, hqb, hqa, and_assoc]
    · simp [BuildWork.push]
      omega
  · rw [buildOf, insertLeaves_pq_length]

end Sys2Proof.Machine
end

section
/-! PROOF. The tree of R57 against its table: the root's weight, and the one code of each symbol (R212, R213). -/

namespace Sys2Proof.Machine

variable {freq : Vector Count 257} {node : Vector Node 513} {n : Nat} {root : Slot}

/-! ## The root's weight -/

theorem weightSum_append (node : Vector Node 513) (l l' : List Nat) :
    weightSum node (l ++ l') = weightSum node l + weightSum node l' := by simp [weightSum]

/-- A count fits in a weight (R212). -/
theorem leafNode_weight (freq : Vector Count 257) (sym : Nat) : (leafNode freq sym).weight.toNat = (freqGet freq sym).toNat :=
  BitVec.toNat_setWidth_of_le (by decide)

/-- The counts of the symbols that are not present are 0, so the symbols present have the whole sum. -/
theorem sum_presentSyms (freq : Vector Count 257) :
    ((presentSyms freq).map fun sym => (freqGet freq sym).toNat).sum =
      ((List.range 257).map fun sym => (freqGet freq sym).toNat).sum := by
  rw [presentSyms, Config.numSymbols]
  induction List.range 257 with
  | nil => rfl
  | cons sym rest ih =>
    cases hp : present freq sym with
    | true => simp [hp, ih]
    | false =>
      have hzero : freqGet freq sym = 0 := by simpa [present] using hp
      simp [hp, hzero, ih]

/-- The leaves weigh what the table counts (R57 (a)). -/
theorem TreeInv.weightSum_leaves (h : TreeInv freq node n root) :
    weightSum node (List.range n) = ((List.range 257).map fun sym => (freqGet freq sym).toNat).sum := by
  rw [← sum_presentSyms, ← h.leafSyms, List.map_map, weightSum]
  congr 1
  refine List.map_congr_left fun i hi => ?_
  exact (congrArg (fun leaf : Node => leaf.weight.toNat) (h.leaf i (List.mem_range.1 hi))).trans (leafNode_weight ..)

/-- The internal slots weigh together what their children do (R57 (b)). -/
theorem TreeInv.weightSum_internal (h : TreeInv freq node n root) :
    weightSum node (List.range' n (n - 1)) = weightSum node (childList node n) := by
  have key : ∀ l : List Nat, (∀ k ∈ l, n ≤ k ∧ k < 2 * n - 1) → weightSum node l =
      weightSum node (l.flatMap fun k => [(arenaGet node k).zero.toNat, (arenaGet node k).one.toNat]) := by
    intro l hl
    induction l with
    | nil => rfl
    | cons k l ih =>
      obtain ⟨⟨hlo, hhi⟩, hrest⟩ := List.forall_mem_cons.1 hl
      obtain ⟨-, -, -, hweight⟩ := h.internal k hlo hhi
      have := ih hrest
      simp only [weightSum, List.flatMap_cons, List.map_cons, List.map_append, List.map_nil, List.sum_cons, List.sum_append,
        List.sum_nil] at this ⊢
      omega
  refine key _ fun k hk => ?_
  rw [List.mem_range'_1] at hk
  omega

/-- Settles O17: the slots 0..2n−2 are the leaves and the internal slots, and they are also the root and every child once (R57 (d)).
The internal slots weigh what the children do, so the root weighs what the leaves do. -/
theorem rootWeightIsTheSumOfCounts : Obligations.RootWeightIsTheSumOfCounts := by
  intro freq node n root h
  have hn := h.nonempty
  have hleavesFirst : List.range (2 * n - 1) = List.range n ++ List.range' n (n - 1) := by
    rw [List.range_eq_range', List.range_eq_range', show 2 * n - 1 = n + (n - 1) by omega, ← List.range'_append_1, Nat.zero_add]
  have hrootLast : List.range (2 * n - 1) = List.range (2 * n - 2) ++ [2 * n - 2] := by
    rw [← List.range_succ]; congr 1; omega
  have hchildren : weightSum node (childList node n) = weightSum node (List.range (2 * n - 2)) :=
    (h.childrenOnce.map _).sum_nat
  have hall := congrArg (weightSum node) (hleavesFirst.symm.trans hrootLast)
  rw [weightSum_append, weightSum_append, h.weightSum_leaves, h.weightSum_internal, hchildren] at hall
  have hroot : weightSum node [2 * n - 2] = (arenaGet node (2 * n - 2)).weight.toNat := by simp [weightSum]
  rw [h.root]
  omega

/-! ## The code of a symbol -/

/-- No symbol has two leaves (R57 (a)). -/
theorem TreeInv.leafSym_injective (h : TreeInv freq node n root) {i j : Nat} (hi : i < n) (hj : j < n)
    (he : (arenaGet node i).sym.toNat = (arenaGet node j).sym.toNat) : i = j := by
  have hnd : ((List.range n).map fun i => (arenaGet node i).sym.toNat).Nodup :=
    h.leafSyms ▸ (presentSyms_sorted freq).imp fun hlt => hlt.ne
  exact List.inj_on_of_nodup_map hnd (List.mem_range.2 hi) (List.mem_range.2 hj) he

/-- A tree gives a symbol one code (R213, R232, R234): it has one leaf, and that leaf one path. -/
theorem TreeInv.codeOf_unique (h : TreeInv freq node n root) {p q : List Bool} {sym : Nat} (hp : IsCodeOf node root p sym)
    (hq : IsCodeOf node root q sym) : p = q := by
  unfold IsCodeOf at hp hq
  split at hp
  next hroot =>
    rw [if_pos hroot] at hq
    exact hp.1.trans hq.1.symm
  next hroot =>
    rw [if_neg hroot] at hq
    obtain ⟨i, hpi, hi, his⟩ := hp
    obtain ⟨j, hqj, hj, hjs⟩ := hq
    have hleaf : ∀ {r : List Bool} {k : Slot}, walk node root r = some k → (arenaGet node k.toNat).isLeaf = true → k.toNat < n :=
      fun hr hk => (h.isLeaf_iff (h.walk_lt h.root_lt hr)).1 hk
    obtain rfl : i = j := BitVec.eq_of_toNat_eq (h.leafSym_injective (hleaf hpi hi) (hleaf hqj hj) (his.trans hjs.symm))
    exact h.path_unique hpi hqj

/-- A tree has one code table (R59, R213). -/
theorem TreeInv.codes_unique (h : TreeInv freq node n root) {code code' : Vector CodeEntry 257}
    (hc : CodesInv freq node root code) (hc' : CodesInv freq node root code') : code = code' := by
  refine codes_ext fun sym hsym => ?_
  cases hp : present freq sym with
  | false => rw [(hc sym hsym).1 hp, (hc' sym hsym).1 hp]
  | true =>
    obtain ⟨p, hcode, -, -, he⟩ := (hc sym hsym).2 hp
    obtain ⟨p', hcode', -, -, he'⟩ := (hc' sym hsym).2 hp
    rw [he, he', h.codeOf_unique hcode hcode']

/-- Settles O51: the invariant ties the tree to `buildOf` of the table, and a tree has one code table. -/
theorem sameTableSameTreeAndCodes : Obligations.SameTableSameTreeAndCodes := by
  intro s t hs ht hsTree htTree hfreq
  obtain ⟨hsNode, hsLeaf, hsRoot⟩ := hs.built hsTree
  obtain ⟨htNode, htLeaf, htRoot⟩ := ht.built htTree
  rw [← hfreq] at htNode htLeaf htRoot
  have hnode := hsNode.trans htNode.symm
  have hroot := hsRoot.trans htRoot.symm
  refine ⟨hnode, BitVec.eq_of_toNat_eq (hsLeaf.trans htLeaf.symm), hroot, fun hsCodes htCodes => ?_⟩
  have hcodes := ht.codes htCodes
  rw [← hfreq, ← hnode, ← hroot] at hcodes
  exact (hs.tree hsTree).codes_unique (hs.codes hsCodes) hcodes

end Sys2Proof.Machine
end

section
/-! PROOF. BUILD_TREE: its accept, its two errors, and its success (R200 to R203, R210). -/

namespace Sys2Proof.Machine

/-! ## The accept -/

/-- Settles O12: the accept of an idle engine is an exact record. -/
theorem buildTreeAccepts : Obligations.BuildTreeAccepts := fun _ hidle => exec_idle .buildTree hidle

/-- The accept starts BUILD, so the engine's next step is the execution step (R201, R204). -/
theorem engineStep_acceptBuildTree (s : State) : engineStep (acceptBuildTree s) = buildStep (acceptBuildTree s) :=
  engineStep_build rfl rfl

theorem exec_buildTree_next {s t : State} (hidle : s.fsm = Config.fsmIdle) (h : exec .buildTree s = .next t) :
    t = acceptBuildTree (beginAccept s) :=
  (Host.Outcome.next.inj ((exec_idle .buildTree hidle).symm.trans h)).symm

/-! ## The checks -/

theorem presentSyms_length_eq_countP (freq : Vector Count 257) :
    (presentSyms freq).length = (List.range 257).countP (fun sym => decide (freqGet freq sym ≠ 0)) :=
  List.countP_eq_length_filter.symm

theorem buildStep_emptyMap {s : State} (hnone : (presentSyms s.freq).length = 0) : buildStep s = raise .emptyMap 0 s :=
  if_pos hnone

theorem buildStep_noEos {s : State} (hsome : (presentSyms s.freq).length ≠ 0) (heos : s.freqAt Config.eos = 0) :
    buildStep s = raise .noEos (BitVec.ofNat 32 (presentSyms s.freq).length) s := by
  rw [buildStep, if_neg hsome, if_pos heos]

/-- Without EOS the execution step is an error, whether the map is empty or not (R203). -/
theorem buildStep_refuses {s : State} (heos : s.freqAt Config.eos = 0) : ∃ e info, buildStep s = raise e info s := by
  by_cases hnone : (presentSyms s.freq).length = 0
  · exact ⟨_, _, buildStep_emptyMap hnone⟩
  · exact ⟨_, _, buildStep_noEos hnone heos⟩

/-- Settles O13: the two checks in their order, and a completion that leaves the tree as the accept emptied it. -/
theorem buildTreeRefusesUnusableTables : Obligations.BuildTreeRefusesUnusableTables := by
  intro s t hidle hexec
  obtain rfl := exec_buildTree_next hidle hexec
  rw [engineStep_acceptBuildTree, ← presentSyms_length_eq_countP]
  refine ⟨fun hnone => buildStep_emptyMap hnone, fun hsome heos => buildStep_noEos hsome heos, fun heos => ?_⟩
  obtain ⟨e, info, hraise⟩ := buildStep_refuses (s := acceptBuildTree (beginAccept s)) heos
  rw [hraise]
  exact ⟨fun i _ => arenaGet_emptied i, rfl, rfl, rfl, rfl⟩

/-! ## The tree -/

/-- NODE_COUNT of a tree with `n` leaves (R46, R57): no subtraction below 0 and no sum past 32 bits. -/
theorem readReg_nodeCount_toNat {s : State} (htree : s.treeValid = true) (hpos : 1 ≤ s.leafCnt.toNat) :
    (readReg s .nodeCount).toNat = 2 * s.leafCnt.toNat - 1 := by
  have := s.leafCnt.isLt
  simp only [readReg, htree, if_true]
  bv_omega

/-- The accept and the execution step together, over a table with EOS: `buildOf` of the table, made over the arena that the accept
emptied, and a completion with no error (R201, R210). -/
theorem engineStep_acceptBuildTree_of_eos {s : State} (heos : freqGet s.freq 256 ≠ 0) {root : Slot}
    (hroot : (buildOf s.freq).pq = [root]) :
    engineStep (acceptBuildTree (beginAccept s)) = { s with
      node := (buildOf s.freq).node, leafCnt := BitVec.ofNat 9 (presentSyms s.freq).length, rootIdx := root,
      code := Vector.replicate 257 CodeEntry.empty, treeValid := true, codesValid := false, done := true, err := 0, errInfo := 0,
      fsm := Config.fsmIdle, sub := 0, pq := [], stack := [] } := by
  have hhead : (buildOf s.freq).pq.headD Config.nil = root := by rw [hroot]; rfl
  rw [engineStep_acceptBuildTree, buildStep_of_eos (s := acceptBuildTree (beginAccept s)) rfl heos, ← hhead]
  rfl

/-- Settles O14: with EOS in the table the execution step makes `buildOf` of it, which is a tree of R57 for the symbols present. -/
theorem buildTreeBuildsTheTree : Obligations.BuildTreeBuildsTheTree := by
  intro s hidle heos
  obtain ⟨root, hroot, htree⟩ := buildOf_tree ((present_iff s.freq 256).2 heos)
  have hleaf : (BitVec.ofNat 9 (presentSyms s.freq).length).toNat = (presentSyms s.freq).length :=
    Nat.mod_eq_of_lt (by have := presentSyms_length_le s.freq; omega)
  refine ⟨_, _, _, exec_idle .buildTree hidle, engineStep_acceptBuildTree_of_eos heos hroot, rfl,
    presentSyms_length_eq_countP s.freq, hleaf, htree, rfl, hroot, ?leafCount, ?nodeCount, ?root⟩
  case leafCount => exact (BitVec.toNat_setWidth_of_le (by decide)).trans hleaf
  case nodeCount => exact (readReg_nodeCount_toNat rfl (hleaf.symm ▸ htree.nonempty)).trans (by rw [hleaf])
  case root => exact (BitVec.toNat_setWidth_of_le (by decide)).trans htree.root

end Sys2Proof.Machine
end

section
/-! PROOF. DERIVE_CODES on a valid tree, and what its codes are: non-empty, prefix-free and of Kraft sum 1, or 1/2 for a lone leaf
(R230 to R237). -/

namespace Sys2Proof.Machine

variable {freq : Vector Count 257} {node : Vector Node 513} {n : Nat} {root : Slot} {code : Vector CodeEntry 257}

/-! ## The accept and the execution step -/

theorem exec_deriveCodes_of_tree {s : State} (hidle : s.fsm = Config.fsmIdle) (hvalid : s.treeValid = true) :
    exec .deriveCodes s = .next (goto Config.fsmDerive 0 { emptyCodes (beginAccept s) with codesValid := false }) :=
  (exec_idle .deriveCodes hidle).trans (congrArg Host.Outcome.next (if_pos hvalid))

/-- The execution step over a tree and an emptied code table completes with the codes of the tree (R233 to R236). -/
theorem deriveStep_of_tree {s : State} (htree : TreeInv s.freq s.node n s.rootIdx)
    (hempty : s.code = Vector.replicate 257 CodeEntry.empty) :
    ∃ code, deriveStep s = complete 0 0 { s with code := code, codesValid := true } ∧ CodesInv s.freq s.node s.rootIdx code := by
  rcases deriveStep_cases s with ⟨hleaf, hstep⟩ | ⟨hleaf, w, hloop, hstep⟩ | ⟨hleaf, hloop, -⟩
  · exact ⟨_, hstep, hempty ▸ htree.codes_loneLeaf hleaf⟩
  all_goals
    obtain ⟨w', hloop', hcodes⟩ := htree.deriveLoop_codes hleaf
    rw [hempty, hloop'] at hloop
  · obtain rfl : w' = w := Option.some.inj hloop
    exact ⟨_, hstep, hcodes⟩
  · exact absurd hloop (Option.some_ne_none w')

/-- Settles O21: the accept empties the code table and keeps the tree, over which the execution step completes with its codes. -/
theorem deriveCodesDerivesEveryCode : Obligations.DeriveCodesDerivesEveryCode := by
  intro s hinv hidle hvalid
  obtain ⟨code, hstep, hcodes⟩ := deriveStep_of_tree
    (s := goto Config.fsmDerive 0 { emptyCodes (beginAccept s) with codesValid := false }) (hinv.tree hvalid) rfl
  exact ⟨_, _, exec_deriveCodes_of_tree hidle hvalid, (engineStep_derive rfl rfl).trans hstep, rfl, hcodes⟩

/-! ## The bits of an entry are its symbol's code -/

theorem bits_length (e : CodeEntry) : e.bits.length = e.len.toNat := by simp [CodeEntry.bits]

theorem CodesInv.isCodeOf_bits (h : CodesInv freq node root code) {sym : Nat} (hlt : sym < 257) (hp : present freq sym = true) :
    IsCodeOf node root (codeGet code sym).bits sym := by
  obtain ⟨p, hcode, -, hle, he⟩ := (h sym hlt).2 hp
  rwa [he, ofPath_bits hle]

/-- The symbols present have a code of length 1 or more, every other none (R235). -/
theorem CodesInv.one_le_len_iff (h : CodesInv freq node root code) {sym : Nat} (hlt : sym < 257) :
    1 ≤ (codeGet code sym).len.toNat ↔ present freq sym = true := by
  cases hp : present freq sym with
  | false => simp [(h sym hlt).1 hp, CodeEntry.empty]
  | true =>
    obtain ⟨p, -, hpos, hle, he⟩ := (h sym hlt).2 hp
    simpa [he, ofPath_len hle] using hpos

/-! ## Prefix-freedom -/

/-- A code that is a prefix of another is that code, since a walk does not go on past a leaf (R232). -/
theorem IsCodeOf.eq_of_prefix {p r : List Bool} {a b : Nat} (ha : IsCodeOf node root p a) (hb : IsCodeOf node root (p ++ r) b) :
    a = b := by
  unfold IsCodeOf at ha hb
  split at ha
  next hroot =>
    rw [if_pos hroot] at hb
    exact ha.2.symm.trans hb.2
  next hroot =>
    rw [if_neg hroot] at hb
    obtain ⟨i, hpi, hi, hia⟩ := ha
    obtain ⟨j, hpj, -, hjb⟩ := hb
    rw [walk_append, hpi, Option.bind_some] at hpj
    cases r with
    | nil =>
      obtain rfl : i = j := Option.some.inj hpj
      exact hia.symm.trans hjb
    | cons x r => simp [walk_leaf hi] at hpj

/-! ## The Kraft sum -/

/-- A quantity that each internal slot has as the sum of its two children's is at the root the sum over the leaves: the slots 0..2n−2
are the leaves and the internal slots, and they are also every child once and the root (R57 (d)). -/
theorem TreeInv.sum_leaves_eq_root (h : TreeInv freq node n root) (f : Nat → Nat)
    (hf : ∀ k, n ≤ k → k < 2 * n - 1 → f k = f (arenaGet node k).zero.toNat + f (arenaGet node k).one.toNat) :
    ((List.range n).map f).sum = f root.toNat := by
  have hn := h.nonempty
  have hinternal : ((List.range' n (n - 1)).map f).sum = ((childList node n).map f).sum := by
    rw [childList, List.map_flatMap, List.flatMap_def, List.sum_flatten, List.map_map]
    refine congrArg List.sum (List.map_congr_left fun k hk => ?_)
    rw [List.mem_range'_1] at hk
    simpa using hf k hk.1 (by omega)
  have hleavesFirst : List.range (2 * n - 1) = List.range n ++ List.range' n (n - 1) := by
    rw [show 2 * n - 1 = n + (n - 1) by omega, List.range_add, List.range'_eq_map_range]
  have hrootLast : List.range (2 * n - 1) = List.range (2 * n - 2) ++ [2 * n - 2] := by
    rw [← List.range_succ]
    congr 1
    omega
  have hall := congrArg (fun l => (l.map f).sum) (hleavesFirst.symm.trans hrootLast)
  simp only [List.map_append, List.sum_append, hinternal, (h.childrenOnce.map f).sum_nat, List.map_singleton,
    List.sum_singleton] at hall
  rw [h.root]
  omega

/-- Every slot of the tree has a depth, the length of its one path. -/
theorem TreeInv.exists_depth (h : TreeInv freq node n root) :
    ∃ depth : Nat → Nat, ∀ p j, walk node root p = some j → depth j.toNat = p.length := by
  have hdepth : ∀ i, ∃ d, ∀ p j, walk node root p = some j → j.toNat = i → d = p.length := by
    intro i
    by_cases hpath : ∃ p j, walk node root p = some j ∧ j.toNat = i
    · obtain ⟨p, j, hp, hj⟩ := hpath
      refine ⟨p.length, fun q k hq hk => ?_⟩
      obtain rfl : j = k := BitVec.eq_of_toNat_eq (hj.trans hk.symm)
      rw [h.path_unique hp hq]
    · exact ⟨0, fun p j hp hj => absurd ⟨p, j, hp, hj⟩ hpath⟩
  choose depth hdepth using hdepth
  exact ⟨depth, fun p j hp => hdepth _ p j hp rfl⟩

/-- A slot with its path, the slot given by its number. -/
theorem TreeInv.exists_path_of_lt (h : TreeInv freq node n root) {i : Nat} (hi : i < 2 * n - 1) :
    ∃ (p : List Bool) (j : Slot), walk node root p = some j ∧ j.toNat = i := by
  have hj : (BitVec.ofNat 10 i).toNat = i := Nat.mod_eq_of_lt (by have := h.leaves_le; omega)
  obtain ⟨p, hp⟩ := h.exists_path (BitVec.ofNat 10 i) (hj.symm ▸ hi)
  exact ⟨p, _, hp, hj⟩

/-- The sum of 2^-depth over the leaves is 1: an internal slot is one bit above its two children, so it has their sum (R237). -/
theorem TreeInv.kraft_leaves (h : TreeInv freq node n root) {depth : Nat → Nat}
    (hdepth : ∀ p j, walk node root p = some j → depth j.toNat = p.length) :
    ((List.range n).map fun i => 2 ^ (256 - depth i)).sum = 2 ^ 256 := by
  rw [h.sum_leaves_eq_root (fun i => 2 ^ (256 - depth i)) fun k h1 h2 => ?internal]
  · exact congrArg (fun d => 2 ^ (256 - d)) (hdepth [] root rfl)
  case internal =>
    obtain ⟨p, j, hp, rfl⟩ := h.exists_path_of_lt h2
    have hchild : ∀ x, walk node root (p ++ [x]) = some ((arenaGet node j.toNat).child x) :=
      walk_concat hp ((h.not_isLeaf_iff h2).2 h1)
    have hlen : p.length + 1 ≤ 256 := by simpa using h.path_length (hchild false)
    have hzero : depth (arenaGet node j.toNat).zero.toNat = p.length + 1 := (hdepth _ _ (hchild false)).trans List.length_append
    have hone : depth (arenaGet node j.toNat).one.toNat = p.length + 1 := (hdepth _ _ (hchild true)).trans List.length_append
    simp only [hdepth p j hp, hzero, hone]
    rw [← Nat.two_mul, ← Nat.pow_succ']
    congr 1
    omega

theorem TreeInv.root_isLeaf_iff (h : TreeInv freq node n root) : (arenaGet node root.toNat).isLeaf = true ↔ n = 1 := by
  have := h.root
  have := h.nonempty
  rw [h.isLeaf_iff h.root_lt]
  omega

/-- The code of a leaf's symbol is as long as the leaf is deep (R232). -/
theorem CodesInv.len_leaf (hc : CodesInv freq node root code) (h : TreeInv freq node n root) (hn : n ≠ 1) {depth : Nat → Nat}
    (hdepth : ∀ p j, walk node root p = some j → depth j.toNat = p.length) {i : Nat} (hi : i < n) :
    (codeGet code (arenaGet node i).sym.toNat).len.toNat = depth i := by
  obtain ⟨p, j, hp, rfl⟩ := h.exists_path_of_lt (i := i) (by omega)
  have hcode : IsCodeOf node root p (arenaGet node j.toNat).sym.toNat := by
    rw [IsCodeOf, if_neg (mt h.root_isLeaf_iff.1 hn)]
    exact ⟨j, hp, (h.isLeaf_iff (by omega)).2 hi, rfl⟩
  have hbits := hc.isCodeOf_bits (h.leafSym_lt hi) ((present_iff _ _).2 ((mem_presentSyms _ _).1 (h.leafSym_mem hi)).2)
  rw [← bits_length, h.codeOf_unique hbits hcode, hdepth p j hp]

/-- A lone leaf's code is one bit long (R234). -/
theorem CodesInv.len_loneLeaf (hc : CodesInv freq node root code) (hroot : (arenaGet node root.toNat).isLeaf = true) {sym : Nat}
    (hlt : sym < 257) (hp : present freq sym = true) : (codeGet code sym).len.toNat = 1 := by
  have hbits := hc.isCodeOf_bits hlt hp
  rw [IsCodeOf, if_pos hroot] at hbits
  rw [← bits_length, hbits.1, List.length_singleton]

/-- The Kraft sum of the codes of a tree (R237). -/
theorem CodesInv.kraft_sum (hc : CodesInv freq node root code) (h : TreeInv freq node n root) :
    ((presentSyms freq).map fun sym => 2 ^ (256 - (codeGet code sym).len.toNat)).sum = if n = 1 then 2 ^ 255 else 2 ^ 256 := by
  split
  next hn =>
    subst hn
    have hpresent := (mem_presentSyms _ _).1 (h.leafSym_mem Nat.zero_lt_one)
    have hlen := hc.len_loneLeaf (h.root_isLeaf_iff.2 rfl) hpresent.1 ((present_iff _ _).2 hpresent.2)
    simp [← h.leafSyms, hlen]
  next hn =>
    obtain ⟨depth, hdepth⟩ := h.exists_depth
    rw [← h.kraft_leaves hdepth, ← h.leafSyms, List.map_map]
    refine congrArg List.sum (List.map_congr_left fun i hi => ?_)
    simp [hc.len_leaf h hn hdepth (List.mem_range.1 hi)]

/-- Settles O22: the codes are those of the tree, whose leaves have each their own path and a Kraft sum of 1. -/
theorem codesArePrefixFreeAndComplete : Obligations.CodesArePrefixFreeAndComplete := by
  intro s hinv hvalid
  have hcodes := hinv.codes hvalid
  have htree := hinv.tree (hinv.control.codesNeedTree hvalid)
  refine ⟨fun a ha => hcodes.one_le_len_iff ha, fun a b ha hb hne hpa hpb => ?_, hcodes.kraft_sum htree⟩
  rintro ⟨r, hr⟩
  exact hne ((hcodes.isCodeOf_bits ha hpa).eq_of_prefix (hr ▸ hcodes.isCodeOf_bits hb hpb))

end Sys2Proof.Machine
end

section
/-! PROOF. The accepts of DERIVE_CODES, ENCODE and DECODE, and what the steps of the stream commands leave alone (R231, R251, R252, R260,
R280 to R282). -/

namespace Sys2Proof.Machine

/-! ## The accepts -/

theorem exec_encode_of_codes {s : State} (hidle : s.fsm = Config.fsmIdle) (hvalid : s.codesValid = true) :
    exec .encode s = .next (goto Config.fsmEncode Config.encWaitSym (clearCounters (beginAccept s))) :=
  (exec_idle .encode hidle).trans (congrArg Host.Outcome.next (if_pos hvalid))

theorem exec_decode_of_tree {s : State} (hidle : s.fsm = Config.fsmIdle) (hvalid : s.treeValid = true) :
    exec .decode s = .next (goto Config.fsmDecode Config.decWaitBit { clearCounters (beginAccept s) with decCur := s.rootIdx }) :=
  (exec_idle .decode hidle).trans (congrArg Host.Outcome.next (if_pos hvalid))

/-- Settles O19: each accept starts its command when the flag it asks for is set. -/
theorem streamCommandsAccept : Obligations.StreamCommandsAccept :=
  ⟨fun _ hidle hvalid => exec_deriveCodes_of_tree hidle hvalid, fun _ hidle hvalid => exec_encode_of_codes hidle hvalid,
    fun _ hidle hvalid => exec_decode_of_tree hidle hvalid⟩

theorem exec_deriveCodes_noTree {s : State} (hidle : s.fsm = Config.fsmIdle) (hvalid : s.treeValid = false) :
    exec .deriveCodes s = .next (raise .noTree (Sys2Proof.encode .deriveCodes) (beginAccept s)) :=
  (exec_idle .deriveCodes hidle).trans (congrArg Host.Outcome.next (if_neg (ne_true_of_eq_false hvalid)))

theorem exec_encode_noCodes {s : State} (hidle : s.fsm = Config.fsmIdle) (hvalid : s.codesValid = false) :
    exec .encode s = .next (raise .noCodes (Sys2Proof.encode .encode) (beginAccept s)) :=
  (exec_idle .encode hidle).trans (congrArg Host.Outcome.next (if_neg (ne_true_of_eq_false hvalid)))

theorem exec_decode_noTree {s : State} (hidle : s.fsm = Config.fsmIdle) (hvalid : s.treeValid = false) :
    exec .decode s = .next (raise .noTree (Sys2Proof.encode .decode) (beginAccept s)) :=
  (exec_idle .decode hidle).trans (congrArg Host.Outcome.next (if_neg (ne_true_of_eq_false hvalid)))

/-- Settles O20: each accept raises its error when the flag it asks for is clear. -/
theorem missingPrerequisitesAreReported : Obligations.MissingPrerequisitesAreReported :=
  ⟨fun _ hidle hvalid => exec_deriveCodes_noTree hidle hvalid, fun _ hidle hvalid => exec_encode_noCodes hidle hvalid,
    fun _ hidle hvalid => exec_decode_noTree hidle hvalid⟩

/-! ## What the stream steps leave alone -/

/-- The state `s` with the report, the counters, the engine state and the working state of `t`: what both stream commands write. -/
def withStreamWork (s t : State) : State :=
  { s with
    done := t.done, err := t.err, errInfo := t.errInfo, bitCount := t.bitCount, symCount := t.symCount, fsm := t.fsm, sub := t.sub,
    pq := t.pq, stack := t.stack }

/-- ENCODE writes its own registers and moves its own ports, and nothing else (R260). -/
theorem encodeStep_frame (s : State) : encodeStep s =
    { withStreamWork s (encodeStep s) with
      encSym := (encodeStep s).encSym, encK := (encodeStep s).encK, symIn := (encodeStep s).symIn,
      bitOut := (encodeStep s).bitOut } := by
  rcases encodeStep_cases s with ⟨-, he⟩ | ⟨-, he⟩ | ⟨-, he⟩ | he <;> rw [he]
  · rcases encWaitSymStep_cases s with ⟨-, he⟩ | ⟨b, r, -, ⟨-, he⟩ | ⟨-, -, he⟩ | ⟨-, -, he⟩⟩ | ⟨r, -, he⟩ <;> rw [he] <;> rfl
  · rcases encShiftStep_cases s with ⟨-, he⟩ | ⟨-, -, he⟩ | ⟨-, -, he⟩ <;> rw [he] <;> rfl
  · rcases encShiftEosStep_cases s with ⟨-, he⟩ | ⟨-, -, he⟩ | ⟨-, -, -, he⟩ | ⟨-, -, -, he⟩ <;> rw [he] <;> rfl
  · rfl

theorem arrive_frame (nxt : Slot) (s : State) : arrive nxt s =
    { withStreamWork s (arrive nxt s) with decCur := (arrive nxt s).decCur, decOut := (arrive nxt s).decOut } := by
  rcases arrive_cases nxt s with ⟨-, -, he⟩ | ⟨-, -, he⟩ | ⟨-, he⟩ <;> rw [he] <;> rfl

/-- DECODE writes its own registers and moves its own ports, and nothing else (R280). -/
theorem decodeStep_frame (s : State) : decodeStep s =
    { withStreamWork s (decodeStep s) with
      decCur := (decodeStep s).decCur, decOut := (decodeStep s).decOut, bitIn := (decodeStep s).bitIn,
      symOut := (decodeStep s).symOut } := by
  rcases decodeStep_cases s with ⟨-, he⟩ | ⟨-, he⟩ | he <;> rw [he]
  · rcases decWaitBitStep_cases s with ⟨-, he⟩ | ⟨r, -, he⟩ | ⟨x, r, -, ⟨-, he⟩ | ⟨-, -, he⟩ | ⟨-, n, -, he⟩⟩ <;> rw [he]
    · rfl
    · rfl
    · rfl
    · rfl
    · rw [arrive_frame]
      rfl
  · rcases decEmitStep_cases s with ⟨-, he⟩ | ⟨-, -, he⟩ | ⟨-, -, he⟩ <;> rw [he] <;> rfl
  · rfl

/-- Settles O34: read off the frames of ENCODE's and DECODE's steps. -/
theorem streamStepsLeaveTheTables : Obligations.StreamStepsLeaveTheTables := by
  rintro s (hencode | hdecode)
  · rw [engineStep_encode hencode, encodeStep_frame]
    exact ⟨rfl, rfl, rfl, rfl, rfl, rfl, rfl, rfl, rfl, rfl, rfl, rfl, rfl, fun _ => ⟨rfl, rfl, rfl, rfl⟩,
      fun hdecode => absurd (hencode.symm.trans hdecode) (by decide)⟩
  · rw [engineStep_decode hdecode, decodeStep_frame]
    exact ⟨rfl, rfl, rfl, rfl, rfl, rfl, rfl, rfl, rfl, rfl, rfl, rfl, rfl,
      fun hencode => absurd (hdecode.symm.trans hencode) (by decide), fun _ => ⟨rfl, rfl, rfl, rfl⟩⟩

end Sys2Proof.Machine
end

section
/-! PROOF. ENCODE step by step: an item is taken, a code is sent bit by bit, and each step keeps the bits sent followed by the bits
owed (R254 to R258, R135). -/

namespace Sys2Proof.Machine

/-! ## Taking an item -/

theorem engineStep_encWaitSym {s : State} (hf : s.fsm = Config.fsmEncode) (hs : s.sub = Config.encWaitSym) :
    engineStep s = encWaitSymStep s := (engineStep_encode hf).trans (if_pos hs)

theorem encWaitSymStep_nothing {s : State} (hq : s.symIn = []) : encWaitSymStep s = s := by simp [encWaitSymStep, hq]

theorem encWaitSymStep_byte {s : State} {b : Byte} {rest : List SymItem} (hq : s.symIn = .byte b :: rest) :
    encWaitSymStep s = encodeByte b { s with symIn := rest } := by simp [encWaitSymStep, hq]

theorem encWaitSymStep_end {s : State} {rest : List SymItem} (hq : s.symIn = .endOfSource :: rest) :
    encWaitSymStep s = encodeEnd { s with symIn := rest } := by simp [encWaitSymStep, hq]

theorem encodeByte_noCode {s : State} {b : Byte} (hlen : (codeGet s.code b.toNat).len = 0) :
    encodeByte b s = raise .noCode (b.setWidth 32) s := by rw [encodeByte, codeAt_byte, if_pos hlen]

theorem encodeByte_full {s : State} {b : Byte} (hlen : (codeGet s.code b.toNat).len ≠ 0) (hfull : s.symCount.toNat = 2 ^ 64 - 1) :
    encodeByte b s = raise .countOverflow 1 s := by
  rw [encodeByte, codeAt_byte, if_neg hlen, if_pos ((counter_full_iff _).2 hfull)]

theorem encodeByte_counted {s : State} {b : Byte} (hlen : (codeGet s.code b.toNat).len ≠ 0)
    (hroom : s.symCount.toNat ≠ 2 ^ 64 - 1) : encodeByte b s = { s with
      symCount := s.symCount + 1#64, encSym := b.setWidth 9, encK := 0, sub := Config.encShift } := by
  rw [encodeByte, codeAt_byte, if_neg hlen, if_neg fun hfull => hroom ((counter_full_iff _).1 hfull)]

/-- Settles O27: the item's kind chooses the case, then the byte's code and the counter. -/
theorem encoderTakesAnItem : Obligations.EncoderTakesAnItem := by
  intro s hf hs
  rw [engineStep_encWaitSym hf hs]
  refine ⟨encWaitSymStep_nothing, fun b rest hq hlen => ?_, fun b rest hq hlen hfull => ?_, fun b rest hq hlen hroom => ?_,
    fun rest hq => encWaitSymStep_end hq⟩ <;> rw [encWaitSymStep_byte hq]
  · exact encodeByte_noCode hlen
  · exact encodeByte_full hlen hfull
  · exact encodeByte_counted hlen hroom

/-! ## Sending a code -/

/-- What follows the last bit of a code: the completion after the EOS code, the next item after any other (R256, R258). -/
def endOfCode (s : State) : State := if s.sub = Config.encShiftEos then finish s else { s with sub := Config.encWaitSym }

theorem endOfCode_symbol {s : State} (hs : s.sub = Config.encShift) : endOfCode s = { s with sub := Config.encWaitSym } :=
  if_neg (by rw [hs]; decide)

theorem endOfCode_eos {s : State} (hs : s.sub = Config.encShiftEos) : endOfCode s = finish s := if_pos hs

theorem bitOutValid_of_encShift {s : State} (hf : s.fsm = Config.fsmEncode) (hs : s.sub = Config.encShift) :
    s.bitOutValid = true := decide_eq_true ⟨hf, .inl hs⟩

theorem bitOutValid_of_encShiftEos {s : State} (hf : s.fsm = Config.fsmEncode) (hs : s.sub = Config.encShiftEos) :
    s.bitOutValid = true := decide_eq_true ⟨hf, .inr hs⟩

theorem sendSym_of_encShift {s : State} (hs : s.sub = Config.encShift) : s.sendSym = s.encSym := if_neg (by rw [hs]; decide)

theorem sendSym_of_encShiftEos {s : State} (hs : s.sub = Config.encShiftEos) : s.sendSym = Config.eos := if_pos hs

/-- ENC_SHIFT and ENC_SHIFT_EOS are one step, of the code of `sendSym` (R256, R258). -/
theorem engineStep_bitOutValid {s : State} (hvalid : s.bitOutValid = true) :
    engineStep s =
      if s.bitOutReady = false then s
      else if s.bitCount = Config.counterMax then raise .countOverflow 0 s
      else if s.encK + 1#9 = (s.codeAt s.sendSym).len then endOfCode (shiftBit s.sendSym s)
      else shiftBit s.sendSym s := by
  obtain ⟨hf, hs | hs⟩ := of_decide_eq_true hvalid
  · rw [engineStep_encode hf, sendSym_of_encShift hs, endOfCode_symbol (s := shiftBit s.encSym s) hs, encodeStep,
      if_neg (by rw [hs]; decide), if_pos hs]
    rfl
  · rw [engineStep_encode hf, sendSym_of_encShiftEos hs, endOfCode_eos (s := shiftBit Config.eos s) hs, encodeStep,
      if_neg (by rw [hs]; decide), if_neg (by rw [hs]; decide), if_pos hs]
    rfl

section BitOut

variable {s : State} (hvalid : s.bitOutValid = true)
include hvalid

theorem engineStep_sinkBusy (hready : s.bitOutReady = false) : engineStep s = s := by
  rw [engineStep_bitOutValid hvalid, if_pos hready]

theorem engineStep_bitCountFull (hready : s.bitOutReady = true) (hfull : s.bitCount.toNat = 2 ^ 64 - 1) :
    engineStep s = raise .countOverflow 0 s := by
  rw [engineStep_bitOutValid hvalid, if_neg (by simp [hready]), if_pos ((counter_full_iff _).2 hfull)]

theorem engineStep_sendsBit (hready : s.bitOutReady = true) (hroom : s.bitCount.toNat ≠ 2 ^ 64 - 1) :
    engineStep s = if s.encK + 1#9 = (s.codeAt s.sendSym).len then endOfCode (shiftBit s.sendSym s) else shiftBit s.sendSym s := by
  rw [engineStep_bitOutValid hvalid, if_neg (by simp [hready]), if_neg fun hfull => hroom ((counter_full_iff _).1 hfull)]

end BitOut

/-- Settles O28: the step of `engineStep_bitOutValid` in ENC_SHIFT. -/
theorem encoderShiftsABit : Obligations.EncoderShiftsABit := by
  intro s hf hs
  have hvalid := bitOutValid_of_encShift hf hs
  refine ⟨engineStep_sinkBusy hvalid, engineStep_bitCountFull hvalid, fun hready hroom => ?_⟩
  rw [engineStep_sendsBit hvalid hready hroom, sendSym_of_encShift hs, endOfCode_symbol (s := shiftBit s.encSym s) hs]
  by_cases hlast : s.encK + 1 = (codeGet s.code s.encSym.toNat).len
  · rw [if_pos hlast]
    exact if_pos hlast
  · rw [if_neg hlast]
    exact if_neg hlast

/-- Settles O29: the step of `engineStep_bitOutValid` in ENC_SHIFT_EOS, with the last bit apart. -/
theorem encoderShiftsTheEosCode : Obligations.EncoderShiftsTheEosCode := by
  intro s hf hs
  have hvalid := bitOutValid_of_encShiftEos hf hs
  refine ⟨engineStep_sinkBusy hvalid, engineStep_bitCountFull hvalid, fun hready hroom hmore => ?_, fun hready hroom hlast => ?_⟩ <;>
    rw [engineStep_sendsBit hvalid hready hroom, sendSym_of_encShiftEos hs, endOfCode_eos (s := shiftBit Config.eos s) hs]
  · exact if_neg hmore
  · exact if_pos hlast

/-! ## The bits owed -/

theorem encK_succ {k len : CodeLen} (h : k.toNat < len.toNat) : (k + 1#9).toNat = k.toNat + 1 := by
  have := len.isLt
  bv_omega

theorem bits_drop (e : CodeEntry) {k : CodeLen} (h : k.toNat < e.len.toNat) :
    e.bits.drop k.toNat = e.bit k.toNat :: e.bits.drop (k + 1#9).toNat := by
  rw [encK_succ h, List.drop_eq_getElem_cons (by rwa [bits_length])]
  simp [CodeEntry.bits]

theorem bits_drop_len (e : CodeEntry) : e.bits.drop e.len.toNat = [] := List.drop_eq_nil_of_le (bits_length e).le

theorem owedBits_of_idle {s : State} (hf : s.fsm = Config.fsmIdle) : s.owedBits = [] := if_pos (by rw [hf]; decide)

theorem owedBits_of_encWaitSym {s : State} (hf : s.fsm = Config.fsmEncode) (hs : s.sub = Config.encWaitSym) :
    s.owedBits = owedFor s.code s.symIn := by
  rw [State.owedBits, if_neg (not_not.2 hf), if_neg (by rw [hs]; decide), if_neg (by rw [hs]; decide)]

theorem owedBits_of_encShift {s : State} (hf : s.fsm = Config.fsmEncode) (hs : s.sub = Config.encShift) :
    s.owedBits = (s.codeAt s.encSym).bits.drop s.encK.toNat ++ owedFor s.code s.symIn := by
  rw [State.owedBits, if_neg (not_not.2 hf), if_pos hs]
  rfl

theorem owedBits_of_encShiftEos {s : State} (hf : s.fsm = Config.fsmEncode) (hs : s.sub = Config.encShiftEos) :
    s.owedBits = (s.codeAt Config.eos).bits.drop s.encK.toNat := by
  rw [State.owedBits, if_neg (not_not.2 hf), if_neg (by rw [hs]; decide), if_pos hs]
  rfl

/-- While a code is sent, the rest of it is owed, and then what is owed after it. -/
theorem owedBits_of_bitOutValid {s : State} (hvalid : s.bitOutValid = true) :
    s.owedBits = (s.codeAt s.sendSym).bits.drop s.encK.toNat ++ (endOfCode s).owedBits := by
  obtain ⟨hf, hs | hs⟩ := of_decide_eq_true hvalid
  · rw [owedBits_of_encShift hf hs, sendSym_of_encShift hs, endOfCode_symbol hs]
    exact congrArg _ (owedBits_of_encWaitSym (s := { s with sub := Config.encWaitSym }) hf rfl).symm
  · rw [owedBits_of_encShiftEos hf hs, sendSym_of_encShiftEos hs, endOfCode_eos hs, owedBits_of_idle rfl, List.append_nil]

theorem owedBits_endOfCode_shiftBit (sym : Sym) (s : State) : (endOfCode (shiftBit sym s)).owedBits = (endOfCode s).owedBits := by
  have hsub : (shiftBit sym s).sub = s.sub := rfl
  simp only [endOfCode, hsub]
  split <;> rfl

/-- In every reachable state that offers a bit, there is a bit of the code left to send (R256, R258). -/
theorem MachineInv.encK_lt {s : State} (h : MachineInv s) (hvalid : s.bitOutValid = true) :
    s.encK.toNat < (s.codeAt s.sendSym).len.toNat := by
  obtain ⟨hf, hs | hs⟩ := of_decide_eq_true hvalid
  · rw [sendSym_of_encShift hs]
    exact ((h.encoder hf).1 hs).2
  · rw [sendSym_of_encShiftEos hs]
    exact ((h.encoder hf).2 hs).2

/-- A bit sent is the next one owed, the last bit of a code too. -/
theorem engineStep_sendsBit_owed {s : State} (hvalid : s.bitOutValid = true) (hk : s.encK.toNat < (s.codeAt s.sendSym).len.toNat)
    (hready : s.bitOutReady = true) (hroom : s.bitCount.toNat ≠ 2 ^ 64 - 1) :
    (engineStep s).bitOut ++ (engineStep s).owedBits = s.bitOut ++ s.owedBits := by
  rw [engineStep_sendsBit hvalid hready hroom, owedBits_of_bitOutValid hvalid, bits_drop _ hk]
  split
  next hlast =>
    have hout : (endOfCode (shiftBit s.sendSym s)).bitOut = s.bitOut ++ [(s.codeAt s.sendSym).bit s.encK.toNat] := by
      unfold endOfCode
      split <;> rfl
    rw [hout, hlast, bits_drop_len, owedBits_endOfCode_shiftBit, List.append_assoc]
  next =>
    rw [owedBits_of_bitOutValid (s := shiftBit s.sendSym s) hvalid, owedBits_endOfCode_shiftBit]
    exact List.append_assoc _ _ _

/-- A raised error ends ENCODE with a report that is not 0 (R330, R333). -/
theorem raise_endsWithError (e : ErrCode) (info : Word) (s : State) :
    ¬((raise e info s).fsm = Config.fsmEncode ∨ (raise e info s).err = 0) :=
  not_or.2 ⟨(by decide : Config.fsmIdle ≠ Config.fsmEncode), (by cases e <;> decide : e.code ≠ 0)⟩

/-- An item taken is owed as the code that its step selects (R254, R257). -/
theorem encWaitSymStep_owed {s : State} (hf : s.fsm = Config.fsmEncode) (hs : s.sub = Config.encWaitSym)
    (hok : (encWaitSymStep s).fsm = Config.fsmEncode ∨ (encWaitSymStep s).err = 0) :
    (encWaitSymStep s).bitOut ++ (encWaitSymStep s).owedBits = s.bitOut ++ s.owedBits := by
  rcases encWaitSymStep_cases s with ⟨-, he⟩ | ⟨b, rest, hq, ⟨-, he⟩ | ⟨-, -, he⟩ | ⟨-, -, he⟩⟩ | ⟨rest, hq, he⟩ <;> rw [he] at hok ⊢
  · exact absurd hok (raise_endsWithError .noCode _ _)
  · exact absurd hok (raise_endsWithError .countOverflow _ _)
  · rw [owedBits_of_encWaitSym hf hs, hq, owedFor, ← codeAt_byte]
    exact congrArg _ (owedBits_of_encShift hf rfl)
  · rw [owedBits_of_encWaitSym hf hs, hq, owedFor]
    exact congrArg _ (owedBits_of_encShiftEos hf rfl)

/-- Settles O52: an item taken becomes the code owed, and a bit sent is the next one owed. -/
theorem encoderSendsWhatItOwes : Obligations.EncoderSendsWhatItOwes := by
  intro s hinv hf hok
  have hbit (hvalid : s.bitOutValid = true) : (engineStep s).bitOut ++ (engineStep s).owedBits = s.bitOut ++ s.owedBits := by
    cases hready : s.bitOutReady with
    | false => rw [engineStep_sinkBusy hvalid hready]
    | true =>
      by_cases hfull : s.bitCount.toNat = 2 ^ 64 - 1
      · rw [engineStep_bitCountFull hvalid hready hfull] at hok
        exact absurd hok (raise_endsWithError .countOverflow _ _)
      · exact engineStep_sendsBit_owed hvalid (hinv.encK_lt hvalid) hready hfull
  rcases (legalEngine_encode hf).1 hinv.control.legal with hs | hs | hs
  · rw [engineStep_encWaitSym hf hs] at hok ⊢
    exact encWaitSymStep_owed hf hs hok
  · exact hbit (bitOutValid_of_encShift hf hs)
  · exact hbit (bitOutValid_of_encShiftEos hf hs)

end Sys2Proof.Machine
end

section
/-! PROOF. A whole run of ENCODE: code after code, the payload of the bytes offered goes to a sink that accepts (R259, R135, R260). -/

namespace Sys2Proof.Machine

/-! ## One code -/

/-- The state after some bits have moved to the bit sink, each of them counted (R72, R253). -/
def sendBits (bits : List Bool) (s : State) : State :=
  { s with bitOut := s.bitOut ++ bits, bitCount := s.bitCount + BitVec.ofNat 64 bits.length }

theorem sendBits_sendBits (p q : List Bool) (s : State) : sendBits q (sendBits p s) = sendBits (p ++ q) s := by
  simp [sendBits, BitVec.ofNat_add, BitVec.add_assoc]

theorem shiftBit_eq (sym : Sym) (s : State) :
    shiftBit sym s = sendBits [(s.codeAt sym).bit s.encK.toNat] { s with encK := s.encK + 1#9 } := rfl

/-- Engine steps send the rest of a code to a sink that accepts, with room in the counter (R256, R258). -/
theorem engineSteps_restOfCode {s : State} (n : Nat) (hvalid : s.bitOutValid = true) (hready : s.bitOutReady = true)
    (hk : s.encK.toNat + (n + 1) = (s.codeAt s.sendSym).len.toNat) (hroom : s.bitCount.toNat + (n + 1) < 2 ^ 64) :
    engineSteps (n + 1) s = endOfCode
      (sendBits ((s.codeAt s.sendSym).bits.drop s.encK.toNat) { s with encK := (s.codeAt s.sendSym).len }) := by
  induction n generalizing s with
  | zero =>
    have hlt : s.encK.toNat < (s.codeAt s.sendSym).len.toNat := by omega
    have hlast : s.encK + 1#9 = (s.codeAt s.sendSym).len := BitVec.eq_of_toNat_eq ((encK_succ hlt).trans hk)
    rw [engineSteps, engineSteps, engineStep_sendsBit hvalid hready (by omega), if_pos hlast, bits_drop _ hlt, shiftBit_eq, hlast,
      bits_drop_len]
  | succ n ih =>
    have hlt : s.encK.toNat < (s.codeAt s.sendSym).len.toNat := by omega
    have hnext := encK_succ hlt
    have hcount : (s.bitCount + 1#64).toNat = s.bitCount.toNat + 1 :=
      counter_succ fun hfull => by have := (counter_full_iff _).1 hfull; omega
    have hmore : s.encK + 1#9 ≠ (s.codeAt s.sendSym).len := fun hlast => by rw [hlast] at hnext; omega
    rw [engineSteps, engineStep_sendsBit hvalid hready (by omega), if_neg hmore, bits_drop _ hlt]
    refine (ih (s := shiftBit s.sendSym s) hvalid hready ?rest ?room).trans ?joined
    case rest => exact (congrArg (· + (n + 1)) hnext).trans ((Nat.add_right_comm ..).trans hk)
    case room => exact lt_of_eq_of_lt (congrArg (· + (n + 1)) hcount) (by omega)
    case joined => exact congrArg endOfCode (sendBits_sendBits [_] _ { s with encK := (s.codeAt s.sendSym).len })

/-- Engine steps send the whole of a code. -/
theorem engineSteps_code {s : State} {e : CodeEntry} (he : s.codeAt s.sendSym = e) (hvalid : s.bitOutValid = true)
    (hready : s.bitOutReady = true) (hk : s.encK = 0) (hlen : e.len ≠ 0) (hroom : s.bitCount.toNat + e.len.toNat < 2 ^ 64) :
    engineSteps e.len.toNat s = endOfCode (sendBits e.bits { s with encK := e.len }) := by
  subst he
  have hk0 : s.encK.toNat = 0 := by rw [hk]; rfl
  obtain ⟨n, hn⟩ := Nat.exists_eq_add_one_of_ne_zero fun h0 => hlen (BitVec.eq_of_toNat_eq h0)
  have hrun := engineSteps_restOfCode n hvalid hready (by omega) (by omega)
  rwa [hk0, List.drop_zero, ← hn] at hrun

/-! ## One item -/

/-- A running ENCODE that waits with bytes and `End` offered, codes for them, a sink that accepts, and room in both counters. -/
structure EncodeReady (s : State) (bytes : List Byte) (rest : List SymItem) : Prop where
  fsm : s.fsm = Config.fsmEncode
  sub : s.sub = Config.encWaitSym
  sink : s.bitOutReady = true
  items : s.symIn = byteStream bytes ++ rest
  codes : ∀ b ∈ bytes, (codeGet s.code b.toNat).len ≠ 0
  eosCode : (codeGet s.code 256).len ≠ 0
  symRoom : s.symCount.toNat + bytes.length < 2 ^ 64
  bitRoom : s.bitCount.toNat + (payload s.code bytes).length < 2 ^ 64

theorem payload_nil (code : Vector CodeEntry 257) : payload code [] = (codeGet code 256).bits := rfl

theorem payload_cons (code : Vector CodeEntry 257) (b : Byte) (bytes : List Byte) :
    payload code (b :: bytes) = (codeGet code b.toNat).bits ++ payload code bytes := by simp [payload]

theorem payload_cons_length (code : Vector CodeEntry 257) (b : Byte) (bytes : List Byte) :
    (payload code (b :: bytes)).length = (codeGet code b.toNat).len.toNat + (payload code bytes).length := by
  rw [payload_cons, List.length_append, bits_length]

theorem counter_add {c : Counter} {n : Nat} (h : c.toNat + n < 2 ^ 64) : (c + BitVec.ofNat 64 n).toNat = c.toNat + n := by
  rw [BitVec.toNat_add, BitVec.toNat_ofNat]
  omega

/-- The state that awaits the next item when a byte has been taken, counted and its code sent (R254 to R256). -/
def afterByte (b : Byte) (items : List SymItem) (s : State) : State :=
  sendBits (codeGet s.code b.toNat).bits { s with
    symIn := items, symCount := s.symCount + 1#64, encSym := b.setWidth 9, encK := (codeGet s.code b.toNat).len,
    sub := Config.encWaitSym }

/-- The completion when `End` has been taken and the EOS code sent (R257, R258). -/
def afterEnd (items : List SymItem) (s : State) : State :=
  finish (sendBits (codeGet s.code 256).bits { s with symIn := items, encSym := Config.eos, encK := (codeGet s.code 256).len })

section Item

variable {s : State} {b : Byte} {bytes : List Byte} {rest : List SymItem}

/-- The room that a byte needs, and that the bytes after it need. -/
theorem EncodeReady.room (h : EncodeReady s (b :: bytes) rest) :
    s.symCount.toNat + 1 + bytes.length < 2 ^ 64 ∧
      s.bitCount.toNat + (codeGet s.code b.toNat).len.toNat + (payload s.code bytes).length < 2 ^ 64 := by
  have hbits := h.bitRoom
  have hsyms := h.symRoom
  rw [payload_cons_length] at hbits
  rw [List.length_cons] at hsyms
  omega

theorem EncodeReady.engineSteps_byte (h : EncodeReady s (b :: bytes) rest) :
    engineSteps ((codeGet s.code b.toNat).len.toNat + 1) s = afterByte b (byteStream bytes ++ rest) s := by
  obtain ⟨hsyms, hbits⟩ := h.room
  have hcode := h.codes b List.mem_cons_self
  rw [engineSteps, engineStep_encWaitSym h.fsm h.sub, encWaitSymStep_byte (rest := byteStream bytes ++ rest) h.items,
    encodeByte_counted (s := { s with symIn := byteStream bytes ++ rest }) hcode (by dsimp only; omega)]
  exact Eq.trans (engineSteps_code ((congrArg _ (sendSym_of_encShift rfl)).trans (codeAt_byte _ b))
    (bitOutValid_of_encShift h.fsm rfl) h.sink rfl hcode (by dsimp only; omega)) (endOfCode_symbol rfl)

theorem EncodeReady.engineSteps_end (h : EncodeReady s [] rest) :
    engineSteps ((codeGet s.code 256).len.toNat + 1) s = afterEnd rest s := by
  have hbits := h.bitRoom
  rw [payload_nil, bits_length] at hbits
  rw [engineSteps, engineStep_encWaitSym h.fsm h.sub, encWaitSymStep_end h.items]
  exact Eq.trans (engineSteps_code (congrArg _ (sendSym_of_encShiftEos rfl)) (bitOutValid_of_encShiftEos h.fsm rfl) h.sink
    rfl h.eosCode hbits) (endOfCode_eos rfl)

theorem EncodeReady.next (h : EncodeReady s (b :: bytes) rest) :
    EncodeReady (afterByte b (byteStream bytes ++ rest) s) bytes rest := by
  obtain ⟨hsyms, hbits⟩ := h.room
  refine ⟨h.fsm, rfl, h.sink, rfl, fun c hc => h.codes c (List.mem_cons_of_mem b hc), h.eosCode, ?symRoom, ?bitRoom⟩
  case symRoom => exact lt_of_eq_of_lt (congrArg (· + _) (counter_add (n := 1) (by omega))) hsyms
  case bitRoom =>
    have hsent := counter_add (c := s.bitCount) (n := (codeGet s.code b.toNat).bits.length) (by rw [bits_length]; omega)
    exact lt_of_eq_of_lt (congrArg (· + _) (hsent.trans (by rw [bits_length]))) hbits

end Item

/-! ## The stream -/

/-- The completion of ENCODE over a stream: its payload sent and counted, its bytes counted, and its items taken (R259). -/
def afterStream (bytes : List Byte) (items : List SymItem) (s : State) : State :=
  finish (sendBits (payload s.code bytes) { s with
    symIn := items, symCount := s.symCount + BitVec.ofNat 64 bytes.length, encSym := Config.eos,
    encK := (codeGet s.code 256).len })

theorem afterStream_nil (items : List SymItem) (s : State) : afterStream [] items s = afterEnd items s := by
  simp [afterStream, afterEnd, payload_nil]

theorem afterStream_afterByte (b : Byte) (bytes : List Byte) (items rest : List SymItem) (s : State) :
    afterStream bytes rest (afterByte b items s) = afterStream (b :: bytes) rest s := by
  have hcount : s.symCount + BitVec.ofNat 64 (b :: bytes).length = s.symCount + 1#64 + BitVec.ofNat 64 bytes.length := by
    rw [List.length_cons, Nat.add_comm, BitVec.ofNat_add, BitVec.add_assoc]
  rw [afterStream, afterStream, payload_cons, ← sendBits_sendBits, hcount]
  rfl

/-- A step for each item and one for each bit lead to the completion. -/
theorem EncodeReady.engineSteps_stream {s : State} {bytes : List Byte} {rest : List SymItem} (h : EncodeReady s bytes rest) :
    engineSteps (bytes.length + 1 + (payload s.code bytes).length) s = afterStream bytes rest s := by
  induction bytes generalizing s with
  | nil =>
    rw [afterStream_nil, ← h.engineSteps_end, payload_nil, bits_length, List.length_nil, Nat.zero_add, Nat.add_comm]
  | cons b bytes ih =>
    have hsteps : (b :: bytes).length + 1 + (payload s.code (b :: bytes)).length =
        ((codeGet s.code b.toNat).len.toNat + 1) + (bytes.length + 1 + (payload s.code bytes).length) := by
      rw [payload_cons_length, List.length_cons]
      omega
    rw [hsteps, engineSteps_add, h.engineSteps_byte, ← afterStream_afterByte]
    exact ih h.next

theorem length_le_payload {code : Vector CodeEntry 257} {bytes : List Byte} (h : ∀ b ∈ bytes, (codeGet code b.toNat).len ≠ 0) :
    bytes.length ≤ (payload code bytes).length := by
  induction bytes with
  | nil => exact Nat.zero_le _
  | cons b bytes ih =>
    have hrest := ih fun c hc => h c (List.mem_cons_of_mem b hc)
    have hpos : (codeGet code b.toNat).len.toNat ≠ 0 := fun h0 => h b List.mem_cons_self (BitVec.eq_of_toNat_eq h0)
    rw [payload_cons_length, List.length_cons]
    omega

/-- While the codes are valid every symbol present has one (R235). -/
theorem MachineInv.code_ne_zero {s : State} (h : MachineInv s) (hcodes : s.codesValid = true) {sym : Nat} (hlt : sym < 257)
    (hp : present s.freq sym = true) : (codeGet s.code sym).len ≠ 0 := by
  have hpos := ((h.codes hcodes).one_le_len_iff hlt).2 hp
  exact fun h0 => by rw [h0] at hpos; exact absurd hpos (by decide)

/-- The accept of ENCODE makes it ready for a stream whose bytes have codes and whose payload the counter can count (R252). -/
theorem encodeReady_of_accept {s : State} {bytes : List Byte} {rest : List SymItem} (h : MachineInv s)
    (hcodes : s.codesValid = true) (hready : s.bitOutReady = true) (hitems : s.symIn = byteStream bytes ++ rest)
    (hpresent : ∀ b ∈ bytes, present s.freq b.toNat = true) (hroom : (payload s.code bytes).length < 2 ^ 64) :
    EncodeReady (goto Config.fsmEncode Config.encWaitSym (clearCounters (beginAccept s))) bytes rest := by
  have hbyte : ∀ b ∈ bytes, (codeGet s.code b.toNat).len ≠ 0 := fun b hb =>
    h.code_ne_zero hcodes (by have := b.isLt; omega) (hpresent b hb)
  have heos := h.code_ne_zero hcodes (by decide) (h.tree (h.control.codesNeedTree hcodes)).eosPresent
  have hlen := length_le_payload hbyte
  refine ⟨rfl, rfl, hready, hitems, hbyte, heos, ?symRoom, ?bitRoom⟩
  case symRoom => exact (Nat.zero_add _).trans_lt (by omega)
  case bitRoom => exact (Nat.zero_add _).trans_lt hroom

/-- The completion of the stream of a state that was idle: nothing but the stream, the counters, the report and the encoder's own
registers differs from it (R260). -/
theorem afterStream_accept {s : State} (h : ControlInv s) (hidle : s.fsm = Config.fsmIdle) (bytes : List Byte)
    (rest : List SymItem) :
    afterStream bytes rest (goto Config.fsmEncode Config.encWaitSym (clearCounters (beginAccept s))) = { s with
      symIn := rest, bitOut := s.bitOut ++ payload s.code bytes, bitCount := BitVec.ofNat 64 (payload s.code bytes).length,
      symCount := BitVec.ofNat 64 bytes.length, encSym := Config.eos, encK := (codeGet s.code 256).len, done := true, err := 0,
      errInfo := 0 } := by
  have hsub : s.sub = 0 := by simpa [State.legalEngine, hidle] using h.legal
  rw [hidle, hsub, h.pqEmpty, h.stackEmpty, ← BitVec.zero_add (BitVec.ofNat 64 bytes.length),
    ← BitVec.zero_add (BitVec.ofNat 64 (payload s.code bytes).length)]
  rfl

/-- Settles O53: the accept makes ENCODE ready for the stream, and the run of engine turns is `engineSteps_stream`. -/
theorem encodeSendsThePayload : Obligations.EncodeSendsThePayload := by
  intro s bytes rest ts hinv hidle hrst hcodes hready hitems hpresent hroom
  have hrun := (encodeReady_of_accept hinv hcodes hready hitems hpresent hroom).engineSteps_stream
  rw [afterStream_accept hinv.control hidle, goto_code, clearCounters_code, beginAccept_code] at hrun
  have hreach := run_engineTurns (bytes.length + 1 + (payload s.code bytes).length)
    (goto Config.fsmEncode Config.encWaitSym (clearCounters (beginAccept s))) ts hrst
  rw [hrun] at hreach
  exact ⟨_, _, exec_encode_of_codes hidle hcodes, hreach, rfl⟩

end Sys2Proof.Machine
end

section
/-! PROOF. DECODE step by step: a bit moves the pointer, and a byte is sent (R284 to R291). -/

namespace Sys2Proof.Machine

/-! ## The move of a bit -/

section Move

variable {node : Vector Node 513} {cur : Slot}

/-- The leaf test of every rule (R55), as the statements write it. -/
theorem isLeaf_eq_true_iff (n : Node) : n.isLeaf = true ↔ n.sym ≠ 0x1FF := decide_eq_true_iff

theorem isLeaf_eq_false_iff (n : Node) : n.isLeaf = false ↔ n.sym = 0x1FF := decide_eq_false_iff_not.trans not_not

theorem nextSlot_leaf (hleaf : (arenaGet node cur.toNat).isLeaf = true) (x : Bool) :
    nextSlot node cur x = if x then none else some cur := if_pos hleaf

theorem nextSlot_noChild (hleaf : (arenaGet node cur.toNat).isLeaf = false) {x : Bool}
    (hnil : (arenaGet node cur.toNat).child x = Config.nil) : nextSlot node cur x = none :=
  (if_neg (ne_true_of_eq_false hleaf)).trans (if_pos hnil)

theorem nextSlot_child (hleaf : (arenaGet node cur.toNat).isLeaf = false) {x : Bool}
    (hchild : (arenaGet node cur.toNat).child x ≠ Config.nil) :
    nextSlot node cur x = some ((arenaGet node cur.toNat).child x) :=
  (if_neg (ne_true_of_eq_false hleaf)).trans (if_neg hchild)

theorem desyncInfo_eq (cur : Slot) (x : Bool) :
    desyncInfo cur x = cur.setWidth 32 ||| ((if x then 1 else 0 : Word) <<< 16) := by cases x <;> rfl

end Move

/-! ## The arrival -/

section Arrive

variable {nxt : Slot} {s : State}

theorem arrive_eos (heos : (arenaGet s.node nxt.toNat).sym = 256) : arrive nxt s = finish { s with decCur := nxt } := by
  have hleaf : (s.nodeAt nxt).isLeaf = true := (isLeaf_eq_true_iff _).2 (heos.trans_ne (by decide))
  exact (if_pos hleaf).trans (if_pos heos)

theorem arrive_byte (hleaf : (arenaGet s.node nxt.toNat).sym ≠ 0x1FF) (heos : (arenaGet s.node nxt.toNat).sym ≠ 256) :
    arrive nxt s = { s with
      decCur := nxt, decOut := (arenaGet s.node nxt.toNat).sym.setWidth 8, sub := Config.decEmit } :=
  (if_pos ((isLeaf_eq_true_iff _).2 hleaf)).trans (if_neg heos)

theorem arrive_internal (hnas : (arenaGet s.node nxt.toNat).sym = 0x1FF) : arrive nxt s = { s with decCur := nxt } :=
  if_neg (ne_true_of_eq_false ((isLeaf_eq_false_iff _).2 hnas))

end Arrive

/-! ## Taking an item -/

/-- The state after `k` bits have been taken from BIT_IN, each of them counted; `items` are still offered (R72, R283). -/
def takeBits (k : Nat) (items : List BitItem) (s : State) : State :=
  { s with bitIn := items, bitCount := s.bitCount + BitVec.ofNat 64 k }

section TakeItem

variable {s : State}

theorem engineStep_decWaitBit (hf : s.fsm = Config.fsmDecode) (hs : s.sub = Config.decWaitBit) :
    engineStep s = decWaitBitStep s := (engineStep_decode hf).trans (if_pos hs)

theorem decWaitBitStep_nothing (hq : s.bitIn = []) : decWaitBitStep s = s := by simp [decWaitBitStep, hq]

theorem decWaitBitStep_eof {rest : List BitItem} (hq : s.bitIn = .eof :: rest) :
    decWaitBitStep s = raise .truncated (s.decCur.setWidth 32) { s with bitIn := rest } := by simp [decWaitBitStep, hq]

theorem decWaitBitStep_bit {x : Bool} {rest : List BitItem} (hq : s.bitIn = .bit x :: rest) :
    decWaitBitStep s = decodeBit x { s with bitIn := rest } := by simp [decWaitBitStep, hq]

theorem decWaitBitStep_full {x : Bool} {rest : List BitItem} (hq : s.bitIn = .bit x :: rest)
    (hfull : s.bitCount.toNat = 2 ^ 64 - 1) : decWaitBitStep s = raise .countOverflow 0 { s with bitIn := rest } :=
  (decWaitBitStep_bit hq).trans (if_pos ((counter_full_iff _).2 hfull))

theorem decWaitBitStep_desync {x : Bool} {rest : List BitItem} (hq : s.bitIn = .bit x :: rest)
    (hroom : s.bitCount.toNat ≠ 2 ^ 64 - 1) (hnone : nextSlot s.node s.decCur x = none) :
    decWaitBitStep s = raise .desync (desyncInfo s.decCur x) (takeBits 1 rest s) := by
  rw [decWaitBitStep_bit hq, decodeBit, if_neg fun hfull => hroom ((counter_full_iff _).1 hfull)]
  simp [hnone, takeBits]

theorem decWaitBitStep_moves {x : Bool} {rest : List BitItem} {nxt : Slot} (hq : s.bitIn = .bit x :: rest)
    (hroom : s.bitCount.toNat ≠ 2 ^ 64 - 1) (hnext : nextSlot s.node s.decCur x = some nxt) :
    decWaitBitStep s = arrive nxt (takeBits 1 rest s) := by
  rw [decWaitBitStep_bit hq, decodeBit, if_neg fun hfull => hroom ((counter_full_iff _).1 hfull)]
  simp [hnext, takeBits]

end TakeItem

/-- Settles O30: the item's kind chooses the case, then the counter, the move and where it arrives. -/
theorem decoderTakesAnItem : Obligations.DecoderTakesAnItem := by
  intro s hf hs
  rw [engineStep_decWaitBit hf hs]
  refine ⟨decWaitBitStep_nothing, fun rest hq => decWaitBitStep_eof hq, fun x rest hq hfull => decWaitBitStep_full hq hfull,
    fun x rest hq hroom hmove => ?desync, fun x rest nxt hq hroom hmove => ?moves⟩
  case desync =>
    have hnone : nextSlot s.node s.decCur x = none := by
      rcases hmove with ⟨hleaf, rfl⟩ | ⟨hnas, hnil⟩
      · exact nextSlot_leaf ((isLeaf_eq_true_iff _).2 hleaf) true
      · exact nextSlot_noChild ((isLeaf_eq_false_iff _).2 hnas) hnil
    rw [decWaitBitStep_desync hq hroom hnone, desyncInfo_eq]
    rfl
  case moves =>
    have hnext : nextSlot s.node s.decCur x = some nxt := by
      rcases hmove with ⟨hleaf, rfl, rfl⟩ | ⟨hnas, hchild, rfl⟩
      · exact nextSlot_leaf ((isLeaf_eq_true_iff _).2 hleaf) false
      · exact nextSlot_child ((isLeaf_eq_false_iff _).2 hnas) hchild
    rw [decWaitBitStep_moves hq hroom hnext]
    exact ⟨fun heos => arrive_eos heos, fun hleaf heos => arrive_byte hleaf heos, fun hnas => arrive_internal hnas⟩

/-! ## Sending a byte -/

section EmitByte

variable {s : State} (hf : s.fsm = Config.fsmDecode) (hs : s.sub = Config.decEmit)
include hf hs

theorem engineStep_decEmit : engineStep s = decEmitStep s := by
  rw [engineStep_decode hf, decodeStep, if_neg (by rw [hs]; decide), if_pos hs]

theorem engineStep_symSinkBusy (hready : s.symOutReady = false) : engineStep s = s :=
  (engineStep_decEmit hf hs).trans (if_pos hready)

theorem engineStep_symCountFull (hready : s.symOutReady = true) (hfull : s.symCount.toNat = 2 ^ 64 - 1) :
    engineStep s = raise .countOverflow 1 s := by
  rw [engineStep_decEmit hf hs, decEmitStep, if_neg (by simp [hready]), if_pos ((counter_full_iff _).2 hfull)]

theorem engineStep_sendsByte (hready : s.symOutReady = true) (hroom : s.symCount.toNat ≠ 2 ^ 64 - 1) :
    engineStep s = giveSym s.decOut { s with decCur := s.rootIdx, sub := Config.decWaitBit } := by
  rw [engineStep_decEmit hf hs, decEmitStep, if_neg (by simp [hready]),
    if_neg fun hfull => hroom ((counter_full_iff _).1 hfull)]

end EmitByte

/-- Settles O31: the sink chooses the case, then the counter. -/
theorem decoderEmitsAByte : Obligations.DecoderEmitsAByte := fun _ hf hs =>
  ⟨engineStep_symSinkBusy hf hs, engineStep_symCountFull hf hs, engineStep_sendsByte hf hs⟩

end Sys2Proof.Machine
end

section
/-! PROOF. A whole run of DECODE: the bits of a payload lead from leaf to leaf, and the bytes of the leaves go to a sink that accepts
(R292, R135, R213). -/

namespace Sys2Proof.Machine

/-! ## The decoder's way to a leaf -/

/-- The decoder's moves for the bits `p` lead from `cur` to `leaf`, over internal slots until the last bit (R286, R287). -/
inductive Leads (node : Vector Node 513) : Slot → List Bool → Slot → Prop
  | last {cur leaf : Slot} {x : Bool} (hnext : nextSlot node cur x = some leaf) : Leads node cur [x] leaf
  | more {cur k leaf : Slot} {x : Bool} {p : List Bool} (hnext : nextSlot node cur x = some k)
      (hk : (arenaGet node k.toNat).isLeaf = false) (hrest : Leads node k p leaf) : Leads node cur (x :: p) leaf

section Tree

variable {freq : Vector Count 257} {node : Vector Node 513} {n : Nat} {root : Slot} {code : Vector CodeEntry 257}

/-- In a tree every bit moves the pointer from an internal slot to a child (R57 (b)). -/
theorem TreeInv.nextSlot_internal (h : TreeInv freq node n root) {cur : Slot} (hcur : cur.toNat < 2 * n - 1)
    (hleaf : (arenaGet node cur.toNat).isLeaf = false) (x : Bool) :
    nextSlot node cur x = some ((arenaGet node cur.toNat).child x) := by
  have hlt := h.child_lt ((h.not_isLeaf_iff hcur).1 hleaf) hcur x
  have hn := h.leaves_le
  have hnil : Config.nil.toNat = 1023 := rfl
  exact nextSlot_child hleaf fun he => by rw [he] at hlt; omega

/-- The decoder goes the way that the walk of DERIVE_CODES went (R232, R286). -/
theorem TreeInv.leads_of_walk (h : TreeInv freq node n root) {cur leaf : Slot} {p : List Bool} (hcur : cur.toNat < 2 * n - 1)
    (hinternal : (arenaGet node cur.toNat).isLeaf = false) (hw : walk node cur p = some leaf)
    (hleaf : (arenaGet node leaf.toNat).isLeaf = true) : Leads node cur p leaf := by
  induction p generalizing cur with
  | nil =>
    obtain rfl : cur = leaf := Option.some.inj hw
    exact absurd hleaf (ne_true_of_eq_false hinternal)
  | cons x p ih =>
    have hnext := h.nextSlot_internal hcur hinternal x
    replace hw : walk node ((arenaGet node cur.toNat).child x) p = some leaf := by simpa [walk, hinternal] using hw
    cases hchild : (arenaGet node ((arenaGet node cur.toNat).child x).toNat).isLeaf with
    | false => exact .more hnext hchild (ih (h.nextSlot_lt hcur hnext) hchild hw)
    | true =>
      cases p with
      | nil =>
        obtain rfl := Option.some.inj hw
        exact .last hnext
      | cons y p => exact absurd (hw.symm.trans (walk_leaf hchild)) (Option.some_ne_none leaf)

/-- A code leads the decoder from the root to its symbol's leaf; the code "0" of a lone leaf leads to the root itself (R287). -/
theorem TreeInv.leads_of_isCodeOf (h : TreeInv freq node n root) {p : List Bool} {sym : Nat} (hcode : IsCodeOf node root p sym) :
    ∃ leaf, Leads node root p leaf ∧ (arenaGet node leaf.toNat).sym.toNat = sym := by
  unfold IsCodeOf at hcode
  split at hcode
  next hroot =>
    obtain ⟨rfl, hsym⟩ := hcode
    exact ⟨root, .last (nextSlot_leaf hroot false), hsym⟩
  next hroot =>
    obtain ⟨leaf, hw, hleaf, hsym⟩ := hcode
    exact ⟨leaf, h.leads_of_walk h.root_lt (eq_false_of_ne_true hroot) hw hleaf, hsym⟩

end Tree

/-! ## One code -/

theorem counter_add_add (c : Counter) (j k : Nat) :
    c + BitVec.ofNat 64 (j + k) = c + BitVec.ofNat 64 j + BitVec.ofNat 64 k := by rw [BitVec.ofNat_add, BitVec.add_assoc]

theorem takeBits_takeBits (j k : Nat) (items items' : List BitItem) (s : State) :
    takeBits k items' (takeBits j items s) = takeBits (j + k) items' s := by
  rw [takeBits, takeBits, takeBits, counter_add_add]

/-- An arrival does not look at where the pointer was. -/
theorem arrive_decCur (nxt cur : Slot) (s : State) : arrive nxt { s with decCur := cur } = arrive nxt s := rfl

/-- Engine steps take the bits that lead to a leaf, with room in the counter (R284, R286). -/
theorem engineSteps_leads {s : State} {cur leaf : Slot} {p : List Bool} {rest : List BitItem} (h : Leads s.node cur p leaf)
    (hcur : s.decCur = cur) (hf : s.fsm = Config.fsmDecode) (hs : s.sub = Config.decWaitBit)
    (hitems : s.bitIn = p.map BitItem.bit ++ rest) (hroom : s.bitCount.toNat + p.length < 2 ^ 64) :
    engineSteps p.length s = arrive leaf (takeBits p.length rest s) := by
  generalize hnode : s.node = node at h
  induction h generalizing s with
  | last hnext =>
    subst hcur hnode
    exact (engineStep_decWaitBit hf hs).trans (decWaitBitStep_moves hitems (by rw [List.length_singleton] at hroom; omega) hnext)
  | @more cur k leaf x p hnext hk hrest ih =>
    subst hcur hnode
    rw [List.length_cons] at hroom ⊢
    have hcount : (s.bitCount + 1#64).toNat = s.bitCount.toNat + 1 :=
      counter_succ fun hfull => by have := (counter_full_iff _).1 hfull; omega
    rw [engineSteps, engineStep_decWaitBit hf hs, decWaitBitStep_moves hitems (by omega) hnext,
      arrive_internal (s := takeBits 1 _ s) ((isLeaf_eq_false_iff _).1 hk)]
    refine (ih (s := { takeBits 1 (p.map BitItem.bit ++ rest) s with decCur := k }) rfl hf hs rfl
      (lt_of_eq_of_lt (congrArg (· + p.length) hcount) (by omega)) rfl).trans ?_
    rw [Nat.add_comm p.length 1, ← takeBits_takeBits 1 p.length (p.map BitItem.bit ++ rest)]
    rfl

/-! ## One symbol -/

/-- A running DECODE that waits at the root of a tree with the payload of bytes offered, codes of that tree, a sink that accepts, and
room in both counters. -/
structure DecodeReady (code : Vector CodeEntry 257) (s : State) (bytes : List Byte) (rest : List BitItem) : Prop where
  fsm : s.fsm = Config.fsmDecode
  sub : s.sub = Config.decWaitBit
  cur : s.decCur = s.rootIdx
  sink : s.symOutReady = true
  items : s.bitIn = (payload code bytes).map BitItem.bit ++ rest
  tree : TreeInv s.freq s.node s.leafCnt.toNat s.rootIdx
  codes : CodesInv s.freq s.node s.rootIdx code
  bytesPresent : ∀ b ∈ bytes, present s.freq b.toNat = true
  symRoom : s.symCount.toNat + bytes.length < 2 ^ 64
  bitRoom : s.bitCount.toNat + (payload code bytes).length < 2 ^ 64

/-- The state that awaits the next code at the root when a byte's code has been taken and the byte sent (R288, R290). -/
def afterDecodedByte (b : Byte) (k : Nat) (items : List BitItem) (s : State) : State :=
  giveSym b { takeBits k items s with decOut := b, decCur := s.rootIdx, sub := Config.decWaitBit }

section Symbol

variable {code : Vector CodeEntry 257} {s : State} {b : Byte} {bytes : List Byte} {rest : List BitItem}

/-- Engine steps take the code of a symbol and arrive at its leaf. -/
theorem DecodeReady.engineSteps_code (h : DecodeReady code s bytes rest) {sym : Nat} (hsym : sym < 257)
    (hp : present s.freq sym = true) {items : List BitItem}
    (hitems : s.bitIn = (codeGet code sym).bits.map BitItem.bit ++ items)
    (hroom : s.bitCount.toNat + (codeGet code sym).bits.length < 2 ^ 64) :
    ∃ leaf, (arenaGet s.node leaf.toNat).sym.toNat = sym ∧
      engineSteps (codeGet code sym).bits.length s = arrive leaf (takeBits (codeGet code sym).bits.length items s) := by
  obtain ⟨leaf, hleads, hleaf⟩ := h.tree.leads_of_isCodeOf (h.codes.isCodeOf_bits hsym hp)
  exact ⟨leaf, hleaf, engineSteps_leads hleads h.cur h.fsm h.sub hitems hroom⟩

/-- The leaf of a byte's symbol has that byte to send (R288). -/
theorem arrive_leafOfByte {leaf : Slot} (hleaf : (arenaGet s.node leaf.toNat).sym.toNat = b.toNat) :
    arrive leaf s = { s with decCur := leaf, decOut := b, sub := Config.decEmit } := by
  have hbyte : (arenaGet s.node leaf.toNat).sym.setWidth 8 = b := by bv_omega
  rw [arrive_byte (by bv_omega) (by bv_omega), hbyte]

/-- The room that a byte needs, and that the bytes after it need. -/
theorem DecodeReady.room (h : DecodeReady code s (b :: bytes) rest) :
    s.symCount.toNat + 1 + bytes.length < 2 ^ 64 ∧
      s.bitCount.toNat + (codeGet code b.toNat).bits.length + (payload code bytes).length < 2 ^ 64 := by
  have hbits := h.bitRoom
  have hsyms := h.symRoom
  rw [payload_cons, List.length_append] at hbits
  rw [List.length_cons] at hsyms
  omega

theorem DecodeReady.engineSteps_byte (h : DecodeReady code s (b :: bytes) rest) :
    engineSteps ((codeGet code b.toNat).bits.length + 1) s =
      afterDecodedByte b (codeGet code b.toNat).bits.length ((payload code bytes).map BitItem.bit ++ rest) s := by
  obtain ⟨hsyms, hbits⟩ := h.room
  have hitems := h.items
  rw [payload_cons, List.map_append, List.append_assoc] at hitems
  obtain ⟨leaf, hleaf, hsteps⟩ :=
    h.engineSteps_code (by have := b.isLt; omega) (h.bytesPresent b List.mem_cons_self) hitems (by omega)
  rw [engineSteps_add, hsteps, arrive_leafOfByte (s := takeBits _ _ s) hleaf]
  exact engineStep_sendsByte h.fsm rfl h.sink (by dsimp only [takeBits]; omega)

theorem DecodeReady.next (h : DecodeReady code s (b :: bytes) rest) :
    DecodeReady code (afterDecodedByte b (codeGet code b.toNat).bits.length ((payload code bytes).map BitItem.bit ++ rest) s)
      bytes rest := by
  obtain ⟨hsyms, hbits⟩ := h.room
  refine ⟨h.fsm, rfl, rfl, h.sink, rfl, h.tree, h.codes, fun c hc => h.bytesPresent c (List.mem_cons_of_mem b hc), ?symRoom, ?bitRoom⟩
  case symRoom => exact lt_of_eq_of_lt (congrArg (· + _) (counter_add (c := s.symCount) (n := 1) (by omega))) hsyms
  case bitRoom =>
    exact lt_of_eq_of_lt (congrArg (· + _) (counter_add (n := (codeGet code b.toNat).bits.length) (by omega))) hbits

end Symbol

/-! ## The stream -/

/-- The completion of DECODE over a payload: its bits taken and counted, its bytes sent and counted, and the decoder's registers as the
last arrivals left them (R289, R292). -/
def afterPayload (code : Vector CodeEntry 257) (bytes : List Byte) (items : List BitItem) (cur : Slot) (out : Byte) (s : State) :
    State :=
  finish { takeBits (payload code bytes).length items s with
    symOut := s.symOut ++ bytes, symCount := s.symCount + BitVec.ofNat 64 bytes.length, decCur := cur, decOut := out,
    sub := Config.decWaitBit }

theorem afterPayload_afterDecodedByte (code : Vector CodeEntry 257) (b : Byte) (bytes : List Byte) (items rest : List BitItem)
    (cur : Slot) (out : Byte) (s : State) :
    afterPayload code bytes rest cur out (afterDecodedByte b (codeGet code b.toNat).bits.length items s) =
      afterPayload code (b :: bytes) rest cur out s := by
  simp [afterPayload, afterDecodedByte, giveSym, takeBits, finish, complete, payload_cons, counter_add_add,
    Nat.add_comm bytes.length 1]

/-- A step for each byte and one for each bit lead to the completion. -/
theorem DecodeReady.engineSteps_payload {code : Vector CodeEntry 257} {s : State} {bytes : List Byte} {rest : List BitItem}
    (h : DecodeReady code s bytes rest) :
    ∃ cur out, engineSteps (bytes.length + (payload code bytes).length) s = afterPayload code bytes rest cur out s := by
  induction bytes generalizing s with
  | nil =>
    obtain ⟨leaf, hleaf, hsteps⟩ := h.engineSteps_code (sym := 256) (by decide) h.tree.eosPresent h.items h.bitRoom
    have heos : (arenaGet s.node leaf.toNat).sym = 256 := BitVec.eq_of_toNat_eq hleaf
    refine ⟨leaf, s.decOut, ?_⟩
    rw [payload_nil, List.length_nil, Nat.zero_add, hsteps, arrive_eos (s := takeBits _ _ s) heos]
    simp [afterPayload, payload_nil, takeBits, finish, complete]
  | cons b bytes ih =>
    have hsteps : (b :: bytes).length + (payload code (b :: bytes)).length =
        ((codeGet code b.toNat).bits.length + 1) + (bytes.length + (payload code bytes).length) := by
      rw [payload_cons, List.length_append, List.length_cons]
      omega
    obtain ⟨cur, out, hrun⟩ := ih h.next
    exact ⟨cur, out, by rw [hsteps, engineSteps_add, h.engineSteps_byte, hrun, afterPayload_afterDecodedByte]⟩

/-- The codes of one state are those of the tree of another with the same frequency table (R213). -/
theorem MachineInv.codes_of_sameTable {e s : State} (he : MachineInv e) (hs : MachineInv s) (hcodes : e.codesValid = true)
    (htree : s.treeValid = true) (hfreq : e.freq = s.freq) : CodesInv s.freq s.node s.rootIdx e.code := by
  obtain ⟨hnode, -, hroot, -⟩ := sameTableSameTreeAndCodes e s he hs (he.control.codesNeedTree hcodes) htree hfreq
  exact hfreq ▸ hnode ▸ hroot ▸ he.codes hcodes

/-- The accept of DECODE makes it ready for the payload of bytes that the table has, if the counter can count it (R282). -/
theorem decodeReady_of_accept {code : Vector CodeEntry 257} {s : State} {bytes : List Byte} {rest : List BitItem}
    (h : MachineInv s) (hvalid : s.treeValid = true) (hcodes : CodesInv s.freq s.node s.rootIdx code)
    (hready : s.symOutReady = true) (hitems : s.bitIn = (payload code bytes).map BitItem.bit ++ rest)
    (hpresent : ∀ b ∈ bytes, present s.freq b.toNat = true) (hroom : (payload code bytes).length < 2 ^ 64) :
    DecodeReady code (goto Config.fsmDecode Config.decWaitBit { clearCounters (beginAccept s) with decCur := s.rootIdx })
      bytes rest := by
  have hlen : bytes.length ≤ (payload code bytes).length := length_le_payload fun b hb h0 => by
    have hpos := (hcodes.one_le_len_iff (by have := b.isLt; omega)).2 (hpresent b hb)
    rw [h0] at hpos
    exact absurd hpos (by decide)
  refine ⟨rfl, rfl, rfl, hready, hitems, h.tree hvalid, hcodes, hpresent, ?symRoom, ?bitRoom⟩
  case symRoom => exact (Nat.zero_add _).trans_lt (by omega)
  case bitRoom => exact (Nat.zero_add _).trans_lt hroom

/-- The completion of the payload of a state that was idle: nothing but the streams, the counters, the report and the decoder's own
registers differs from it (R292). -/
theorem afterPayload_accept {s : State} (h : ControlInv s) (hidle : s.fsm = Config.fsmIdle) (code : Vector CodeEntry 257)
    (bytes : List Byte) (rest : List BitItem) (cur : Slot) (out : Byte) :
    afterPayload code bytes rest cur out
        (goto Config.fsmDecode Config.decWaitBit { clearCounters (beginAccept s) with decCur := s.rootIdx }) = { s with
      bitIn := rest, symOut := s.symOut ++ bytes, bitCount := BitVec.ofNat 64 (payload code bytes).length,
      symCount := BitVec.ofNat 64 bytes.length, decCur := cur, decOut := out, done := true, err := 0, errInfo := 0 } := by
  have hsub : s.sub = 0 := by simpa [State.legalEngine, hidle] using h.legal
  rw [hidle, hsub, h.pqEmpty, h.stackEmpty, ← BitVec.zero_add (BitVec.ofNat 64 bytes.length),
    ← BitVec.zero_add (BitVec.ofNat 64 (payload code bytes).length)]
  rfl

/-- Settles O54: the same table gives both states one tree, so the codes of the one lead the decoder of the other from leaf to leaf; the
accept makes DECODE ready for the payload, and the run of engine turns is `engineSteps_payload`. -/
theorem decodeRecoversThePayload : Obligations.DecodeRecoversThePayload := by
  intro e s bytes rest ts he hcodes hs hfreq hidle hrst htree hready hpresent hitems hroom
  have hsame := he.codes_of_sameTable hs hcodes htree hfreq
  obtain ⟨cur, out, hrun⟩ := (decodeReady_of_accept hs htree hsame hready hitems hpresent hroom).engineSteps_payload
  rw [afterPayload_accept hs.control hidle] at hrun
  have hreach := run_engineTurns (bytes.length + (payload e.code bytes).length)
    (goto Config.fsmDecode Config.decWaitBit { clearCounters (beginAccept s) with decCur := s.rootIdx }) ts hrst
  rw [hrun] at hreach
  exact ⟨_, _, exec_decode_of_tree hidle htree, hreach, rfl⟩

end Sys2Proof.Machine
end

section
/-! PROOF. The control commands: NOP, RELEASE, ABORT and the illegal words (R310 to R314). -/

namespace Sys2Proof.Machine

/-- Settles O10: the accept of NOP is a completion with no error. -/
theorem nopCompletes : Obligations.NopCompletes := by
  refine ⟨rfl, ?idle, ?busy⟩
  case idle => exact fun _ hidle => exec_idle .nop hidle
  case busy => exact fun s hbusy => busyCommandsAreDropped .nop s hbusy (.inl (by decide))

/-! ## RELEASE -/

/-- A command that raises an error leaves its code in ERR (R340). -/
theorem err_of_exec_raise {i : Instr} {e : ErrCode} {info : Word} {s r u : State} (hraise : exec i s = .next (raise e info r))
    (h : exec i s = .next u) : u.err = e.code := by
  rw [hraise, Host.Outcome.next.injEq] at h
  rw [← h, raise_eq, complete_err]

/-- Settles O23: the accept is an exact record, and the three commands that ask for a valid tree or valid codes then find their flag
clear. -/
theorem releaseDiscardsTheTree : Obligations.ReleaseDiscardsTheTree := by
  refine ⟨rfl, fun s hidle => ⟨finish (discardTree (beginAccept s)), exec_idle .release hidle, rfl, ?derive, ?decode, ?encode⟩, ?busy⟩
  case derive => exact fun _ => err_of_exec_raise (exec_deriveCodes_noTree rfl rfl)
  case decode => exact fun _ => err_of_exec_raise (exec_decode_noTree rfl rfl)
  case encode => exact fun _ => err_of_exec_raise (exec_encode_noCodes rfl rfl)
  case busy => exact fun s hbusy => busyCommandsAreDropped .release s hbusy (.inl (by decide))

/-! ## ABORT -/

/-- Settles O24: an honoured ABORT raises ERR_ABORTED over the running command's own state. -/
theorem abortEndsARunningStream : Obligations.AbortEndsARunningStream :=
  ⟨rfl, fun _ hstream => exec_abort_running hstream⟩

/-- Settles O25: an idle engine accepts ABORT as it does NOP, and while BUILD or DERIVE runs no stream is there to end. -/
theorem abortWhileIdleOrBuilding : Obligations.AbortWhileIdleOrBuilding := by
  refine ⟨rfl, ?idle, ?building⟩
  case idle => exact fun _ hidle => exec_idle .abort hidle
  case building =>
    intro s hbuilding
    have hother : s.fsm ≠ Config.fsmIdle ∧ s.fsm ≠ Config.fsmEncode ∧ s.fsm ≠ Config.fsmDecode := by
      rcases hbuilding with hfsm | hfsm <;> rw [hfsm] <;> decide
    obtain ⟨hbusy, hstream⟩ := hother
    exact busyCommandsAreDropped .abort s hbusy (.inr hstream)

/-! ## Illegal words -/

/-- Settles O26: the words of R133 decode to `illegal`, whose accept raises ERR_ILLEGAL_CMD. -/
theorem illegalWordsAreReported : Obligations.IllegalWordsAreReported := by
  refine ⟨?decodes, ?idle, ?busy⟩
  case decodes => exact fun w hw => ⟨(decodeWord_eq_illegal_iff w).2 hw, rfl⟩
  case idle => exact fun w _ hidle => exec_idle (.illegal w) hidle
  case busy => exact fun w s hbusy => busyCommandsAreDropped (.illegal w) s hbusy (.inl (by simp))

end Sys2Proof.Machine
end

section
/-! PROOF. No engine step wraps a counter (R338, R253, R283). -/

namespace Sys2Proof.Machine

/-! ## What a step can count -/

/-- What a step from `s` to `t` counts: nothing, or one bit or one symbol on a counter that is not full (R338). -/
inductive CountEvent (s t : State) : Prop where
  | nothing (hb : t.bitCount = s.bitCount) (hs : t.symCount = s.symCount)
  | bit (hroom : s.bitCount ≠ Config.counterMax) (hb : t.bitCount = s.bitCount + 1#64) (hs : t.symCount = s.symCount)
  | symbol (hroom : s.symCount ≠ Config.counterMax) (hb : t.bitCount = s.bitCount) (hs : t.symCount = s.symCount + 1#64)

theorem CountEvent.refl (s : State) : CountEvent s s := .nothing rfl rfl

theorem CountEvent.bitCount_toNat {s t : State} (h : CountEvent s t) :
    t.bitCount.toNat = s.bitCount.toNat ∨ t.bitCount.toNat = s.bitCount.toNat + 1 := by
  cases h with
  | nothing hb hs => exact .inl (congrArg BitVec.toNat hb)
  | bit hroom hb hs => exact .inr (hb ▸ counter_succ hroom)
  | symbol hroom hb hs => exact .inl (congrArg BitVec.toNat hb)

theorem CountEvent.symCount_toNat {s t : State} (h : CountEvent s t) :
    t.symCount.toNat = s.symCount.toNat ∨ t.symCount.toNat = s.symCount.toNat + 1 := by
  cases h with
  | nothing hb hs => exact .inl (congrArg BitVec.toNat hs)
  | bit hroom hb hs => exact .inl (congrArg BitVec.toNat hs)
  | symbol hroom hb hs => exact .inr (hs ▸ counter_succ hroom)

/-! ## The engine's steps -/

theorem buildStep_countEvent (s : State) : CountEvent s (buildStep s) := by
  rcases buildStep_cases s with ⟨-, he⟩ | ⟨-, -, he⟩ | ⟨-, he⟩ <;> rw [he] <;> exact .nothing rfl rfl

theorem deriveStep_countEvent (s : State) : CountEvent s (deriveStep s) := by
  rcases deriveStep_cases s with ⟨-, he⟩ | ⟨-, w, -, he⟩ | ⟨-, -, he⟩ <;> rw [he] <;> exact .nothing rfl rfl

/-- An item is counted when it is a byte with a code and SYM_COUNT is not full (R254, R255). -/
theorem encWaitSymStep_countEvent (s : State) : CountEvent s (encWaitSymStep s) := by
  rcases encWaitSymStep_cases s with ⟨-, he⟩ | ⟨b, r, -, ⟨-, he⟩ | ⟨-, -, he⟩ | ⟨-, hroom, he⟩⟩ | ⟨r, -, he⟩ <;> rw [he]
  · exact .refl s
  · exact .nothing rfl rfl
  · exact .nothing rfl rfl
  · exact .symbol hroom rfl rfl
  · exact .nothing rfl rfl

theorem encShiftStep_countEvent (s : State) : CountEvent s (encShiftStep s) := by
  rcases encShiftStep_cases s with ⟨-, he⟩ | ⟨-, -, he⟩ | ⟨-, hroom, he⟩ <;> rw [he]
  · exact .refl s
  · exact .nothing rfl rfl
  · exact .bit hroom rfl rfl

/-- The last bit of the EOS code is counted as every other is, before the completion (R258). -/
theorem encShiftEosStep_countEvent (s : State) : CountEvent s (encShiftEosStep s) := by
  rcases encShiftEosStep_cases s with ⟨-, he⟩ | ⟨-, -, he⟩ | ⟨-, hroom, -, he⟩ | ⟨-, hroom, -, he⟩ <;> rw [he]
  · exact .refl s
  · exact .nothing rfl rfl
  · exact .bit hroom rfl rfl
  · exact .bit hroom rfl rfl

theorem arrive_symCount (nxt : Slot) (s : State) : (arrive nxt s).symCount = s.symCount := by
  rcases arrive_cases nxt s with ⟨-, -, he⟩ | ⟨-, -, he⟩ | ⟨-, he⟩ <;> simp [he]

/-- A bit is counted whether it moves the pointer or desyncs, and `Eof` is not (R284, R285). -/
theorem decWaitBitStep_countEvent (s : State) : CountEvent s (decWaitBitStep s) := by
  rcases decWaitBitStep_cases s with
    ⟨-, he⟩ | ⟨r, -, he⟩ | ⟨x, r, -, ⟨-, he⟩ | ⟨hroom, -, he⟩ | ⟨hroom, nxt, -, he⟩⟩ <;> rw [he]
  · exact .refl s
  · exact .nothing rfl rfl
  · exact .nothing rfl rfl
  · exact .bit hroom rfl rfl
  · exact .bit hroom (arrive_bitCount nxt _) (arrive_symCount nxt _)

theorem decEmitStep_countEvent (s : State) : CountEvent s (decEmitStep s) := by
  rcases decEmitStep_cases s with ⟨-, he⟩ | ⟨-, -, he⟩ | ⟨-, hroom, he⟩ <;> rw [he]
  · exact .refl s
  · exact .nothing rfl rfl
  · exact .symbol hroom rfl rfl

/-- An engine step counts at most one item, on a counter that is not full (R253, R283). -/
theorem engineStep_countEvent (s : State) : CountEvent s (engineStep s) := by
  rcases engineStep_cases s with ⟨-, he⟩ | ⟨-, he⟩ | ⟨-, he⟩ | ⟨-, he⟩ | he <;> rw [he]
  · exact buildStep_countEvent s
  · exact deriveStep_countEvent s
  · rcases encodeStep_cases s with ⟨-, he⟩ | ⟨-, he⟩ | ⟨-, he⟩ | he <;> rw [he]
    · exact encWaitSymStep_countEvent s
    · exact encShiftStep_countEvent s
    · exact encShiftEosStep_countEvent s
    · exact .refl s
  · rcases decodeStep_cases s with ⟨-, he⟩ | ⟨-, he⟩ | he <;> rw [he]
    · exact decWaitBitStep_countEvent s
    · exact decEmitStep_countEvent s
    · exact .refl s
  · exact .refl s

/-- Settles O33: a counter that an engine step moves was not full, so the sum is the counter's number plus 1. -/
theorem countersNeverWrap : Obligations.CountersNeverWrap := fun s =>
  ⟨(engineStep_countEvent s).bitCount_toNat, (engineStep_countEvent s).symCount_toNat⟩

end Sys2Proof.Machine
end

section
/-! PROOF. The reset input: the reset step, and the turns while reset is held (R370, R371, R77). -/

namespace Sys2Proof.Machine

theorem step_rstAsserted {s : State} {ts : List Turn} (hturn : s.turns = .rst true :: ts) :
    step s = .next { resetStep { s with turns := ts } with rst := true } := by
  simp only [step_turn hturn, agentStep, rstTurn, if_true]

theorem step_rstReleased {s : State} {ts : List Turn} (hturn : s.turns = .rst false :: ts) :
    step s = .next { s with turns := ts, rst := false } := by
  simp only [step_turn hturn, agentStep, rstTurn, Bool.false_eq_true, if_false]

theorem step_hostHeld {s : State} {ts : List Turn} (hrst : s.rst = true) (hturn : s.turns = .host :: ts) :
    step s = .next { s with turns := ts } := by simp only [step_turn hturn, agentStep, hrst, if_true]

theorem step_engineHeld {s : State} {ts : List Turn} (hrst : s.rst = true) (hturn : s.turns = .engine :: ts) :
    step s = .next { s with turns := ts } := by simp only [step_turn hturn, agentStep, hrst, if_true]

/-- Settles O7: the reset step is a record over the reset state that keeps the surroundings, and while the input is held neither
the host nor the engine has a step. -/
theorem resetOverridesEverything : Obligations.ResetOverridesEverything := by
  refine ⟨?asserted, ?held, ?released⟩
  case asserted => exact fun _ _ hturn => step_rstAsserted hturn
  case held =>
    rintro s ts hrst (hhost | hengine)
    · exact step_hostHeld hrst hhost
    · exact step_engineHeld hrst hengine
  case released => exact fun _ _ hturn => step_rstReleased hturn

end Sys2Proof.Machine
end
